-- ==== Sys2Proof/Word.lean ====
section
/-! DEFINITION. The word types of HUFFCORE: the command word (30_encoding.md R91), the byte that a symbol or a
boundary character is (00_scope.md R6 `SYM_W`, R9), and nothing else: counts, weights, lengths and indices are
natural numbers, because no operation of the block wraps (10_state.md R52). -/

namespace Sys2Proof

/-- A command word, `CMD_W` = 16 bits (30_encoding.md R91). -/
abbrev Word := BitVec 16

/-- A byte: a Symbol ("an 8-bit byte value treated as opaque"), a boundary character, a result byte (R6, R9). -/
abbrev Byte := BitVec 8

end Sys2Proof
end

