-- ==== Sys2Proof/Config.lean ====
section
/-! DEFINITION. What an implementation of HUFFCORE fixes (00_scope.md R6) and the values the spec leaves free
(00_scope.md R12; 93_implementation_defined.md U1, U7). A free value is an `opaque` constant with no body: nothing can
evaluate it, so a proof holds whatever it is. -/

namespace Sys2Proof.Config

/-- `NSYM`: the size of the symbol space (R6). -/
abbrev nsym : Nat := 256

/-- `NODE_MAX` = 2·NSYM − 1: how many entries the NODE RAM has (R6). -/
abbrev nodeMax : Nat := 511

/-- `CODE_LEN_MAX` = NSYM − 1: the longest code (R6). -/
abbrev codeLenMax : Nat := 255

/-- `PQ_CAP` = NSYM: the most entries the priority structure holds (R6, R122). -/
abbrev pqCap : Nat := 256

/-- `CH0`: the byte that is the character '0' at the boundary (R6, R9). -/
abbrev ch0 : Byte := 0x30#8

/-- `CH1`: the byte that is the character '1' at the boundary (R6, R9). -/
abbrev ch1 : Byte := 0x31#8

/-- The parameters of a block (R6). `none` is the unbounded instance of R7. -/
structure Params where
  /-- `WEIGHT_W`: bits in a count or a weight. -/
  weightW : Option Nat
  /-- `RBUF_CAP`: capacity of the result buffer in bytes. -/
  rbufCap : Option Nat
deriving DecidableEq, Repr

/-- The default parameters of R6. DESIGN CHOICE (log 2): State.reset holds these. -/
abbrev Params.standard : Params := { weightW := some 32, rbufCap := some 65536 }

/-- `N_MAX` = 2^WEIGHT_W − 1, or no bound (R6, R7). -/
abbrev Params.nMax (p : Params) : Option Nat := p.weightW.map fun w => 2 ^ w - 1

/-- The constraints R6 puts on the parameters: a weight has at least one bit, and 1 ≤ RBUF_CAP ≤ 2^32 − 1. -/
abbrev Params.wf (p : Params) : Prop :=
  (∀ w ∈ p.weightW, 1 ≤ w) ∧ (∀ c ∈ p.rbufCap, 1 ≤ c ∧ c ≤ 2 ^ 32 - 1)

/-- `n` is within the bound `b`; every number is within the absent bound (R7). -/
abbrev within (b : Option Nat) (n : Nat) : Prop := ∀ c ∈ b, n ≤ c

/-- A rule for picking one of several minimum-weight candidates: the draw's number gives a number, which is taken
modulo the number of candidates (R12 "draw", R123). -/
abbrev TieBreak := Nat → Nat

/-- FREE VALUE (log 3): the block's tie-break `TIE`, one draw per extraction (R123, U1). -/
opaque tieDraw : TieBreak

/-- `TIE_REF`: the candidate with the lowest node index (R125). Not a property of the block: no rule of the machine
uses it. -/
def tieRef : TieBreak := fun _ => 0

/-- FREE VALUES (log 4): what the RAMs hold after the reset with the given number, at the given index, until written
(10_state.md R55, U7). Each field of an entry is free within its width. -/
opaque freqPowerOn : (resets index : Nat) → Nat
opaque nodeInternalPowerOn : (resets index : Nat) → Bool
opaque nodeWeightPowerOn : (resets index : Nat) → Nat
opaque nodeSymPowerOn : (resets index : Nat) → Byte
opaque nodeLeftPowerOn : (resets index : Nat) → BitVec 9
opaque nodeRightPowerOn : (resets index : Nat) → BitVec 9
opaque codeValidPowerOn : (resets index : Nat) → Bool
opaque codeLenPowerOn : (resets index : Nat) → BitVec 8
opaque codeBitsPowerOn : (resets index : Nat) → BitVec 255
opaque rbufPowerOn : (resets index : Nat) → Byte

/-- FREE VALUES (log 5): what the walker leaves in its transient registers `acc` and `acc_len` (10_state.md R28). -/
opaque walkAcc : Nat → BitVec 255
opaque walkAccLen : Nat → BitVec 8

end Sys2Proof.Config
end

