-- ==== Sys2Proof/Syntax.lean ====
section
/-! DEFINITION. The syntax of HUFFCORE: the ten commands, one constructor per row of spec/opcode_table.json
(30_encoding.md R93); the fields of a command word (R91); the three macro-operations (R98); a line of the text form
(R97). -/

namespace Sys2Proof

/-- The ten commands (30_encoding.md R93). The operand of CSYM, ESYM and DBIT is the byte `data` exactly as it stands
in bits 7:0 (R92). -/
inductive Instr where
  /-- CLR: release the codec (R170). -/
  | clr
  /-- CBEGIN: open a construction (R110). -/
  | cbegin
  /-- CSYM: count one input symbol (R111). -/
  | csym (data : Byte)
  /-- CEND: close the construction (R120). -/
  | cend
  /-- EBEGIN: open an encode (R150). -/
  | ebegin
  /-- ESYM: encode one symbol (R151). -/
  | esym (data : Byte)
  /-- EEND: close the encode (R152). -/
  | eend
  /-- DBEGIN: open a decode (R160). -/
  | dbegin
  /-- DBIT: decode one character (R161). -/
  | dbit (data : Byte)
  /-- DEND: close the decode (R162). -/
  | dend
deriving DecidableEq, Repr

/-- The one command format `C` (30_encoding.md R91): bits 15:12, 11:8 and 7:0 of a command word. -/
structure Command where
  op : BitVec 4
  rsv : BitVec 4
  data : Byte
deriving DecidableEq, Repr

/-- The three macro-operations (30_encoding.md R98; 46_macro_ops.md R175 to R177), each over a byte sequence of any
length. -/
inductive Macro where
  | construct (operand : List Byte)
  | encode (operand : List Byte)
  | decode (operand : List Byte)
deriving DecidableEq, Repr

/-- The mnemonics of 30_encoding.md R93. -/
inductive Mnemonic where
  | clr | cbegin | csym | cend | ebegin | esym | eend | dbegin | dbit | dend
deriving DecidableEq, Repr

/-- An operand of the text form (30_encoding.md R97): a hexadecimal byte, a decimal number, or a character in single
quotes. -/
inductive AsmOperand where
  | hex (n : Nat)
  | decimal (n : Nat)
  | quoted (c : Char)
deriving DecidableEq, Repr

/-- One command of the text form: a mnemonic and, for some, one operand (30_encoding.md R97). -/
structure AsmLine where
  mnemonic : Mnemonic
  operand : Option AsmOperand
deriving DecidableEq, Repr

end Sys2Proof
end

