-- ==== Sys2Proof/WellFormed.lean ====
section
/-! DEFINITION. Well-formedness: of a command word's fields (30_encoding.md R91, the first three checks of R94), of an
instruction (every value of the type is well formed: an operand byte has no illegal value, R92), of a line of the text
form (R97). -/

namespace Sys2Proof

/-- Operation codes whose command takes the operand byte: CSYM, ESYM, DBIT (30_encoding.md R91, R93). -/
def Command.takesData (c : Command) : Bool := c.op = 0x3 || c.op = 0x6 || c.op = 0x9

/-- First check of 30_encoding.md R94: `op` is one of 0x1 .. 0xA. -/
def Command.opDefined (c : Command) : Bool := decide (1 ≤ c.op.toNat ∧ c.op.toNat ≤ 10)

/-- Second check of 30_encoding.md R94: the reserved field is zero. -/
def Command.reservedZero (c : Command) : Bool := c.rsv = 0

/-- Third check of 30_encoding.md R94: `data` is zero in a command without an operand. -/
def Command.dataAllowed (c : Command) : Bool := c.takesData || c.data = 0

/-- A command word that is one of the ten patterns (30_encoding.md R93, R94). -/
def Command.wellFormed (c : Command) : Bool := c.opDefined && c.reservedZero && c.dataAllowed

/-- The operand byte of an instruction, 0 where it has none (30_encoding.md R91, R92). -/
def Instr.operand : Instr → Byte
  | .clr => 0
  | .cbegin => 0
  | .csym data => data
  | .cend => 0
  | .ebegin => 0
  | .esym data => data
  | .eend => 0
  | .dbegin => 0
  | .dbit data => data
  | .dend => 0

/-- An instruction is well formed when its operand is a byte: every term of the type is (30_encoding.md R92: "every
value 0x00..0xFF is a legal symbol"; any byte may be a DBIT operand). -/
def Instr.wellFormed (i : Instr) : Bool := decide (i.operand.toNat < 256)

/-- The mnemonics that take one operand in the text form (30_encoding.md R97). -/
def Mnemonic.takesOperand : Mnemonic → Bool
  | .csym => true
  | .esym => true
  | .dbit => true
  | .clr => false
  | .cbegin => false
  | .cend => false
  | .ebegin => false
  | .eend => false
  | .dbegin => false
  | .dend => false

/-- The number an operand stands for (30_encoding.md R97); a quoted character stands for its ASCII code. -/
def AsmOperand.value : AsmOperand → Nat
  | .hex n => n
  | .decimal n => n
  | .quoted c => c.toNat

/-- An operand is a byte, and a quoted one is a printable ASCII character (30_encoding.md R97). -/
def AsmOperand.wellFormed : AsmOperand → Bool
  | .hex n => decide (n < 256)
  | .decimal n => decide (n < 256)
  | .quoted c => decide (0x20 ≤ c.toNat ∧ c.toNat ≤ 0x7E)

/-- A line has an operand exactly when its mnemonic takes one (30_encoding.md R97). -/
def AsmLine.operandFits (l : AsmLine) : Bool := l.operand.isSome == l.mnemonic.takesOperand

/-- A line of the text form that assembles (30_encoding.md R97). -/
def AsmLine.wellFormed (l : AsmLine) : Bool := l.operandFits && (l.operand.all AsmOperand.wellFormed)

end Sys2Proof
end

