-- ==== Sys2Proof/Decode.lean ====
section
/-! DEFINITION. The decoder (30_encoding.md R94: total, the checks in order, each refusal by name), the encoder from
the same table (R93), and the decoder under the opcode table's bit numbering. -/

namespace Sys2Proof

/-- Why a word is no command, in the order of 30_encoding.md R94's checks; every one is answered BadCommand (R205). -/
inductive DecodeError where
  /-- `op` is 0x0 or 0xB .. 0xF. -/
  | undefinedOp
  /-- `rsv` is not zero. -/
  | reservedNotZero
  /-- `data` is not zero in a command without an operand. -/
  | dataNotZero
deriving DecidableEq, Repr

/-- The fields of a command word (30_encoding.md R91). -/
def Command.ofWord (w : Word) : Command :=
  { op := w.extractLsb' 12 4, rsv := w.extractLsb' 8 4, data := w.extractLsb' 0 8 }

/-- The command word of three fields, `op` uppermost (30_encoding.md R91). -/
def Command.toWord (c : Command) : Word := c.op ++ c.rsv ++ c.data

/-- The command of an operation code (30_encoding.md R93); none for an undefined one. -/
def commandOf (op : BitVec 4) (data : Byte) : Option Instr :=
  match op.toNat with
  | 0x1 => some .clr
  | 0x2 => some .cbegin
  | 0x3 => some (.csym data)
  | 0x4 => some .cend
  | 0x5 => some .ebegin
  | 0x6 => some (.esym data)
  | 0x7 => some .eend
  | 0x8 => some .dbegin
  | 0x9 => some (.dbit data)
  | 0xA => some .dend
  | _ => none

/-- Decoding of the three fields: the first three checks of 30_encoding.md R94, in its order. -/
def decodeCommand (c : Command) : Except DecodeError Instr :=
  match commandOf c.op c.data with
  | none => .error .undefinedOp
  | some i =>
    if c.reservedZero = false then .error .reservedNotZero
    else if c.dataAllowed = false then .error .dataNotZero
    else .ok i

/-- The decoder: every 16-bit word is a command or is refused by name (30_encoding.md R94, R95). -/
def decode (w : Word) : Except DecodeError Instr := decodeCommand (Command.ofWord w)

/-- The operation code of a command (30_encoding.md R93). -/
def Instr.opcode : Instr → BitVec 4
  | .clr => 0x1
  | .cbegin => 0x2
  | .csym _ => 0x3
  | .cend => 0x4
  | .ebegin => 0x5
  | .esym _ => 0x6
  | .eend => 0x7
  | .dbegin => 0x8
  | .dbit _ => 0x9
  | .dend => 0xA

/-- The fields of a command: its operation code, a zero reserved field, its operand (30_encoding.md R91, R93). -/
def Instr.toCommand (i : Instr) : Command := { op := i.opcode, rsv := 0, data := i.operand }

/-- The encoder: the word `(op << 12) | data` with `rsv = 0` (30_encoding.md R93, R97). -/
def encode (i : Instr) : Word := i.toCommand.toWord

/-- What the decoder reads from an instruction whose bits are `w`, numbered as spec/opcode_table.json numbers them:
one 16-bit word, transferred as one unit (20_memory.md R64), bit 0 its least significant bit. -/
def decodeTableWord (nbits w : Nat) : Option Instr :=
  match decode (BitVec.ofNat 16 (w % 2 ^ nbits)) with
  | .ok i => some i
  | .error _ => none

end Sys2Proof
end

