-- ==== Sys2Proof/Machine/Memory.lean ====
section
/-! DEFINITION. One RAM of the block as plain data: a list of (index, entry) in one canonical form, indices strictly
rising. An unlisted index holds no value: it has not been written since reset (10_state.md R51, R55). One access moves
one whole entry (00_scope.md R10; 20_memory.md R66). -/

namespace Sys2Proof.Machine

/-- A RAM: its written entries by index. -/
abbrev Memory (α : Type) := List (Nat × α)

/-- The canonical form: indices strictly rising, so that equal memories are equal data. No entry equals what an
unlisted index reads as, because that is "no value". -/
abbrev Memory.wf {α : Type} (m : Memory α) : Prop := m.Pairwise fun a b => a.1 < b.1

/-- `MemRead(SPACE[i], 1)` (R10): the entry, or none where nothing has been written since reset. -/
def Memory.read {α : Type} : Memory α → Nat → Option α
  | [], _ => none
  | (k, v) :: rest, i => if i = k then some v else Memory.read rest i

/-- `MemWrite(SPACE[i], 1, v)` (R10), keeping the canonical form. -/
def Memory.write {α : Type} : Memory α → Nat → α → Memory α
  | [], i, v => [(i, v)]
  | (k, w) :: rest, i, v =>
    if i < k then (i, v) :: (k, w) :: rest
    else if i = k then (i, v) :: rest
    else (k, w) :: Memory.write rest i v

/-- `for i in 0 .. n − 1: SPACE[i] <- v`, on a RAM of `n` entries: every entry is rewritten. -/
def Memory.fill {α : Type} (n : Nat) (v : α) : Memory α := (List.range n).map fun i => (i, v)

/-- `for j in 0 .. |vs| − 1: SPACE[at + j] <- vs[j]`. -/
def Memory.writeFrom {α : Type} (m : Memory α) : Nat → List α → Memory α
  | _, [] => m
  | at_, v :: vs => Memory.writeFrom (m.write at_ v) (at_ + 1) vs

end Sys2Proof.Machine
end

