-- ==== Sys2Proof/Machine/State.lean ====
section
/-! DEFINITION. The state of HUFFCORE (10_state.md), as plain data; its reset value (10_state.md R55); the reasons a
step can stop. INVENTORY.md lists every field with its rule and reset value. -/

namespace Sys2Proof.Machine

open Sys2Proof

/-- `phase` (10_state.md R24); the values 5, 6, 7 are never taken, so the type has none for them (U12). -/
inductive Phase where
  | empty | count | ready | enc | dec
deriving DecidableEq, Repr

/-- `resp` (10_state.md R25; 60_exceptions.md R200); the values 8 to 15 are never produced (U12). -/
inductive Resp where
  | ok | emptyInput | unknownSymbol | invalidBit | truncatedCode | badCommand | badSequence | capacity
deriving DecidableEq, Repr

/-- `rkind` (10_state.md R26); the value 3 is never taken (U12). -/
inductive RKind where
  | none | bits | syms
deriving DecidableEq, Repr

/-- The kinds an operation's error latch `terr` can hold (10_state.md R28: codes 2, 3, 4, 7; R30). -/
inductive Latched where
  | unknownSymbol | invalidBit | truncatedCode | capacity
deriving DecidableEq, Repr

/-- `NODE[i].kind` (10_state.md R32): 0 = Leaf, 1 = Internal. -/
inductive NodeKind where
  | leaf | internal
deriving DecidableEq, Repr

/-- An entry of the NODE RAM: a record of five fields, the unused ones zero (10_state.md R32). -/
structure NodeEntry where
  kind : NodeKind
  weight : Nat
  sym : Byte
  left : Nat
  right : Nat
deriving DecidableEq, Repr

/-- An entry of the CODE RAM (10_state.md R34): `bits[j]` is the j-th edge label from the root, 0 at `len` and above. -/
structure CodeEntry where
  valid : Bool
  len : Nat
  bits : BitVec 255
deriving DecidableEq, Repr

/-- What the host does at the command port, in order (30_encoding.md R90, R102): have a word accepted, or assert reset.
The MODEL's own (log 1). -/
inductive PortEvent where
  | word (w : Word)
  | reset
deriving DecidableEq, Repr

/-- The state of the block (10_state.md R22 to R35) and, at the end, four fields of the model's own. -/
structure State where
  /-- Sequencing state (R24). -/
  phase : Phase
  /-- Response of the most recently completed command (R25). -/
  resp : Resp
  /-- What the result buffer holds (R26). -/
  rkind : RKind
  /-- Number of valid result bytes (R27). -/
  rlen : Nat
  /-- Symbols counted in the open or last construction (R28). -/
  ntotal : Nat
  /-- Number of distinct symbols (R28). -/
  ksyms : Nat
  /-- Number of NODE entries allocated; the next free index (R28). -/
  nn : Nat
  /-- Index of the root node (R28). -/
  root : Nat
  /-- Decode cursor (R28). -/
  cur : Nat
  /-- Result bytes staged by the open encode or decode (R28). -/
  wlen : Nat
  /-- First error of the open operation, none if there is none (R28, R30). -/
  terr : Option Latched
  /-- Content of the priority structure: a set of node indices, held ascending without repeats (R33; log 6). -/
  pq : List Nat
  /-- The code-table walker's accumulated path (R28). -/
  acc : BitVec 255
  /-- Its length, `acc_len` (R28). -/
  accLen : BitVec 8
  /-- FREQ: the Frequency Map, indexed by symbol value (R31). -/
  freq : Memory Nat
  /-- NODE: the tree, indexed by node index (R32). -/
  node : Memory NodeEntry
  /-- CODE: the Code Table, indexed by symbol value (R34). -/
  code : Memory CodeEntry
  /-- RBUF: the result buffer, indexed from 0 (R35). -/
  rbuf : List Host.Cell
  /-- MODEL's own: the block's parameters, which no step changes (00_scope.md R6; log 2). -/
  cfg : Config.Params
  /-- MODEL's own: what the host does next at the command port (00_scope.md R16; log 1). -/
  port : List PortEvent
  /-- MODEL's own: the number of free draws taken (00_scope.md R12; log 3). -/
  draws : Nat
  /-- MODEL's own: the number of resets applied (70_reset_and_hazards.md R230; log 4). -/
  resets : Nat
deriving DecidableEq, Repr

/-- The machine right after reset (10_state.md R55): every register at the value stated there, the RAMs holding no
value. The last four fields are the model's (log 1 to 4). -/
def State.reset : State :=
  { phase := .empty, resp := .ok, rkind := .none, rlen := 0, ntotal := 0, ksyms := 0, nn := 0, root := 0, cur := 0
    wlen := 0, terr := none, pq := [], acc := 0, accLen := 0, freq := [], node := [], code := [], rbuf := []
    cfg := Config.Params.standard, port := [], draws := 0, resets := 0 }

/-- Why the model stops. HUFFCORE has no trap and no stop (60_exceptions.md R213): every error of the spec is a value of
`resp` in a next state. These stand for states no run reaches. -/
inductive Fault where
  /-- Raised by DBIT when `root`, `cur` or a child index names a NODE entry that does not exist, index 511 or above
  (20_memory.md R65: such an index cannot be formed in a run; log 7). Safe: the model stops. -/
  | noSuchNode (index : Nat)
  /-- Raised by DBIT when it would write RBUF at an index not below RBUF_CAP (20_memory.md R65; log 7). Safe. -/
  | noSuchByte (index : Nat)
  /-- Raised by CEND when the entry condition of SEED fails: `nn` is not 0 or `pq` not empty (41_tree_builder.md R121:
  set by CBEGIN and never changed in COUNT; log 8). Safe. -/
  | seedNotFresh
  /-- Raised by CEND when no symbol has a positive count although `ntotal` is not 0, so that the precondition of FINISH
  fails (41_tree_builder.md R126, 10_state.md R41; log 8). Safe. -/
  | noRoot
deriving DecidableEq, Repr

/-- Why the model has no meaning for an instruction. -/
inductive Refusal where
  /-- Raised by exec for an instruction not modelled yet; no arm of exec answers so now. Safe: the model stops. -/
  | notModelled (mnemonic : String)
deriving DecidableEq, Repr

/-- What a meaning answers. -/
abbrev Outcome := Host.Outcome State Fault Refusal

end Sys2Proof.Machine
end

