-- ==== Sys2Proof/Machine/Operands.lean ====
section
/-! DEFINITION. The operand forms of the commands (30_encoding.md R92) and the boundary characters (00_scope.md R9). -/

namespace Sys2Proof.Machine

open Sys2Proof

/-- The Symbol operand of CSYM and ESYM as an index: the byte itself, unsigned (R92). -/
def symbolIndex (data : Byte) : Nat := data.toNat

/-- The character operand of DBIT (R92): CH0 is the bit 0, CH1 the bit 1, every other value is no bit. -/
def bitOfChar (data : Byte) : Option Bool :=
  if data = Config.ch0 then some false else if data = Config.ch1 then some true else none

/-- `chr`: the boundary byte of a bit (R9). -/
def chr (b : Bool) : Byte := if b then Config.ch1 else Config.ch0

/-- `bits = a` (42_code_table.md R140): `bits[j] = a[j]` below `|a|`, 0 beyond. -/
def bitsOfPath (a : List Bool) : BitVec 255 := (BitVec.ofBoolListLE a).setWidth 255

/-- The CODE entry recorded for a path: `{valid = 1, len = |a|, bits = a}` (R140). -/
def CodeEntry.ofPath (a : List Bool) : CodeEntry := { valid := true, len := a.length, bits := bitsOfPath a }

/-- The CODE entry of a symbol that is no key: `{valid = 0, len = 0, bits = 0}` (40_freq_analyzer.md R110). -/
def CodeEntry.absent : CodeEntry := { valid := false, len := 0, bits := 0 }

/-- The bit sequence `bits[0 .. len − 1]` of an entry, the edge leaving the root first (10_state.md R34; 20_memory.md
R63). -/
def CodeEntry.path (e : CodeEntry) : List Bool := (List.range e.len).map fun j => e.bits.getLsbD j

end Sys2Proof.Machine
end

