-- ==== Sys2Proof/Machine/Flags.lean ====
section
/-! DEFINITION. The flags of the block (10_state.md R30): the first-error latch `terr`; the tag bits `NODE[i].kind` and
`CODE[s].valid` are fields of their entries. The block has no condition codes. -/

namespace Sys2Proof.Machine

open Sys2Proof

/-- The response that reports a latched kind (60_exceptions.md R200). -/
def Latched.resp : Latched → Resp
  | .unknownSymbol => .unknownSymbol
  | .invalidBit => .invalidBit
  | .truncatedCode => .truncatedCode
  | .capacity => .capacity

/-- `latch K`: `if terr = 0 then terr <- K` (00_scope.md R11; 60_exceptions.md R211). -/
def State.latch (s : State) (k : Latched) : State :=
  match s.terr with
  | none => { s with terr := some k }
  | some _ => s

end Sys2Proof.Machine
end

