-- ==== Sys2Proof/Machine/Ops.lean ====
section
/-! DEFINITION. The named operations the meanings share: responding and raising (00_scope.md R11), the phase check
(30_encoding.md R94), reading and writing the RAMs (00_scope.md R10), staging result bytes, closing an operation. -/

namespace Sys2Proof.Machine

open Sys2Proof

/-- `respond OK` is `resp <- 0` (00_scope.md R11). -/
def State.respondOk (s : State) : State := { s with resp := .ok }

/-- TAKING AN EXCEPTION: `raise K` performs `resp <- K` and nothing else (00_scope.md R11). There is no trap entry: it
saves no state, changes no mode and transfers control nowhere (60_exceptions.md R213), and there is no return from it:
the block takes the next command (R214). -/
def State.raise (s : State) (k : Resp) : State := { s with resp := k }

/-- `legal(op)`: the phases in which a command executes (10_state.md R24; 30_encoding.md R94). -/
def legalPhases : Instr → List Phase
  | .clr => [.empty, .count, .ready, .enc, .dec]
  | .cbegin => [.empty, .ready]
  | .csym _ => [.count]
  | .cend => [.count]
  | .ebegin => [.ready]
  | .esym _ => [.enc]
  | .eend => [.enc]
  | .dbegin => [.ready]
  | .dbit _ => [.dec]
  | .dend => [.dec]

/-- The fourth check of 30_encoding.md R94: out of its phases a command raises BadSequence and has no other effect
(60_exceptions.md R206). -/
def whenLegal (i : Instr) (s : State) (effect : Outcome) : Outcome :=
  if s.phase ∈ legalPhases i then effect else .next (s.raise .badSequence)

/-- A free value of a weight-wide RAM field, kept within WEIGHT_W bits where there is such a width (log 4). -/
def State.weightWide (s : State) (n : Nat) : Nat :=
  match s.cfg.weightW with
  | none => n
  | some w => n % 2 ^ w

/-- The free content of a NODE entry not written since reset (10_state.md R55; log 4). -/
def State.nodePowerOn (s : State) (i : Nat) : NodeEntry :=
  { kind := if Config.nodeInternalPowerOn s.resets i then .internal else .leaf
    weight := s.weightWide (Config.nodeWeightPowerOn s.resets i)
    sym := Config.nodeSymPowerOn s.resets i
    left := (Config.nodeLeftPowerOn s.resets i).toNat
    right := (Config.nodeRightPowerOn s.resets i).toNat }

/-- The free content of a CODE entry not written since reset (10_state.md R55; log 4). -/
def State.codePowerOn (s : State) (i : Nat) : CodeEntry :=
  { valid := Config.codeValidPowerOn s.resets i
    len := (Config.codeLenPowerOn s.resets i).toNat
    bits := Config.codeBitsPowerOn s.resets i }

/-- `FREQ[i]` (10_state.md R31). -/
def State.freqAt (s : State) (i : Nat) : Nat :=
  (s.freq.read i).getD (s.weightWide (Config.freqPowerOn s.resets i))

/-- `NODE[i]` (10_state.md R32). -/
def State.nodeAt (s : State) (i : Nat) : NodeEntry := (s.node.read i).getD (s.nodePowerOn i)

/-- `CODE[i]` (10_state.md R34). -/
def State.codeAt (s : State) (i : Nat) : CodeEntry := (s.code.read i).getD (s.codePowerOn i)

/-- `RBUF[i]` (10_state.md R35). -/
def State.rbufAt (s : State) (i : Nat) : Byte :=
  (Memory.read s.rbuf i).getD (Config.rbufPowerOn s.resets i)

/-- `FREQ[i] <- n`. -/
def State.setFreq (s : State) (i n : Nat) : State := { s with freq := s.freq.write i n }

/-- `NODE[i] <- e`. -/
def State.setNode (s : State) (i : Nat) (e : NodeEntry) : State := { s with node := s.node.write i e }

/-- Reads a NODE entry for DBIT; an index the space does not have faults (20_memory.md R60, R65; log 7). -/
def withNode (s : State) (i : Nat) (k : NodeEntry → Outcome) : Outcome :=
  if i < Config.nodeMax then k (s.nodeAt i) else .fault (.noSuchNode i)

/-- Appends bytes to the staged result: `RBUF[wlen + j] <- bs[j]`, `wlen <- wlen + |bs|` (43_encode.md R151). -/
def State.stage (s : State) (bs : List Byte) : State :=
  { s with rbuf := Memory.writeFrom s.rbuf s.wlen bs, wlen := s.wlen + bs.length }

/-- `rkind <- NONE; rlen <- 0; wlen <- 0; terr <- 0`, as EBEGIN and DBEGIN do (43_encode.md R150; 44_decode.md R160). -/
def State.openResult (s : State) : State := { s with rkind := .none, rlen := 0, wlen := 0, terr := none }

/-- The END of an encode or decode (43_encode.md R152; 44_decode.md R162): commit the staged result, or report and clear
the latched error and leave no result; `phase` is READY either way. -/
def State.closeResult (s : State) (kind : RKind) : State :=
  match s.terr with
  | none => State.respondOk { s with rkind := kind, rlen := s.wlen, phase := .ready }
  | some e => State.raise { s with terr := none, rkind := .none, rlen := 0, phase := .ready } e.resp

end Sys2Proof.Machine
end

