-- ==== Sys2Proof/Machine/Decoder.lean ====
section
/-! DEFINITION. The decoder commands DBEGIN, DBIT, DEND (44_decode.md). They read NODE and never CODE (00_scope.md R3). -/

namespace Sys2Proof.Machine

open Sys2Proof

/-- `DBEGIN` (44_decode.md R160): the cursor starts at the root. -/
def execDbegin (s : State) : Outcome :=
  whenLegal .dbegin s (.next (State.respondOk { s.openResult with cur := s.root, phase := .dec }))

/-- `emit(x)` (R161): latch Capacity when the buffer is full, else stage the symbol; then go on with `k`. A write beyond
the space faults (20_memory.md R65; log 7). -/
def emit (x : Byte) (s : State) (k : State → Outcome) : Outcome :=
  if s.cfg.rbufCap = some s.wlen then k (s.latch .capacity)
  else if Config.within s.cfg.rbufCap (s.wlen + 1) then k (s.stage [x])
  else .fault (.noSuchByte s.wlen)

/-- The child a bit descends to: left on '0', right on '1' (R161). -/
def NodeEntry.child (n : NodeEntry) (b : Bool) : Nat := if b then n.right else n.left

/-- DBIT on a character, no error latched (R161): on a single-leaf tree '0' emits and '1' is InvalidBit (90_conflicts.md
C1); otherwise one edge down, and at a leaf emit its symbol and return to the root. -/
def descend (b : Bool) (s : State) : Outcome :=
  withNode s s.root fun r =>
    match r.kind with
    | .leaf =>
      if b then .next (State.respondOk (s.latch .invalidBit))
      else emit r.sym s fun t => .next t.respondOk
    | .internal =>
      withNode s s.cur fun n =>
        let c := n.child b
        withNode s c fun m =>
          match m.kind with
          | .leaf => emit m.sym { s with cur := c } fun t => .next (State.respondOk { t with cur := t.root })
          | .internal => .next (State.respondOk { s with cur := c })

/-- DBIT (R161): ignored while an error is latched; a byte that is no bit character latches InvalidBit before anything
else is looked at. -/
def dbitEffect (data : Byte) (s : State) : Outcome :=
  match s.terr with
  | some _ => .next s.respondOk
  | none =>
    match bitOfChar data with
    | none => .next (State.respondOk (s.latch .invalidBit))
    | some b => descend b s

/-- `DBIT ch` (44_decode.md R161). -/
def execDbit (data : Byte) (s : State) : Outcome := whenLegal (.dbit data) s (dbitEffect data s)

/-- The truncation test of DEND (R162): the first error, if none is latched and the cursor is not at the root. -/
def State.latchTruncated (s : State) : State := if s.cur = s.root then s else s.latch .truncatedCode

/-- `DEND` (44_decode.md R162). -/
def execDend (s : State) : Outcome := whenLegal .dend s (.next (s.latchTruncated.closeResult .syms))

end Sys2Proof.Machine
end

