-- ==== Sys2Proof/Machine/Encoder.lean ====
section
/-! DEFINITION. The encoder commands EBEGIN, ESYM, EEND (43_encode.md). They read CODE and never NODE (00_scope.md R3). -/

namespace Sys2Proof.Machine

open Sys2Proof

/-- `EBEGIN` (43_encode.md R150). -/
def execEbegin (s : State) : Outcome :=
  whenLegal .ebegin s (.next (State.respondOk { s.openResult with phase := .enc }))

/-- ESYM: look the code up and append it whole, or latch the first error (R151). -/
def esymEffect (data : Byte) (s : State) : State :=
  State.respondOk
    (match s.terr with
    | some _ => s
    | none =>
      let e := s.codeAt (symbolIndex data)
      if e.valid = false then s.latch .unknownSymbol
      else if Config.within s.cfg.rbufCap (s.wlen + e.len) then s.stage (e.path.map chr)
      else s.latch .capacity)

/-- `ESYM sym` (43_encode.md R151). -/
def execEsym (data : Byte) (s : State) : Outcome := whenLegal (.esym data) s (.next (esymEffect data s))

/-- `EEND` (43_encode.md R152). -/
def execEend (s : State) : Outcome := whenLegal .eend s (.next (s.closeResult .bits))

end Sys2Proof.Machine
end

