-- ==== Sys2Proof/Machine/FreqAnalyzer.lean ====
section
/-! DEFINITION. The Frequency Analyzer commands CBEGIN and CSYM (40_freq_analyzer.md). -/

namespace Sys2Proof.Machine

open Sys2Proof

/-- CBEGIN: clear FREQ and CODE, release the present codec, drop the result, open a construction (R110). -/
def cbeginEffect (s : State) : State :=
  State.respondOk
    { s with
      freq := Memory.fill Config.nsym 0, code := Memory.fill Config.nsym CodeEntry.absent
      ntotal := 0, ksyms := 0, nn := 0, root := 0, rkind := .none, rlen := 0, wlen := 0, terr := none
      phase := .count }

/-- `CBEGIN` (40_freq_analyzer.md R110). -/
def execCbegin (s : State) : Outcome := whenLegal .cbegin s (.next (cbeginEffect s))

/-- CSYM: count one symbol unless an error is latched; at `ntotal = N_MAX` latch Capacity and count nothing (R111). -/
def csymEffect (data : Byte) (s : State) : State :=
  State.respondOk
    (match s.terr with
    | some _ => s
    | none =>
      if s.cfg.nMax = some s.ntotal then s.latch .capacity
      else
        { s.setFreq (symbolIndex data) (s.freqAt (symbolIndex data) + 1) with ntotal := s.ntotal + 1 })

/-- `CSYM sym` (40_freq_analyzer.md R111). -/
def execCsym (data : Byte) (s : State) : Outcome := whenLegal (.csym data) s (.next (csymEffect data s))

end Sys2Proof.Machine
end

