-- ==== Sys2Proof/Machine/Lifecycle.lean ====
section
/-! DEFINITION. CLR (45_lifecycle.md R170) and the reset of the block (70_reset_and_hazards.md R230, R231). -/

namespace Sys2Proof.Machine

open Sys2Proof

/-- CLR: every register takes its reset value, the RAMs are not written (R170). -/
def clrEffect (s : State) : State :=
  State.respondOk
    { s with
      phase := .empty, rkind := .none, rlen := 0, ntotal := 0, ksyms := 0, nn := 0, root := 0, cur := 0
      wlen := 0, terr := none, pq := [], acc := 0, accLen := 0 }

/-- `CLR` (45_lifecycle.md R170): permitted in every phase. -/
def execClr (s : State) : Outcome := whenLegal .clr s (.next (clrEffect s))

/-- Reset: the registers of 10_state.md R55, RAM contents unspecified anew (70_reset_and_hazards.md R230), whatever the
block was doing (R231). The block's parameters and the host's further inputs are untouched. -/
def resetBlock (s : State) : State :=
  { State.reset with cfg := s.cfg, port := s.port, draws := s.draws, resets := s.resets + 1 }

end Sys2Proof.Machine
end

