-- ==== Sys2Proof/Machine/CodeTable.lean ====
section
/-! DEFINITION. The Code Table Generator: step WALK of CEND (42_code_table.md R140 to R142). -/

namespace Sys2Proof.Machine

open Sys2Proof

/-- `visit(i, a)` (R140): the left subtree before the right, each leaf's path recorded under its symbol. The first
argument bounds the depth; it is never used up, because a child's index is below its parent's (10_state.md R43;
log 9). -/
def visit (s : State) : Nat → Nat → List Bool → Memory CodeEntry → Memory CodeEntry
  | 0, _, _, table => table
  | depth + 1, i, a, table =>
    match (s.nodeAt i).kind with
    | .leaf => table.write (symbolIndex (s.nodeAt i).sym) (CodeEntry.ofPath a)
    | .internal =>
      visit s depth (s.nodeAt i).right (a ++ [true])
        (visit s depth (s.nodeAt i).left (a ++ [false]) table)

/-- Step WALK (R140): a root that is a Leaf gives its symbol the code "0" (R142); otherwise the tree is visited from the
root with the empty path. The walker's transient registers are left at free values (log 5). -/
def walk (s : State) : State :=
  { s with
    code :=
      match (s.nodeAt s.root).kind with
      | .leaf => s.code.write (symbolIndex (s.nodeAt s.root).sym) (CodeEntry.ofPath [false])
      | .internal => visit s Config.nodeMax s.root [] s.code
    acc := Config.walkAcc s.draws
    accLen := Config.walkAccLen s.draws
    draws := s.draws + 1 }

end Sys2Proof.Machine
end

