-- ==== Sys2Proof/Machine/TreeBuilder.lean ====
section
/-! DEFINITION. The Tree Builder: CEND and its steps SEED, EXTRACT_MIN, MERGE, FINISH (41_tree_builder.md). The steps
take the tie-break as an argument, so that the reference instance `TIE_REF` (R125) can be run beside the block's own,
which is a free value (R123). -/

namespace Sys2Proof.Machine

open Sys2Proof

/-- `pq ∪ {i}`: the set kept ascending without repeats (10_state.md R33). -/
def pqInsert (i : Nat) : List Nat → List Nat
  | [] => [i]
  | j :: rest => if i < j then i :: j :: rest else if i = j then j :: rest else j :: pqInsert i rest

/-- The keys of the Frequency Map in ascending symbol order: the `s` with `FREQ[s] > 0` (R121). -/
def State.keys (s : State) : List Nat := (List.range Config.nsym).filter fun x => 0 < s.freqAt x

/-- SEED for one key: allocate its Leaf and push it (R121). -/
def seedLeaf (s : State) (x : Nat) : State :=
  { s.setNode s.nn { kind := .leaf, weight := s.freqAt x, sym := BitVec.ofNat 8 x, left := 0, right := 0 } with
    pq := pqInsert s.nn s.pq, nn := s.nn + 1 }

/-- Step SEED (R121): "one Leaf per Frequency Map entry, all pushed into the priority structure". -/
def seed (s : State) : State :=
  let t := s.keys.foldl seedLeaf s
  { t with ksyms := t.nn }

/-- The least weight among node indices: `min { NODE[i].weight : i ∈ pq }` (R123). -/
def leastWeight (s : State) : List Nat → Nat
  | [] => 0
  | [i] => (s.nodeAt i).weight
  | i :: j :: rest => min (s.nodeAt i).weight (leastWeight s (j :: rest))

/-- The candidates `{ i ∈ pq : NODE[i].weight = m }`, ascending (R123). -/
def candidates (s : State) : List Nat :=
  let m := leastWeight s s.pq
  s.pq.filter fun i => (s.nodeAt i).weight = m

/-- `choose x ∈ C` by a draw (00_scope.md R12): a single candidate is determined, of several any may be taken. -/
def chooseBy (draw : Nat) : List Nat → Nat
  | [] => 0
  | [x] => x
  | x :: y :: rest => (x :: y :: rest).getD (draw % (x :: y :: rest).length) x

/-- Step EXTRACT_MIN (R123): the index removed, and the state without it and with its draw taken. -/
def extractMin (tie : Config.TieBreak) (s : State) : Nat × State :=
  let x := chooseBy (tie s.draws) (candidates s)
  (x, { s with pq := s.pq.erase x, draws := s.draws + 1 })

/-- Step MERGE (R124): the first node removed is the left child, the second the right. -/
def merge (tie : Config.TieBreak) (s : State) : State :=
  let l := extractMin tie s
  let r := extractMin tie l.2
  let t := r.2
  { t.setNode t.nn
      { kind := .internal, weight := (t.nodeAt l.1).weight + (t.nodeAt r.1).weight, sym := 0, left := l.1, right := r.1 }
    with pq := pqInsert t.nn t.pq, nn := t.nn + 1 }

/-- `while |pq| > 1 do MERGE` (R120) as its number of passes: `|pq|` falls by exactly one with each (R122), so the loop
runs `|pq| − 1` times (R127; log 9). -/
def mergeTimes (tie : Config.TieBreak) : Nat → State → State
  | 0, s => s
  | n + 1, s => mergeTimes tie n (merge tie s)

/-- Step FINISH (R126): the root is the one element of `pq`. -/
def finish (s : State) : State := { s with root := s.pq.headD 0, pq := [] }

/-- The successful branch of CEND: SEED, the MERGE loop, FINISH, WALK, `phase <- READY`, OK (R120). -/
def buildCodec (tie : Config.TieBreak) (s : State) : State :=
  let seeded := seed s
  let merged := mergeTimes tie (seeded.pq.length - 1) seeded
  State.respondOk { walk (finish merged) with phase := .ready }

/-- CEND under a tie-break (R120). The two faults stand for failed entry conditions of its steps (log 8). -/
def cendWith (tie : Config.TieBreak) (s : State) : Outcome :=
  match s.terr with
  | some e => .next (State.raise { s with terr := none, phase := .empty } e.resp)
  | none =>
    if s.ntotal = 0 then .next (State.raise { s with phase := .empty } .emptyInput)
    else if s.nn ≠ 0 ∨ s.pq ≠ [] then .fault .seedNotFresh
    else if s.keys = [] then .fault .noRoot
    else .next (buildCodec tie s)

/-- `CEND` (41_tree_builder.md R120), under the block's own tie-break. -/
def execCend (s : State) : Outcome := whenLegal .cend s (cendWith Config.tieDraw s)

end Sys2Proof.Machine
end

