-- ==== Sys2Proof/Machine/Dispatch.lean ====
section
/-! DEFINITION. exec: one arm per command of 30_encoding.md R93, each one call of that command's meaning. -/

namespace Sys2Proof.Machine

open Sys2Proof

def exec (i : Instr) (s : State) : Host.Outcome State Fault Refusal :=
  match i with
  -- 45_lifecycle.md
  | .clr => Sys2Proof.Machine.execClr s
  -- 40_freq_analyzer.md
  | .cbegin => Sys2Proof.Machine.execCbegin s
  | .csym data => Sys2Proof.Machine.execCsym data s
  -- 41_tree_builder.md, 42_code_table.md
  | .cend => Sys2Proof.Machine.execCend s
  -- 43_encode.md
  | .ebegin => Sys2Proof.Machine.execEbegin s
  | .esym data => Sys2Proof.Machine.execEsym data s
  | .eend => Sys2Proof.Machine.execEend s
  -- 44_decode.md
  | .dbegin => Sys2Proof.Machine.execDbegin s
  | .dbit data => Sys2Proof.Machine.execDbit data s
  | .dend => Sys2Proof.Machine.execDend s

end Sys2Proof.Machine
end

