-- ==== Sys2Proof/Machine/Ports.lean ====
section
/-! DEFINITION. What the host sees and does: the status port (30_encoding.md R100) with the registers' numeric codes, the
result port (R101; 20_memory.md R70), and taking the next event of the command port (R90, R102). -/

namespace Sys2Proof.Machine

open Sys2Proof

/-- The code of `phase` (10_state.md R24). -/
def Phase.code : Phase → BitVec 3
  | .empty => 0
  | .count => 1
  | .ready => 2
  | .enc => 3
  | .dec => 4

/-- The code of `resp` (10_state.md R25). -/
def Resp.code : Resp → BitVec 4
  | .ok => 0
  | .emptyInput => 1
  | .unknownSymbol => 2
  | .invalidBit => 3
  | .truncatedCode => 4
  | .badCommand => 5
  | .badSequence => 6
  | .capacity => 7

/-- The code of `rkind` (10_state.md R26). -/
def RKind.code : RKind → BitVec 2
  | .none => 0
  | .bits => 1
  | .syms => 2

/-- The code of the hidden register `terr` (10_state.md R28). -/
def State.terrCode (s : State) : BitVec 4 :=
  match s.terr with
  | none => 0
  | some e => e.resp.code

/-- The status port `phase[2:0]`, `resp[3:0]`, `rkind[1:0]`, `rlen[31:0]` (30_encoding.md R100). -/
structure Status where
  phase : BitVec 3
  resp : BitVec 4
  rkind : BitVec 2
  rlen : BitVec 32
deriving DecidableEq, Repr

/-- What the status port drives (30_encoding.md R100). -/
def State.status (s : State) : Status :=
  { phase := s.phase.code, resp := s.resp.code, rkind := s.rkind.code, rlen := BitVec.ofNat 32 s.rlen }

/-- The result port: `rdata` at a presented `raddr` (20_memory.md R70; 30_encoding.md R101); no side effect (R67). -/
def State.rdata (s : State) (raddr : BitVec 32) : Byte :=
  if raddr.toNat < s.rlen then s.rbufAt raddr.toNat else 0x00#8

/-- The result: `RBUF[0 .. rlen − 1]` (00_scope.md R14; 10_state.md R27). -/
def State.result (s : State) : List Byte := (List.range s.rlen).map s.rbufAt

/-- What the command port holds for the next step. -/
inductive PortInput where
  /-- No word is presented: the block is idle (60_exceptions.md R221). -/
  | idle
  /-- Reset is asserted (30_encoding.md R102). -/
  | reset (s : State)
  /-- A word is accepted (30_encoding.md R90). -/
  | accepted (w : Word) (s : State)
deriving DecidableEq, Repr

/-- Takes the next event of the command port, in the host's order (30_encoding.md R90). -/
def State.takeInput (s : State) : PortInput :=
  match s.port with
  | [] => .idle
  | .reset :: rest => .reset { s with port := rest }
  | .word w :: rest => .accepted w { s with port := rest }

end Sys2Proof.Machine
end

