-- ==== Sys2Proof/Machine/Step.lean ====
section
/-! DEFINITION. One step: one accepted word, executed to completion (30_encoding.md R90, R94), one reset (R102), or
nothing when the host presents nothing (60_exceptions.md R221). -/

namespace Sys2Proof.Machine

open Sys2Proof

/-- The step of the block (30_encoding.md R90, R94): a word that decodes is executed; every other word is answered
BadCommand and changes nothing else (R95; 60_exceptions.md R205). -/
def step (s : State) : Host.Outcome State Fault Refusal :=
  match s.takeInput with
  | .idle => .next s
  | .reset t => .next (resetBlock t)
  | .accepted w t =>
    match decode w with
    | .ok i => exec i t
    | .error _ => .next (t.raise .badCommand)

/-- The state in which the host presents the word `w` next: the front of the command port (log 1). The block loads no
program; a program is the host's sequence of words. -/
def State.withFetchWord (s : State) (nbits w : Nat) : State :=
  { s with port := .word (BitVec.ofNat 16 (w % 2 ^ nbits)) :: s.port }

end Sys2Proof.Machine
end

