-- ==== Sys2Proof/Machine/Asm.lean ====
section
/-! DEFINITION. The text form of a command stream (30_encoding.md R97, R98): reading one line and assembling it. There is
no toolchain in the source; what R97 leaves open about spacing is fixed here (log 14). -/

namespace Sys2Proof.Machine

open Sys2Proof

/-- The name of a mnemonic, in upper case (30_encoding.md R93, R97). -/
def mnemonicName : Mnemonic → List Char
  | .clr => ['C', 'L', 'R']
  | .cbegin => ['C', 'B', 'E', 'G', 'I', 'N']
  | .csym => ['C', 'S', 'Y', 'M']
  | .cend => ['C', 'E', 'N', 'D']
  | .ebegin => ['E', 'B', 'E', 'G', 'I', 'N']
  | .esym => ['E', 'S', 'Y', 'M']
  | .eend => ['E', 'E', 'N', 'D']
  | .dbegin => ['D', 'B', 'E', 'G', 'I', 'N']
  | .dbit => ['D', 'B', 'I', 'T']
  | .dend => ['D', 'E', 'N', 'D']

/-- The mnemonics in opcode order (30_encoding.md R93). -/
def allMnemonics : List Mnemonic := [.clr, .cbegin, .csym, .cend, .ebegin, .esym, .eend, .dbegin, .dbit, .dend]

/-- The operation code of a mnemonic (30_encoding.md R93). -/
def mnemonicOpcode : Mnemonic → Nat
  | .clr => 0x1
  | .cbegin => 0x2
  | .csym => 0x3
  | .cend => 0x4
  | .ebegin => 0x5
  | .esym => 0x6
  | .eend => 0x7
  | .dbegin => 0x8
  | .dbit => 0x9
  | .dend => 0xA

/-- The word a line assembles to, `(op << 12) | data` with `rsv = 0`; an ill-formed line assembles to none (R97). -/
def assemble (l : AsmLine) : Option Word :=
  if l.wellFormed then
    some ((BitVec.ofNat 16 (mnemonicOpcode l.mnemonic) <<< 12)
      ||| BitVec.ofNat 16 ((l.operand.map AsmOperand.value).getD 0))
  else none

/-- ASCII codes the reader looks for (00_scope.md R9). -/
abbrev asciiSpace : Nat := 0x20
abbrev asciiQuote : Nat := 0x27
abbrev asciiDoubleQuote : Nat := 0x22
abbrev asciiSemicolon : Nat := 0x3B
abbrev asciiBackslash : Nat := 0x5C

/-- The value of a hexadecimal digit. -/
def hexDigit (c : Char) : Option Nat :=
  if 0x30 ≤ c.toNat ∧ c.toNat ≤ 0x39 then some (c.toNat - 0x30)
  else if 0x41 ≤ c.toNat ∧ c.toNat ≤ 0x46 then some (c.toNat - 0x41 + 10)
  else if 0x61 ≤ c.toNat ∧ c.toNat ≤ 0x66 then some (c.toNat - 0x61 + 10)
  else none

/-- Reads decimal digits from the front, with the number read so far. -/
def readDecimal : Nat → List Char → Nat × List Char
  | n, [] => (n, [])
  | n, c :: rest =>
    if 0x30 ≤ c.toNat ∧ c.toNat ≤ 0x39 then readDecimal (10 * n + (c.toNat - 0x30)) rest else (n, c :: rest)

/-- Drops spaces from the front. -/
def dropSpaces (text : List Char) : List Char := text.dropWhile fun c => c.toNat = asciiSpace

/-- The end of a line: spaces, and a comment that `;` starts (R97). -/
def isLineEnd (text : List Char) : Bool :=
  match dropSpaces text with
  | [] => true
  | c :: _ => c.toNat = asciiSemicolon

/-- Reads an operand from the front: `0xHH`, a decimal number, or a character in single quotes (R97). DESIGN CHOICE (log
14): a `;` or a single quote between single quotes is that character; it starts no comment and closes nothing. -/
def readOperand (text : List Char) : Option (AsmOperand × List Char) :=
  match text with
  | [] => none
  | c :: rest =>
    if c.toNat = asciiQuote then
      match rest with
      | x :: q :: rest' => if q.toNat = asciiQuote then some (.quoted x, rest') else none
      | _ => none
    else
      match c.toNat, rest with
      | 0x30, x :: h :: l :: rest' =>
        if x.toNat = 0x78 then
          match hexDigit h, hexDigit l with
          | some a, some b => some (.hex (16 * a + b), rest')
          | _, _ => none
        else some (.decimal (readDecimal 0 text).1, (readDecimal 0 text).2)
      | _, _ =>
        if 0x30 ≤ c.toNat ∧ c.toNat ≤ 0x39 then some (.decimal (readDecimal 0 text).1, (readDecimal 0 text).2) else none

/-- Reads one command of a line: the mnemonic, then an operand for those that take one (R97). -/
def readLine (text : List Char) : Option AsmLine :=
  let name := (dropSpaces text).takeWhile fun c => 0x41 ≤ c.toNat ∧ c.toNat ≤ 0x5A
  let rest := (dropSpaces text).dropWhile fun c => 0x41 ≤ c.toNat ∧ c.toNat ≤ 0x5A
  match allMnemonics.find? fun m => mnemonicName m = name with
  | none => none
  | some m =>
    if m.takesOperand then
      match rest with
      | [] => none
      | c :: _ =>
        if c.toNat = asciiSpace then
          match readOperand (dropSpaces rest) with
          | some (o, rest') => if isLineEnd rest' then some { mnemonic := m, operand := some o } else none
          | none => none
        else none
    else if isLineEnd rest then some { mnemonic := m, operand := none } else none

/-- Assembles one line of text; none for a line that holds no well-formed command (R97). -/
def assembleText (text : List Char) : Option Word := (readLine text).bind assemble

/-- Reads the bytes of a double-quoted operand after its opening quote: printable characters and `\xHH` (R98). DESIGN
CHOICE (log 14): a `;` between double quotes is that character and starts no comment; a `"` always closes; a backslash
always starts `\xHH`. -/
def readQuoted : List Char → Option (List Byte × List Char)
  | [] => none
  | c :: rest =>
    if c.toNat = asciiDoubleQuote then some ([], rest)
    else if c.toNat = asciiBackslash then
      match rest with
      | x :: h :: l :: rest' =>
        if x.toNat = 0x78 then
          match hexDigit h, hexDigit l, readQuoted rest' with
          | some a, some b, some (bytes, tail) => some (BitVec.ofNat 8 (16 * a + b) :: bytes, tail)
          | _, _, _ => none
        else none
      | _ => none
    else if 0x20 ≤ c.toNat ∧ c.toNat ≤ 0x7E then
      match readQuoted rest with
      | some (bytes, tail) => some (BitVec.ofNat 8 c.toNat :: bytes, tail)
      | none => none
    else none

/-- Reads one macro-operation line: its name and a double-quoted operand that may be empty (R98). DESIGN CHOICE (log 14):
any number of spaces, none included, may stand between the two, and a comment may follow. -/
def readMacro (text : List Char) : Option Macro :=
  let name := (dropSpaces text).takeWhile fun c => 0x41 ≤ c.toNat ∧ c.toNat ≤ 0x5A
  let rest := (dropSpaces text).dropWhile fun c => 0x41 ≤ c.toNat ∧ c.toNat ≤ 0x5A
  match dropSpaces rest with
  | [] => none
  | c :: body =>
    if c.toNat = asciiDoubleQuote then
      match readQuoted body with
      | some (bytes, tail) =>
        if isLineEnd tail = false then none
        else if name = ['C', 'O', 'N', 'S', 'T', 'R', 'U', 'C', 'T'] then some (.construct bytes)
        else if name = ['E', 'N', 'C', 'O', 'D', 'E'] then some (.encode bytes)
        else if name = ['D', 'E', 'C', 'O', 'D', 'E'] then some (.decode bytes)
        else none
      | none => none
    else none

end Sys2Proof.Machine
end

