-- ==== Sys2Proof/Machine/Macros.lean ====
section
/-! DEFINITION. The macro-operations CONSTRUCT, ENCODE, DECODE (30_encoding.md R98; 46_macro_ops.md R175 to R177): their
expansions, and what a run of commands does. A macro-operation has no encoding of its own. -/

namespace Sys2Proof.Machine

open Sys2Proof

/-- The expansion of a macro-operation (30_encoding.md R98). -/
def expand : Macro → List Instr
  | .construct operand => .cbegin :: (operand.map .csym ++ [.cend])
  | .encode operand => .ebegin :: (operand.map .esym ++ [.eend])
  | .decode operand => .dbegin :: (operand.map .dbit ++ [.dend])

/-- The command words of a macro-operation (30_encoding.md R93, R98). -/
def macroWords (m : Macro) : List Word := (expand m).map encode

/-- Runs commands one after another, each to completion before the next (20_memory.md R75), to the first stop. -/
def runCommands : List Instr → State → Outcome
  | [], s => .next s
  | i :: rest, s =>
    match exec i s with
    | .next t => runCommands rest t
    | .fault r => .fault r
    | .refused r => .refused r

/-- The outcome of a macro-operation issued as one operation (46_macro_ops.md R178): where its BEGIN is refused, the outcome
is that refusal and nothing else changes; otherwise its commands run. DESIGN CHOICE (log 15): the host looks at the response
to BEGIN and sends nothing after a refusal. -/
def issueMacro (m : Macro) (s : State) : Outcome :=
  match expand m with
  | [] => .next s
  | first :: rest =>
    match exec first s with
    | .next t => if t.resp = .badSequence then .next t else runCommands rest t
    | .fault r => .fault r
    | .refused r => .refused r

/-- Runs the bare command stream of a macro-operation, each command executed as its own rule says, whatever the response to
the one before it (30_encoding.md R98; 46_macro_ops.md section 1; log 15). -/
def runMacro (m : Macro) (s : State) : Outcome := runCommands (expand m) s

/-- The host presents words: they are taken after what it had already presented (30_encoding.md R90). -/
def State.present (s : State) (ws : List Word) : State := { s with port := s.port ++ ws.map .word }

end Sys2Proof.Machine
end

