-- ==== Sys2Proof/Safety.lean ====
section
/-! DEFINITION. The terms claims use: the invariants of 10_state.md section 6 (R40 to R52), what a codec is, what a path in
the tree is, and the tables of 45_lifecycle.md R171 and 60_exceptions.md R208. Each clause is decidable on a state. -/

namespace Sys2Proof.Safety

open Sys2Proof Sys2Proof.Machine

/-- The four RAMs are in canonical form. -/
abbrev Canonical (s : State) : Prop :=
  s.freq.wf ∧ s.node.wf ∧ s.code.wf ∧ Memory.wf s.rbuf

/-- No RAM lists an index its space does not have (20_memory.md R60, R65). -/
abbrev InRange (s : State) : Prop :=
  (∀ e ∈ s.freq, e.1 < Config.nsym) ∧ (∀ e ∈ s.node, e.1 < Config.nodeMax) ∧ (∀ e ∈ s.code, e.1 < Config.nsym)
    ∧ (∀ c ∈ s.cfg.rbufCap, ∀ e ∈ s.rbuf, e.1 < c)

/-- The kinds the latch can hold in a phase: only the operation's own data commands set it (10_state.md R30;
60_exceptions.md R202, R203, R207). -/
def latchable : Phase → List Latched
  | .empty => []
  | .count => [.capacity]
  | .ready => []
  | .enc => [.unknownSymbol, .capacity]
  | .dec => [.invalidBit, .capacity]

/-- What holds of the sequencing and result registers between commands (10_state.md R26, R27, R30, R33, R49). -/
structure Sequencing (s : State) : Prop where
  /-- `pq` is empty before and after every command (R33). -/
  pqEmpty : s.pq = []
  /-- `rlen ≤ RBUF_CAP` (R49). -/
  rlenWithin : Config.within s.cfg.rbufCap s.rlen
  /-- `wlen ≤ RBUF_CAP` (R49). -/
  wlenWithin : Config.within s.cfg.rbufCap s.wlen
  /-- `rkind = NONE ⇒ rlen = 0` (R49). -/
  noneEmpty : s.rkind = .none → s.rlen = 0
  /-- Only READY holds a result (R26, R49). -/
  resultOnlyReady : s.phase ≠ .ready → s.rkind = .none
  /-- The latch holds only what the open operation can latch (R30). -/
  latchFits : ∀ e ∈ s.terr, e ∈ latchable s.phase

/-- `Σ_s FREQ[s]` (10_state.md R41). -/
def freqTotal (s : State) : Nat := ((List.range Config.nsym).map s.freqAt).sum

/-- The Frequency Map: every entry written, its counts summing to `ntotal ≤ N_MAX` (10_state.md R41, R51). -/
structure MapOk (s : State) : Prop where
  written : ∀ x < Config.nsym, (s.freq.read x).isSome
  total : freqTotal s = s.ntotal
  bounded : Config.within s.cfg.nMax s.ntotal

/-- What holds while a construction is open (10_state.md R40; 41_tree_builder.md R121; 42_code_table.md R140). -/
structure Counting (s : State) : Prop where
  map : MapOk s
  fresh : s.nn = 0
  blank : ∀ x < Config.nsym, s.code.read x = some CodeEntry.absent

/-- The entry the Leaf of the key `x` holds (10_state.md R43). -/
def leafOf (s : State) (x : Nat) : NodeEntry :=
  { kind := .leaf, weight := s.freqAt x, sym := BitVec.ofNat 8 x, left := 0, right := 0 }

/-- What holds of an Internal entry `i` (10_state.md R32, R42, R43, R44). -/
structure InternalOk (s : State) (i : Nat) : Prop where
  kind : (s.nodeAt i).kind = .internal
  noSym : (s.nodeAt i).sym = 0
  leftBelow : (s.nodeAt i).left < i
  rightBelow : (s.nodeAt i).right < i
  distinct : (s.nodeAt i).left ≠ (s.nodeAt i).right
  weightSum : (s.nodeAt i).weight = (s.nodeAt (s.nodeAt i).left).weight + (s.nodeAt (s.nodeAt i).right).weight
  leftLighter : (s.nodeAt (s.nodeAt i).left).weight ≤ (s.nodeAt (s.nodeAt i).right).weight

/-- The Internal entries below `nn` that have `i` as a child (10_state.md R42). -/
def parents (s : State) (i : Nat) : List Nat :=
  (List.range s.nn).filter fun p =>
    (s.nodeAt p).kind = .internal ∧ ((s.nodeAt p).left = i ∨ (s.nodeAt p).right = i)

/-- The tree in NODE (10_state.md R42 to R44). -/
structure TreeOk (s : State) : Prop where
  /-- `ksyms` is K, the number of keys, and K ≥ 1 (R41). -/
  ksymsKeys : s.ksyms = s.keys.length
  ksymsPos : 1 ≤ s.ksyms
  /-- `nn = 2K − 1`, `root = nn − 1` (R43). -/
  nodeCount : s.nn = 2 * s.ksyms - 1
  rootLast : s.root = s.nn - 1
  /-- Every allocated entry was written (R51). -/
  written : ∀ i < s.nn, (s.node.read i).isSome
  /-- The Leaves, in ascending order of symbol (R43). -/
  leaves : ∀ i < s.ksyms, s.nodeAt i = leafOf s (s.keys.getD i 0)
  /-- The Internal nodes (R42, R43, R44). -/
  internals : ∀ i < s.nn, s.ksyms ≤ i → InternalOk s i
  /-- Every node but the root is a child of exactly one Internal node, and the root of none (R42). -/
  singleParent : ∀ i < s.nn, (parents s i).length = if i = s.root then 0 else 1
  /-- Internal nodes are created in non-decreasing order of weight (R44). -/
  weightOrder : ∀ i < s.nn, s.ksyms ≤ i → i + 1 < s.nn → (s.nodeAt i).weight ≤ (s.nodeAt (i + 1)).weight

/-- The node reached from `i` along edge labels, 0 left and 1 right; none where a Leaf would have to be left
(00_scope.md R13 "Code"). -/
def descendPath (s : State) : Nat → List Bool → Option Nat
  | i, [] => some i
  | i, b :: rest =>
    match (s.nodeAt i).kind with
    | .leaf => none
    | .internal => descendPath s ((s.nodeAt i).child b) rest

/-- HUF's Tree (10_state.md R36): a Leaf with a symbol and a weight, or an Internal node with a weight and two children. -/
inductive Tree where
  | leaf (sym : Byte) (weight : Nat)
  | internal (weight : Nat) (left right : Tree)
deriving DecidableEq, Repr

/-- The tree below a node, to a depth that the order of indices makes enough (10_state.md R36; log 9). -/
def treeTo (s : State) : Nat → Nat → Tree
  | 0, i => .leaf (s.nodeAt i).sym (s.nodeAt i).weight
  | depth + 1, i =>
    match (s.nodeAt i).kind with
    | .leaf => .leaf (s.nodeAt i).sym (s.nodeAt i).weight
    | .internal => .internal (s.nodeAt i).weight (treeTo s depth (s.nodeAt i).left) (treeTo s depth (s.nodeAt i).right)

/-- `tree_of(i)` (10_state.md R36). -/
abbrev treeOf (s : State) (i : Nat) : Tree := treeTo s Config.nodeMax i

/-- The code of a symbol: its entry's bit sequence (46_macro_ops.md, notation `code(s)`). -/
def codeOf (s : State) (x : Byte) : List Bool := (s.codeAt x.toNat).path

/-- The CODE entry of `x` is right (10_state.md R45): not valid for a symbol that is no key; for a key, the path from the
root to its Leaf, or the code "0" when K = 1. -/
structure CodeOk (s : State) (x : Nat) : Prop where
  written : (s.code.read x).isSome
  absent : s.freqAt x = 0 → s.codeAt x = CodeEntry.absent
  entry : s.freqAt x ≠ 0 → s.codeAt x = CodeEntry.ofPath (s.codeAt x).path
  single : s.freqAt x ≠ 0 → s.ksyms = 1 → (s.codeAt x).path = [false]
  path : s.freqAt x ≠ 0 → s.ksyms ≠ 1 →
    ∃ i < s.ksyms, descendPath s s.root (s.codeAt x).path = some i ∧ (s.nodeAt i).sym = BitVec.ofNat 8 x

/-- A constructed codec and the map it was built from (10_state.md R40 to R45). -/
structure CodecOk (s : State) : Prop where
  map : MapOk s
  positive : 1 ≤ s.ntotal
  tree : TreeOk s
  code : ∀ x < Config.nsym, CodeOk s x

/-- The phases in which a codec exists (00_scope.md R14). -/
abbrev HasCodec (s : State) : Prop := s.phase = .ready ∨ s.phase = .enc ∨ s.phase = .dec

/-- The first `n` result bytes are written boundary characters (10_state.md R49, R51). -/
abbrev BitsBelow (s : State) (n : Nat) : Prop :=
  ∀ a < n, (Memory.read s.rbuf a).isSome ∧ (s.rbufAt a = Config.ch0 ∨ s.rbufAt a = Config.ch1)

/-- The first `n` result bytes are written symbols with a code (10_state.md R49, R51). -/
abbrev SymsBelow (s : State) (n : Nat) : Prop :=
  ∀ a < n, (Memory.read s.rbuf a).isSome ∧ (s.codeAt (s.rbufAt a).toNat).valid = true

/-- The decode cursor (10_state.md R48): at the root when K = 1, else at an allocated Internal node. -/
abbrev CursorOk (s : State) : Prop :=
  s.cur < s.nn ∧ (s.ksyms = 1 → s.cur = s.root) ∧ (s.ksyms ≠ 1 → (s.nodeAt s.cur).kind = .internal)

/-- The invariants of 10_state.md section 6, which hold between commands. -/
structure Inv (s : State) : Prop where
  cfg : s.cfg.wf
  canonical : Canonical s
  inRange : InRange s
  sequencing : Sequencing s
  counting : s.phase = .count → Counting s
  codec : HasCodec s → CodecOk s
  staged : s.phase = .enc → BitsBelow s s.wlen
  emitted : s.phase = .dec → SymsBelow s s.wlen
  cursor : s.phase = .dec → CursorOk s
  bits : s.rkind = .bits → BitsBelow s s.rlen
  syms : s.rkind = .syms → SymsBelow s s.rlen

/-- The codec and the map are the same in two states (10_state.md R50). -/
abbrev SameCodec (s t : State) : Prop :=
  t.freq = s.freq ∧ t.ntotal = s.ntotal ∧ t.node = s.node ∧ t.nn = s.nn ∧ t.ksyms = s.ksyms ∧ t.root = s.root
    ∧ t.code = s.code

/-- The responses a command can give (60_exceptions.md R208). -/
def responses : Instr → List Resp
  | .clr => [.ok]
  | .cbegin => [.ok, .badSequence]
  | .csym _ => [.ok, .badSequence]
  | .cend => [.ok, .emptyInput, .badSequence, .capacity]
  | .ebegin => [.ok, .badSequence]
  | .esym _ => [.ok, .badSequence]
  | .eend => [.ok, .unknownSymbol, .badSequence, .capacity]
  | .dbegin => [.ok, .badSequence]
  | .dbit _ => [.ok, .badSequence]
  | .dend => [.ok, .invalidBit, .truncatedCode, .badSequence, .capacity]

/-- The phase machine (45_lifecycle.md R171): the phase and the response after a command, from the phase before it and the
conditions of the table's rows. -/
def transition (s : State) : Instr → Phase × Resp
  | .clr => (.empty, .ok)
  | .cbegin =>
    match s.phase with
    | .empty => (.count, .ok)
    | .ready => (.count, .ok)
    | p => (p, .badSequence)
  | .csym _ =>
    match s.phase with
    | .count => (.count, .ok)
    | p => (p, .badSequence)
  | .cend =>
    match s.phase with
    | .count =>
      if s.terr ≠ none then (.empty, .capacity) else if s.ntotal = 0 then (.empty, .emptyInput) else (.ready, .ok)
    | p => (p, .badSequence)
  | .ebegin =>
    match s.phase with
    | .ready => (.enc, .ok)
    | p => (p, .badSequence)
  | .esym _ =>
    match s.phase with
    | .enc => (.enc, .ok)
    | p => (p, .badSequence)
  | .eend =>
    match s.phase with
    | .enc =>
      match s.terr with
      | none => (.ready, .ok)
      | some e => (.ready, e.resp)
    | p => (p, .badSequence)
  | .dbegin =>
    match s.phase with
    | .ready => (.dec, .ok)
    | p => (p, .badSequence)
  | .dbit _ =>
    match s.phase with
    | .dec => (.dec, .ok)
    | p => (p, .badSequence)
  | .dend =>
    match s.phase with
    | .dec =>
      match s.terr with
      | none => if s.cur = s.root then (.ready, .ok) else (.ready, .truncatedCode)
      | some e => (.ready, e.resp)
    | p => (p, .badSequence)

/-- The bits of the encoding of a symbol sequence: the codes in order (43_encode.md R153). -/
def encodeBits (s : State) (operand : List Byte) : List Bool := operand.flatMap (codeOf s)

/-- A symbol is a key of the codec (10_state.md R45). -/
abbrev IsKey (s : State) (x : Byte) : Prop := (s.codeAt x.toNat).valid = true

/-- `u` of 43_encode.md R153: the least index of the operand whose symbol is no key; its length if there is none. -/
def firstUnknown (s : State) (operand : List Byte) : Nat :=
  operand.findIdx fun x => !(s.codeAt x.toNat).valid

/-- The staged length when the element at index `c` has been encoded: `Σ_{j ≤ c} |code(sj)|` (R153). -/
def encodedLength (s : State) (operand : List Byte) (c : Nat) : Nat :=
  ((operand.take (c + 1)).map fun x => (s.codeAt x.toNat).len).sum

/-- `c` of 43_encode.md R153: the least index below `u` at which the result would exceed RBUF_CAP; none if there is
none. -/
def firstOverflow (s : State) (operand : List Byte) : Option Nat :=
  (List.range (firstUnknown s operand)).find? fun c =>
    decide (¬ Config.within s.cfg.rbufCap (encodedLength s operand c))

/-- A command of the open decode emits the symbol `x` and leaves the cursor at `cursor` (44_decode.md R161 `emit`): a full
buffer latches Capacity, else `x` is staged at `wlen` and every other result byte is as before; nothing else changes. -/
def EmitsSymbol (s : State) (answer : Outcome) (x : Byte) (cursor : Nat) : Prop :=
  (s.cfg.rbufCap = some s.wlen →
      answer = .next { s with cur := cursor, terr := some .capacity, resp := .ok })
    ∧ (s.cfg.rbufCap ≠ some s.wlen → Config.within s.cfg.rbufCap (s.wlen + 1) →
      ∃ t, answer = .next t ∧ t.rbufAt s.wlen = x ∧ (∀ a, a ≠ s.wlen → t.rbufAt a = s.rbufAt a)
        ∧ t = { s with rbuf := t.rbuf, wlen := s.wlen + 1, cur := cursor, resp := .ok })

/-- The operation that ended in `t` reported `r` and left no result (60_exceptions.md R212). -/
abbrev NoResult (t : State) (r : Resp) : Prop := t.resp = r ∧ t.rkind = .none ∧ t.rlen = 0

end Sys2Proof.Safety
end

