-- ==== Sys2Proof/Certificates/Slice0/Obligations.lean ====
section
/-! DEFINITION. The statements for the provers, from the numbered rules of spec/. OBLIGATIONS.json gives each its rule. -/

open Sys2Proof Sys2Proof.Machine Sys2Proof.Safety

/-! ## Encoding and decoding (30_encoding.md) -/

/-- R93: a word is the command iff `w & mask = match`; the operand is bits 7:0. -/
def Obligations.TenPatternsDecodeToTheirCommands : Prop :=
  ∀ w : Word,
    (decode w = .ok .clr ↔ w &&& 0xFFFF#16 = 0x1000#16)
      ∧ (decode w = .ok .cbegin ↔ w &&& 0xFFFF#16 = 0x2000#16)
      ∧ (∀ d : Byte, decode w = .ok (.csym d) ↔ w &&& 0xFF00#16 = 0x3000#16 ∧ d = w.setWidth 8)
      ∧ (decode w = .ok .cend ↔ w &&& 0xFFFF#16 = 0x4000#16)
      ∧ (decode w = .ok .ebegin ↔ w &&& 0xFFFF#16 = 0x5000#16)
      ∧ (∀ d : Byte, decode w = .ok (.esym d) ↔ w &&& 0xFF00#16 = 0x6000#16 ∧ d = w.setWidth 8)
      ∧ (decode w = .ok .eend ↔ w &&& 0xFFFF#16 = 0x7000#16)
      ∧ (decode w = .ok .dbegin ↔ w &&& 0xFFFF#16 = 0x8000#16)
      ∧ (∀ d : Byte, decode w = .ok (.dbit d) ↔ w &&& 0xFF00#16 = 0x9000#16 ∧ d = w.setWidth 8)
      ∧ (decode w = .ok .dend ↔ w &&& 0xFFFF#16 = 0xA000#16)

/-- R91, R93, R97: decoding and encoding are inverse: every command survives its word, and every word that decodes is the
word of its command. -/
def Obligations.DecodeInvertsEncode : Prop :=
  ∀ (w : Word) (i : Instr), decode w = .ok i ↔ w = encode i

/-- Words written out from the patterns of R93. -/
def Obligations.SampleWordsDecode : Prop :=
  decode 0b0001000000000000#16 = .ok .clr ∧ decode 0b0010000000000000#16 = .ok .cbegin
    ∧ decode 0b0011000001100001#16 = .ok (.csym 0x61#8) ∧ decode 0b0100000000000000#16 = .ok .cend
    ∧ decode 0b0101000000000000#16 = .ok .ebegin ∧ decode 0b0110000001110111#16 = .ok (.esym 0x77#8)
    ∧ decode 0b0111000000000000#16 = .ok .eend ∧ decode 0b1000000000000000#16 = .ok .dbegin
    ∧ decode 0b1001000000110001#16 = .ok (.dbit 0x31#8) ∧ decode 0b1010000000000000#16 = .ok .dend

/-- R94, R205, R206: the four checks in their order; a word that fails one changes nothing but `resp` (and is taken from
the port). -/
def Obligations.WordsAreCheckedInOrder : Prop :=
  ∀ (s : State) (op rsv : BitVec 4) (data : Byte) (rest : List PortEvent),
    s.port = .word (op ++ rsv ++ data) :: rest →
    ((op = 0 ∨ 0xB ≤ op.toNat) →
        decode (op ++ rsv ++ data) = .error .undefinedOp
          ∧ step s = .next { s with port := rest, resp := .badCommand })
      ∧ (op ≠ 0 → op.toNat ≤ 0xA → rsv ≠ 0 →
        decode (op ++ rsv ++ data) = .error .reservedNotZero
          ∧ step s = .next { s with port := rest, resp := .badCommand })
      ∧ (op ≠ 0 → op.toNat ≤ 0xA → rsv = 0 → op ≠ 0x3 → op ≠ 0x6 → op ≠ 0x9 → data ≠ 0 →
        decode (op ++ rsv ++ data) = .error .dataNotZero
          ∧ step s = .next { s with port := rest, resp := .badCommand })
      ∧ (op ≠ 0 → op.toNat ≤ 0xA → rsv = 0 → (op = 0x3 ∨ op = 0x6 ∨ op = 0x9 ∨ data = 0) →
        ∃ i, decode (op ++ rsv ++ data) = .ok i
          ∧ (s.phase ∉ legalPhases i → step s = .next { s with port := rest, resp := .badSequence })
          ∧ (s.phase ∈ legalPhases i → step s = exec i { s with port := rest }))

/-- R95: of the 65536 words, 775 are defined commands. -/
def Obligations.DefinedWordsNumber775 : Prop :=
  ((List.range 65536).filter fun n => (decodeTableWord 16 n).isSome).length = 775

/-- R90, R221: an accepted word that decodes is executed; with nothing presented the state stays. -/
def Obligations.StepRunsTheAcceptedCommand : Prop :=
  (∀ (s : State) (w : Word) (rest : List PortEvent) (i : Instr),
      s.port = .word w :: rest → decode w = .ok i → i.wellFormed = true ∧ step s = exec i { s with port := rest })
    ∧ (∀ (s : State) (i : Instr), step (s.withFetchWord 16 (encode i).toNat) = exec i s)
    ∧ (∀ s : State, s.port = [] → step s = .next s)

/-- R206 with the table of R24: a command in a phase that does not list it answers BadSequence and nothing else; a listed
one never answers BadSequence. -/
def Obligations.OnlyListedCommandsExecuteInAPhase : Prop :=
  ∀ (s : State) (i : Instr),
    let listed : Prop :=
      match s.phase with
      | .empty => i = .clr ∨ i = .cbegin
      | .count => i = .clr ∨ (∃ d, i = .csym d) ∨ i = .cend
      | .ready => i = .clr ∨ i = .cbegin ∨ i = .ebegin ∨ i = .dbegin
      | .enc => i = .clr ∨ (∃ d, i = .esym d) ∨ i = .eend
      | .dec => i = .clr ∨ (∃ d, i = .dbit d) ∨ i = .dend
    (¬ listed → exec i s = .next { s with resp := .badSequence })
      ∧ (listed → ∀ t, exec i s = .next t → t.resp ≠ .badSequence)

/-- R97: a line assembles to the word of its command. -/
def Obligations.AssembledLineIsTheEncodedCommand : Prop :=
  assemble { mnemonic := .clr, operand := none } = some (encode .clr)
    ∧ assemble { mnemonic := .cbegin, operand := none } = some (encode .cbegin)
    ∧ (∀ d : Byte, assemble { mnemonic := .csym, operand := some (.hex d.toNat) } = some (encode (.csym d)))
    ∧ assemble { mnemonic := .cend, operand := none } = some (encode .cend)
    ∧ assemble { mnemonic := .ebegin, operand := none } = some (encode .ebegin)
    ∧ (∀ d : Byte, assemble { mnemonic := .esym, operand := some (.decimal d.toNat) } = some (encode (.esym d)))
    ∧ assemble { mnemonic := .eend, operand := none } = some (encode .eend)
    ∧ assemble { mnemonic := .dbegin, operand := none } = some (encode .dbegin)
    ∧ (∀ d : Byte, assemble { mnemonic := .dbit, operand := some (.hex d.toNat) } = some (encode (.dbit d)))
    ∧ assemble { mnemonic := .dend, operand := none } = some (encode .dend)

/-- R98: the words of the three macro-operations. -/
def Obligations.MacroWordsFollowTheirExpansion : Prop :=
  ∀ operand : List Byte,
    macroWords (.construct operand)
        = 0x2000#16 :: ((operand.map fun x => 0x3000#16 ||| x.setWidth 16) ++ [0x4000#16])
      ∧ macroWords (.encode operand)
        = 0x5000#16 :: ((operand.map fun x => 0x6000#16 ||| x.setWidth 16) ++ [0x7000#16])
      ∧ macroWords (.decode operand)
        = 0x8000#16 :: ((operand.map fun x => 0x9000#16 ||| x.setWidth 16) ++ [0xA000#16])

/-- R75, R90: presenting the words of a command sequence and stepping once for each word does what executing the commands
in order does. -/
def Obligations.StepsRunTheCommandsInOrder : Prop :=
  ∀ (commands : List Instr) (s : State) (rest : List PortEvent),
    Host.Core.run core commands.length { s with port := commands.map (fun i => .word (encode i)) ++ rest }
      = runCommands commands { s with port := rest }

/-! ## Reset and release (70_reset_and_hazards.md, 45_lifecycle.md) -/

/-- R55, R230, R231: from every state a reset gives every register its reset value; the RAMs hold no value. The MODEL's
choice, no rule of the spec: the parameters and the rest of the port are kept (log 1, 2). -/
def Obligations.ResetGivesEveryRegisterItsResetValue : Prop :=
  ∀ (s : State) (rest : List PortEvent), s.port = .reset :: rest →
    ∃ t, step s = .next t ∧ t.phase = .empty ∧ t.resp = .ok ∧ t.rkind = .none ∧ t.rlen = 0 ∧ t.ntotal = 0
      ∧ t.ksyms = 0 ∧ t.nn = 0 ∧ t.root = 0 ∧ t.cur = 0 ∧ t.wlen = 0 ∧ t.terr = none ∧ t.pq = [] ∧ t.acc = 0
      ∧ t.accLen = 0 ∧ (∀ i, t.freq.read i = none ∧ t.node.read i = none ∧ t.code.read i = none
        ∧ Memory.read t.rbuf i = none)
      ∧ t.port = rest ∧ t.cfg = s.cfg

/-- R170: CLR, permitted in every phase: every register its reset value, the RAMs not written; and (d) the registers are
those a reset leaves. -/
def Obligations.ClrReleasesTheCodec : Prop :=
  encode .clr = 0x1000#16
    ∧ ∀ s : State,
      exec .clr s = .next
        { s with
          phase := .empty, rkind := .none, rlen := 0, ntotal := 0, ksyms := 0, nn := 0, root := 0, cur := 0
          wlen := 0, terr := none, pq := [], acc := 0, accLen := 0, resp := .ok }
        ∧ exec .clr s = .next
          { resetBlock s with
            freq := s.freq, node := s.node, code := s.code, rbuf := s.rbuf, resets := s.resets }

/-! ## Frequency Analyzer (40_freq_analyzer.md) -/

/-- R110: CBEGIN, its phases, what it writes and what it leaves. -/
def Obligations.CbeginOpensAConstruction : Prop :=
  encode .cbegin = 0x2000#16
    ∧ ∀ s : State,
      (s.phase = .empty ∨ s.phase = .ready →
        ∃ t, exec .cbegin s = .next t
          ∧ (∀ x < 256, t.freqAt x = 0)
          ∧ (∀ x < 256, t.codeAt x = { valid := false, len := 0, bits := 0 })
          ∧ t = { s with
              freq := t.freq, code := t.code, ntotal := 0, ksyms := 0, nn := 0, root := 0, rkind := .none, rlen := 0
              wlen := 0, terr := none, phase := .count, resp := .ok })
        ∧ (s.phase = .count ∨ s.phase = .enc ∨ s.phase = .dec →
          exec .cbegin s = .next { s with resp := .badSequence })

/-- R111: CSYM, its phase, the count, the capacity latch, and the ignored beat after a latched error. -/
def Obligations.CsymCountsOneSymbol : Prop :=
  ∀ (s : State) (x : Byte),
    encode (.csym x) = 0x3000#16 ||| x.setWidth 16
      ∧ (s.phase ≠ .count → exec (.csym x) s = .next { s with resp := .badSequence })
      ∧ (s.phase = .count → s.terr ≠ none → exec (.csym x) s = .next { s with resp := .ok })
      ∧ (s.phase = .count → s.terr = none → s.cfg.nMax = some s.ntotal →
        exec (.csym x) s = .next { s with terr := some .capacity, resp := .ok })
      ∧ (s.phase = .count → s.terr = none → s.cfg.nMax ≠ some s.ntotal →
        ∃ t, exec (.csym x) s = .next t
          ∧ t.freqAt x.toNat = s.freqAt x.toNat + 1
          ∧ (∀ y, y ≠ x.toNat → t.freqAt y = s.freqAt y)
          ∧ t = { s with freq := t.freq, ntotal := s.ntotal + 1, resp := .ok })

/-- R112: what a whole pass counts. -/
def Obligations.CountsOfASymbolSequence : Prop :=
  ∀ (s : State) (operand : List Byte), (s.phase = .empty ∨ s.phase = .ready) →
    Config.within s.cfg.nMax operand.length →
    ∃ t, runCommands (.cbegin :: operand.map .csym) s = .next t ∧ t.phase = .count ∧ t.resp = .ok ∧ t.terr = none
      ∧ t.ntotal = operand.length
      ∧ (∀ x : Byte, t.freqAt x.toNat = operand.count x)
      ∧ freqTotal t = operand.length
      ∧ (operand ≠ [] → ∃ x < 256, 0 < t.freqAt x)

/-! ## Tree Builder and Code Table Generator (41_tree_builder.md, 42_code_table.md) -/

/-- R201, R207 (a): a CEND that reports an error leaves no codec and changes nothing else. -/
def Obligations.CendRejectsWithoutACodec : Prop :=
  encode .cend = 0x4000#16
    ∧ ∀ s : State,
      (s.phase = .count → s.terr = none → s.ntotal = 0 →
        exec .cend s = .next { s with phase := .empty, resp := .emptyInput })
        ∧ (s.phase = .count → s.terr = some .capacity →
          exec .cend s = .next { s with terr := none, phase := .empty, resp := .capacity })
        ∧ (s.phase ≠ .count → exec .cend s = .next { s with resp := .badSequence })

/-- R120, R80: the successful CEND runs SEED, the merges, FINISH and WALK, in that order, under the block's tie-break. -/
def Obligations.CendRunsItsStepsInOrder : Prop :=
  ∀ s : State, s.phase = .count → s.terr = none → s.ntotal ≠ 0 → s.nn = 0 → s.pq = [] → s.keys ≠ [] →
    exec .cend s = .next
      { walk (finish (mergeTimes Config.tieDraw ((seed s).pq.length - 1) (seed s))) with phase := .ready, resp := .ok }

/-- R121: SEED allocates one Leaf for each key in ascending symbol order and pushes it. -/
def Obligations.SeedAllocatesTheLeaves : Prop :=
  ∀ s : State, s.nn = 0 → s.pq = [] →
    (seed s).ksyms = s.keys.length ∧ (seed s).nn = s.keys.length ∧ (seed s).pq = List.range s.keys.length
      ∧ s.keys.Pairwise (· < ·) ∧ (∀ x, x ∈ s.keys ↔ x < 256 ∧ 0 < s.freqAt x)
      ∧ (∀ i < s.keys.length, (seed s).nodeAt i =
          { kind := .leaf, weight := s.freqAt (s.keys.getD i 0), sym := BitVec.ofNat 8 (s.keys.getD i 0), left := 0
            right := 0 })
      ∧ (∀ i, s.keys.length ≤ i → (seed s).nodeAt i = s.nodeAt i)
      ∧ seed s = { s with node := (seed s).node, pq := (seed s).pq, nn := (seed s).nn, ksyms := (seed s).ksyms }

/-- R123: an extraction removes a node of minimum weight and only it; and every node of minimum weight is removed under
some tie-break. -/
def Obligations.ExtractMinRemovesAnyMinimum : Prop :=
  ∀ s : State, s.pq ≠ [] → s.pq.Pairwise (· < ·) →
    (∀ tie : Config.TieBreak,
        (extractMin tie s).1 ∈ s.pq
          ∧ (∀ i ∈ s.pq, (s.nodeAt (extractMin tie s).1).weight ≤ (s.nodeAt i).weight)
          ∧ (∀ i, i ∈ (extractMin tie s).2.pq ↔ i ∈ s.pq ∧ i ≠ (extractMin tie s).1)
          ∧ (extractMin tie s).2 = { s with pq := (extractMin tie s).2.pq, draws := (extractMin tie s).2.draws })
      ∧ (∀ x ∈ s.pq, (∀ i ∈ s.pq, (s.nodeAt x).weight ≤ (s.nodeAt i).weight) →
        ∃ tie : Config.TieBreak, (extractMin tie s).1 = x)

/-- R125: the reference tie-break takes the candidate with the lowest node index. -/
def Obligations.TieRefTakesTheLowestIndex : Prop :=
  ∀ s : State, s.pq ≠ [] → s.pq.Pairwise (· < ·) →
    (∀ i ∈ s.pq, (s.nodeAt (extractMin Config.tieRef s).1).weight ≤ (s.nodeAt i).weight)
      ∧ ∀ i ∈ s.pq, (∀ j ∈ s.pq, (s.nodeAt i).weight ≤ (s.nodeAt j).weight) → (extractMin Config.tieRef s).1 ≤ i

/-- R124: one MERGE: the two lightest nodes become the left and the right child of the new node. -/
def Obligations.MergeBuildsTheParent : Prop :=
  ∀ (tie : Config.TieBreak) (s : State), s.pq.Pairwise (· < ·) → 2 ≤ s.pq.length → (∀ i ∈ s.pq, i < s.nn) →
    ∃ l ∈ s.pq, ∃ r ∈ s.pq, l ≠ r
      ∧ (∀ i ∈ s.pq, (s.nodeAt l).weight ≤ (s.nodeAt i).weight)
      ∧ (∀ i ∈ s.pq, i ≠ l → (s.nodeAt r).weight ≤ (s.nodeAt i).weight)
      ∧ (merge tie s).nodeAt s.nn =
        { kind := .internal, weight := (s.nodeAt l).weight + (s.nodeAt r).weight, sym := 0, left := l, right := r }
      ∧ (∀ i, i ≠ s.nn → (merge tie s).nodeAt i = s.nodeAt i)
      ∧ (∀ i, i ∈ (merge tie s).pq ↔ i = s.nn ∨ (i ∈ s.pq ∧ i ≠ l ∧ i ≠ r))
      ∧ (merge tie s).pq.Pairwise (· < ·)
      ∧ merge tie s = { s with
          node := (merge tie s).node, pq := (merge tie s).pq, nn := s.nn + 1, draws := (merge tie s).draws }

/-- R122, R126, R127: before each of the `|pq| − 1` passes more than one node remains, `|pq|` falls by one with each, and
FINISH takes the one node left, the node allocated last. -/
def Obligations.MergeLoopLeavesTheRoot : Prop :=
  ∀ (tie : Config.TieBreak) (s : State), s.pq ≠ [] → s.pq.Pairwise (· < ·) → (∀ i ∈ s.pq, i < s.nn) →
    let last := mergeTimes tie (s.pq.length - 1) s
    (∀ n < s.pq.length, (mergeTimes tie n s).pq.length = s.pq.length - n)
      ∧ last.nn = s.nn + (s.pq.length - 1)
      ∧ (∃ r, last.pq = [r] ∧ (finish last).root = r ∧ (2 ≤ s.pq.length → r = last.nn - 1))
      ∧ (finish last).pq = []

/-- R142, R128: a root that is a Leaf gives its symbol the code "0", and no other entry is written. -/
def Obligations.SoleSymbolGetsCodeZero : Prop :=
  ∀ s : State, (s.nodeAt s.root).kind = .leaf →
    (walk s).codeAt (s.nodeAt s.root).sym.toNat = { valid := true, len := 1, bits := 0 }
      ∧ ∀ x, x ≠ (s.nodeAt s.root).sym.toNat → (walk s).codeAt x = s.codeAt x

/-- R140, R143: on a tree of two or more symbols and a blank table, WALK records for each key the path to its Leaf, and
leaves every other entry not valid. -/
def Obligations.WalkRecordsEveryPath : Prop :=
  ∀ s : State, TreeOk s → 2 ≤ s.ksyms → (∀ x < 256, s.code.read x = some CodeEntry.absent) →
    ∀ x < 256, CodeOk (walk s) x

/-- R120, R121, R127: a CEND after at least one counted symbol completes: a codec with K leaves, 2K − 1 nodes and the last
node as root, and what it leaves unchanged. What the walker leaves in `acc` and `acc_len` is free (log 5). -/
def Obligations.CendBuildsACodec : Prop :=
  ∀ s : State, s.phase = .count → s.terr = none → s.pq = [] → Counting s → 1 ≤ s.ntotal →
    ∃ t, exec .cend s = .next t ∧ t.phase = .ready ∧ t.resp = .ok ∧ t.ksyms = s.keys.length
      ∧ t.nn = 2 * s.keys.length - 1 ∧ t.root = t.nn - 1 ∧ t.pq = []
      ∧ (∀ x < 256, ((t.codeAt x).valid = true ↔ 0 < s.freqAt x))
      ∧ (∀ i, t.nn ≤ i → t.nodeAt i = s.nodeAt i)
      ∧ t = { s with
          phase := .ready, resp := .ok, ksyms := t.ksyms, nn := t.nn, root := t.root, node := t.node, code := t.code
          acc := t.acc, accLen := t.accLen, draws := t.draws }

/-- R129: whatever the tie-break, the construction ends in a codec that meets every invariant of 10_state.md R41 to R47. -/
def Obligations.EveryTieBreakBuildsAValidCodec : Prop :=
  ∀ (tie : Config.TieBreak) (s : State), Inv s → s.phase = .count → s.terr = none → 1 ≤ s.ntotal →
    ∃ t, cendWith tie s = .next t ∧ t.phase = .ready ∧ t.resp = .ok ∧ t.freq = s.freq ∧ t.ntotal = s.ntotal ∧ Inv t

/-! ## Encoder (43_encode.md) -/

/-- R150: EBEGIN. -/
def Obligations.EbeginOpensAnEncode : Prop :=
  encode .ebegin = 0x5000#16
    ∧ ∀ s : State,
      (s.phase = .ready → exec .ebegin s = .next
          { s with rkind := .none, rlen := 0, wlen := 0, terr := none, phase := .enc, resp := .ok })
        ∧ (s.phase ≠ .ready → exec .ebegin s = .next { s with resp := .badSequence })

/-- R151: ESYM: the ignored beat, the unknown symbol, the capacity, and the code appended whole at `wlen`. -/
def Obligations.EsymAppendsOneCode : Prop :=
  ∀ (s : State) (x : Byte),
    encode (.esym x) = 0x6000#16 ||| x.setWidth 16
      ∧ (s.phase ≠ .enc → exec (.esym x) s = .next { s with resp := .badSequence })
      ∧ (s.phase = .enc → s.terr ≠ none → exec (.esym x) s = .next { s with resp := .ok })
      ∧ (s.phase = .enc → s.terr = none → (s.codeAt x.toNat).valid = false →
        exec (.esym x) s = .next { s with terr := some .unknownSymbol, resp := .ok })
      ∧ (∀ c, s.phase = .enc → s.terr = none → (s.codeAt x.toNat).valid = true →
        s.cfg.rbufCap = some c → c < s.wlen + (s.codeAt x.toNat).len →
        exec (.esym x) s = .next { s with terr := some .capacity, resp := .ok })
      ∧ (s.phase = .enc → s.terr = none → (s.codeAt x.toNat).valid = true →
        Config.within s.cfg.rbufCap (s.wlen + (s.codeAt x.toNat).len) →
        ∃ t, exec (.esym x) s = .next t
          ∧ (∀ j < (s.codeAt x.toNat).len,
            t.rbufAt (s.wlen + j) = if (s.codeAt x.toNat).bits.getLsbD j then 0x31#8 else 0x30#8)
          ∧ (∀ a, a < s.wlen ∨ s.wlen + (s.codeAt x.toNat).len ≤ a → t.rbufAt a = s.rbufAt a)
          ∧ t = { s with rbuf := t.rbuf, wlen := s.wlen + (s.codeAt x.toNat).len, resp := .ok })

/-- R152: EEND. -/
def Obligations.EendCommitsOrReports : Prop :=
  encode .eend = 0x7000#16
    ∧ ∀ s : State,
      (s.phase ≠ .enc → exec .eend s = .next { s with resp := .badSequence })
        ∧ (s.phase = .enc → s.terr = none →
          exec .eend s = .next { s with rkind := .bits, rlen := s.wlen, phase := .ready, resp := .ok })
        ∧ (∀ e, s.phase = .enc → s.terr = some e →
          exec .eend s = .next { s with terr := none, rkind := .none, rlen := 0, phase := .ready, resp := e.resp })

/-! ## Decoder (44_decode.md) -/

/-- R160: DBEGIN. -/
def Obligations.DbeginOpensADecode : Prop :=
  encode .dbegin = 0x8000#16
    ∧ ∀ s : State,
      (s.phase = .ready → exec .dbegin s = .next
          { s with rkind := .none, rlen := 0, wlen := 0, terr := none, cur := s.root, phase := .dec, resp := .ok })
        ∧ (s.phase ≠ .ready → exec .dbegin s = .next { s with resp := .badSequence })

/-- R161: DBIT. An index below 511 is one the NODE space has (20_memory.md R60). -/
def Obligations.DbitTakesOneStepDownTheTree : Prop :=
  ∀ (s : State) (d : Byte),
    encode (.dbit d) = 0x9000#16 ||| d.setWidth 16
      ∧ (s.phase ≠ .dec → exec (.dbit d) s = .next { s with resp := .badSequence })
      ∧ (s.phase = .dec → s.terr ≠ none → exec (.dbit d) s = .next { s with resp := .ok })
      ∧ (s.phase = .dec → s.terr = none → d ≠ 0x30#8 → d ≠ 0x31#8 →
        exec (.dbit d) s = .next { s with terr := some .invalidBit, resp := .ok })
      ∧ (s.phase = .dec → s.terr = none → s.root < 511 → (s.nodeAt s.root).kind = .leaf →
        (d = 0x31#8 → exec (.dbit d) s = .next { s with terr := some .invalidBit, resp := .ok })
          ∧ (d = 0x30#8 → EmitsSymbol s (exec (.dbit d) s) (s.nodeAt s.root).sym s.cur))
      ∧ (∀ c, s.phase = .dec → s.terr = none → s.root < 511 → (s.nodeAt s.root).kind = .internal → s.cur < 511 →
        (d = 0x30#8 ∧ c = (s.nodeAt s.cur).left ∨ d = 0x31#8 ∧ c = (s.nodeAt s.cur).right) → c < 511 →
        ((s.nodeAt c).kind = .internal → exec (.dbit d) s = .next { s with cur := c, resp := .ok })
          ∧ ((s.nodeAt c).kind = .leaf → EmitsSymbol s (exec (.dbit d) s) (s.nodeAt c).sym s.root))

/-- R162: DEND. -/
def Obligations.DendCommitsOrReports : Prop :=
  encode .dend = 0xA000#16
    ∧ ∀ s : State,
      (s.phase ≠ .dec → exec .dend s = .next { s with resp := .badSequence })
        ∧ (s.phase = .dec → s.terr = none → s.cur = s.root →
          exec .dend s = .next { s with rkind := .syms, rlen := s.wlen, phase := .ready, resp := .ok })
        ∧ (s.phase = .dec → s.terr = none → s.cur ≠ s.root →
          exec .dend s = .next { s with rkind := .none, rlen := 0, phase := .ready, resp := .truncatedCode })
        ∧ (∀ e, s.phase = .dec → s.terr = some e →
          exec .dend s = .next { s with terr := none, rkind := .none, rlen := 0, phase := .ready, resp := e.resp })

/-! ## Errors and the phase machine (60_exceptions.md, 45_lifecycle.md) -/

/-- R211: once an error is latched, any number of further data commands changes nothing, and the END reports it. -/
def Obligations.LatchedErrorIsKeptToTheEnd : Prop :=
  ∀ (s : State) (e : Latched) (beats : List Byte), s.terr = some e →
    (s.phase = .count → runCommands (beats.map .csym ++ [.cend]) s
        = .next { s with terr := none, phase := .empty, resp := e.resp })
      ∧ (s.phase = .enc → runCommands (beats.map .esym ++ [.eend]) s
        = .next { s with terr := none, rkind := .none, rlen := 0, phase := .ready, resp := e.resp })
      ∧ (s.phase = .dec → runCommands (beats.map .dbit ++ [.dend]) s
        = .next { s with terr := none, rkind := .none, rlen := 0, phase := .ready, resp := e.resp })

/-- R171 with R208: every transition of `phase`, with its response; and a command's response is one its row of R208
lists. -/
def Obligations.PhaseMachineFollowsItsTable : Prop :=
  ∀ s : State, Inv s →
    ∃ t, step s = .next t
      ∧ match s.port with
        | [] => t = s
        | .reset :: _ => t.phase = .empty ∧ t.resp = .ok
        | .word w :: _ =>
          match decode w with
          | .error _ => t.phase = s.phase ∧ t.resp = .badCommand
          | .ok i => (t.phase, t.resp) = transition s i ∧ t.resp ∈ responses i

/-- The model's stops (log 7, 8; the model's choice, no rule of the spec): each stands for a state no run reaches, where an
index the space does not have would be used, or an entry condition of CEND's steps fails. -/
def Obligations.StopsStandForMissingEntries : Prop :=
  (∀ (s : State) (b : Bool), s.phase = .dec → s.terr = none →
      (511 ≤ s.root → exec (.dbit (chr b)) s = .fault (.noSuchNode s.root))
        ∧ (s.root < 511 → (s.nodeAt s.root).kind = .internal → 511 ≤ s.cur →
          exec (.dbit (chr b)) s = .fault (.noSuchNode s.cur))
        ∧ (s.root < 511 → (s.nodeAt s.root).kind = .internal → s.cur < 511 → 511 ≤ (s.nodeAt s.cur).child b →
          exec (.dbit (chr b)) s = .fault (.noSuchNode ((s.nodeAt s.cur).child b)))
        ∧ (∀ c, s.root < 511 → (s.nodeAt s.root).kind = .leaf → b = false → s.cfg.rbufCap = some c → c < s.wlen →
          exec (.dbit (chr b)) s = .fault (.noSuchByte s.wlen))
        ∧ (∀ c, s.root < 511 → (s.nodeAt s.root).kind = .internal → s.cur < 511 → (s.nodeAt s.cur).child b < 511 →
          (s.nodeAt ((s.nodeAt s.cur).child b)).kind = .leaf → s.cfg.rbufCap = some c → c < s.wlen →
          exec (.dbit (chr b)) s = .fault (.noSuchByte s.wlen)))
    ∧ ∀ s : State, s.phase = .count → s.terr = none → s.ntotal ≠ 0 →
      (s.nn ≠ 0 ∨ s.pq ≠ [] → exec .cend s = .fault .seedNotFresh)
        ∧ (s.nn = 0 → s.pq = [] → s.keys = [] → exec .cend s = .fault .noRoot)

/-- R7: with unbounded parameters Capacity never occurs: it is neither answered nor latched. -/
def Obligations.UnboundedBlockNeverReportsCapacity : Prop :=
  ∀ (s t : State) (i : Instr), s.cfg.weightW = none → s.cfg.rbufCap = none → s.terr ≠ some .capacity →
    exec i s = .next t → t.resp ≠ .capacity ∧ t.terr ≠ some .capacity

/-! ## The ports (30_encoding.md, 20_memory.md) -/

/-- R70: the result port; and while no result is committed it shows nothing, whatever is staged. -/
def Obligations.ResultPortShowsOnlyTheResult : Prop :=
  ∀ (s : State) (raddr : BitVec 32),
    (raddr.toNat < s.rlen → s.rdata raddr = s.rbufAt raddr.toNat)
      ∧ (s.rlen ≤ raddr.toNat → s.rdata raddr = 0x00#8)
      ∧ (Inv s → s.phase ≠ .ready ∨ s.rkind = .none → s.rdata raddr = 0x00#8)

/-- R24, R25, R26, R100: the codes the status port drives. -/
def Obligations.StatusPortDrivesTheCodes : Prop :=
  (Phase.empty.code = 0 ∧ Phase.count.code = 1 ∧ Phase.ready.code = 2 ∧ Phase.enc.code = 3 ∧ Phase.dec.code = 4)
    ∧ (Resp.ok.code = 0 ∧ Resp.emptyInput.code = 1 ∧ Resp.unknownSymbol.code = 2 ∧ Resp.invalidBit.code = 3
      ∧ Resp.truncatedCode.code = 4 ∧ Resp.badCommand.code = 5 ∧ Resp.badSequence.code = 6 ∧ Resp.capacity.code = 7)
    ∧ (RKind.none.code = 0 ∧ RKind.bits.code = 1 ∧ RKind.syms.code = 2)
    ∧ ∀ s : State, s.status.phase = s.phase.code ∧ s.status.resp = s.resp.code ∧ s.status.rkind = s.rkind.code
      ∧ (s.rlen < 2 ^ 32 → s.status.rlen.toNat = s.rlen)

/-! ## Invariants (10_state.md section 6) -/

/-- R40 to R49 hold after reset. -/
def Obligations.ResetMeetsTheInvariant : Prop := Inv State.reset

/-- R40 to R49: each step keeps the invariants, from every state that meets them. -/
def Obligations.StepKeepsTheInvariant : Prop :=
  ∀ s t : State, Inv s → step s = .next t → Inv t

/-- R51, R65, R246: from a state that meets the invariants no step stops: every command terminates with a response, and no
index outside a RAM is formed. -/
def Obligations.StepFromTheInvariantNeverStops : Prop :=
  ∀ s : State, Inv s → ∃ t, step s = .next t

/-- Each step keeps the RAMs' canonical form (the model's form of memory). -/
def Obligations.StepKeepsMemoriesCanonical : Prop :=
  ∀ s t : State, Canonical s → step s = .next t → Canonical t

/-- R26, R27, R30, R33, R49: each step keeps what holds of the result, sequencing and latch registers. -/
def Obligations.StepKeepsTheSequencingRegisters : Prop :=
  ∀ s t : State, Sequencing s → step s = .next t → Sequencing t

/-- R50: from READY, ENC or DEC no word other than CLR's, and CBEGIN's in READY, and no idle step, changes the codec or the
map. -/
def Obligations.CodecIsImmutable : Prop :=
  ∀ s t : State, HasCodec s → step s = .next t →
    (∀ rest, s.port ≠ .reset :: rest ∧ s.port ≠ .word 0x1000#16 :: rest
      ∧ (s.phase = .ready → s.port ≠ .word 0x2000#16 :: rest)) →
    SameCodec s t

/-- R3: encode commands do not read the tree or the map, decode commands do not read the code table or the map. -/
def Obligations.EncodeIgnoresTreeDecodeIgnoresCodeTable : Prop :=
  ∀ (s t : State) (d : Byte) (i : Instr) (freq : Memory Nat),
    exec i s = .next t →
    (i = .ebegin ∨ i = .esym d ∨ i = .eend →
      ∀ (node : Memory NodeEntry) (root nn ksyms ntotal : Nat),
        exec i { s with freq := freq, node := node, root := root, nn := nn, ksyms := ksyms, ntotal := ntotal }
          = .next { t with freq := freq, node := node, root := root, nn := nn, ksyms := ksyms, ntotal := ntotal })
      ∧ (i = .dbegin ∨ i = .dbit d ∨ i = .dend →
        ∀ (code : Memory CodeEntry) (nn ksyms ntotal : Nat),
          exec i { s with freq := freq, code := code, nn := nn, ksyms := ksyms, ntotal := ntotal }
            = .next { t with freq := freq, code := code, nn := nn, ksyms := ksyms, ntotal := ntotal })

/-- R47: no code is a prefix of another. -/
def Obligations.CodesArePrefixFree : Prop :=
  ∀ (s : State) (x y : Byte), Inv s → HasCodec s → IsKey s x → IsKey s y → x ≠ y → ¬ codeOf s x <+: codeOf s y

/-- R46: the bounds on a code's length. -/
def Obligations.CodeLengthIsBounded : Prop :=
  ∀ (s : State) (x : Byte), Inv s → HasCodec s → IsKey s x →
    (s.ksyms = 1 → (s.codeAt x.toNat).len = 1)
      ∧ (2 ≤ s.ksyms → 1 ≤ (s.codeAt x.toNat).len ∧ (s.codeAt x.toNat).len ≤ s.ksyms - 1 ∧ s.ksyms - 1 ≤ 255)

/-- R44: the root's weight is the length of the construction input. -/
def Obligations.RootWeightIsTheInputLength : Prop :=
  ∀ s : State, Inv s → HasCodec s → (s.nodeAt s.root).weight = s.ntotal

/-! ## The macro-operations and HUF's properties (46_macro_ops.md) -/

/-- R175: the outcomes of CONSTRUCT. -/
def Obligations.ConstructOutcome : Prop :=
  ∀ (s : State) (operand : List Byte), (s.phase = .empty ∨ s.phase = .ready) → s.pq = [] →
    ∃ t, runMacro (.construct operand) s = .next t ∧ t.rkind = .none ∧ t.rlen = 0
      ∧ (operand = [] → t.resp = .emptyInput ∧ t.phase = .empty)
      ∧ (¬ Config.within s.cfg.nMax operand.length → t.resp = .capacity ∧ t.phase = .empty)
      ∧ (operand ≠ [] → Config.within s.cfg.nMax operand.length →
        t.resp = .ok ∧ t.phase = .ready ∧ (∀ x : Byte, t.freqAt x.toNat = operand.count x) ∧ CodecOk t)

/-- R153, R176: the outcome of ENCODE, the error met by the earliest element reported; the codec unchanged. -/
def Obligations.EncodeOutcome : Prop :=
  ∀ (s : State) (operand : List Byte), s.phase = .ready →
    ∃ t, runMacro (.encode operand) s = .next t ∧ t.phase = .ready ∧ SameCodec s t
      ∧ ((firstOverflow s operand).isSome → NoResult t .capacity)
      ∧ (firstOverflow s operand = none → firstUnknown s operand < operand.length → NoResult t .unknownSymbol)
      ∧ (firstOverflow s operand = none → firstUnknown s operand = operand.length →
        t.resp = .ok ∧ t.rkind = .bits ∧ t.rlen = (encodeBits s operand).length
          ∧ t.result = (encodeBits s operand).map chr)

/-- R163, R164: a concatenation of codes decodes to its symbols; one symbol too many is Capacity. -/
def Obligations.ConcatenatedCodesDecodeToTheirSymbols : Prop :=
  ∀ (s : State) (symbols : List Byte), Inv s → s.phase = .ready → (∀ x ∈ symbols, IsKey s x) →
    ∃ t, runMacro (.decode ((encodeBits s symbols).map chr)) s = .next t ∧ t.phase = .ready ∧ SameCodec s t
      ∧ (Config.within s.cfg.rbufCap symbols.length → t.resp = .ok ∧ t.rkind = .syms ∧ t.result = symbols)
      ∧ (¬ Config.within s.cfg.rbufCap symbols.length → NoResult t .capacity)

/-- R164, R204: with two or more symbols every bit-string is a concatenation of codes and then nothing or a proper part of
a code; it decodes to the symbols in the first case and is TruncatedCode in the second. -/
def Obligations.EveryBitStringDecodesOrIsTruncated : Prop :=
  ∀ (s : State) (bits : List Bool), Inv s → s.phase = .ready → 2 ≤ s.ksyms →
    ∃ (symbols : List Byte) (tail : List Bool), bits = encodeBits s symbols ++ tail ∧ (∀ x ∈ symbols, IsKey s x)
      ∧ (tail = [] ∨ ∃ x, IsKey s x ∧ tail <+: codeOf s x ∧ tail ≠ codeOf s x)
      ∧ (Config.within s.cfg.rbufCap symbols.length →
        ∃ t, runMacro (.decode (bits.map chr)) s = .next t ∧ t.phase = .ready
          ∧ (tail = [] → t.resp = .ok ∧ t.rkind = .syms ∧ t.result = symbols)
          ∧ (tail ≠ [] → NoResult t .truncatedCode))

/-- R203, R210: a character that is no bit is InvalidBit whatever follows it, and so is a '1' when K = 1. -/
def Obligations.BadCharacterIsInvalidBit : Prop :=
  ∀ (s : State) (before : List Bool) (d : Byte) (after : List Byte), Inv s → s.phase = .ready →
    Config.within s.cfg.rbufCap before.length →
    (d ≠ 0x30#8 ∧ d ≠ 0x31#8 ∨ d = 0x31#8 ∧ s.ksyms = 1) →
    ∃ t, runMacro (.decode (before.map chr ++ d :: after)) s = .next t ∧ t.phase = .ready ∧ SameCodec s t
      ∧ NoResult t .invalidBit

/-- R180: the round trip, for every construction input and every sequence of its symbols, capacity permitting. -/
def Obligations.RoundTrip : Prop :=
  ∀ (s : State) (input operand : List Byte), Inv s → (s.phase = .empty ∨ s.phase = .ready) →
    input ≠ [] → Config.within s.cfg.nMax input.length → (∀ x ∈ operand, x ∈ input) →
    ∃ c, runMacro (.construct input) s = .next c ∧ c.resp = .ok
      ∧ (Config.within s.cfg.rbufCap (encodeBits c operand).length →
        ∃ e, runMacro (.encode operand) c = .next e ∧ e.resp = .ok ∧ e.rkind = .bits
          ∧ ∃ t, runMacro (.decode e.result) e = .next t ∧ t.resp = .ok ∧ t.rkind = .syms ∧ t.result = operand)

/-- R183: the length of the encoded construction input is the sum over symbols of frequency times code length. -/
def Obligations.FrequencyFaithfulness : Prop :=
  ∀ (s : State) (input : List Byte), Inv s → (s.phase = .empty ∨ s.phase = .ready) →
    input ≠ [] → Config.within s.cfg.nMax input.length →
    ∃ c, runMacro (.construct input) s = .next c ∧ c.resp = .ok
      ∧ (Config.within s.cfg.rbufCap (encodeBits c input).length →
        ∃ e, runMacro (.encode input) c = .next e ∧ e.resp = .ok
          ∧ e.rlen = ((List.range 256).map fun x => c.freqAt x * (c.codeAt x).len).sum
          ∧ (c.ksyms = 1 → e.rlen = input.length))

/-- R178: a macro-operation issued (`issueMacro`) when its precondition on `phase` (R175 to R177) does not hold answers
BadSequence and changes nothing else, in every phase; when it holds it is its command stream (`runMacro`). R178 of the bare
stream: where the phase permits none of its commands, all are refused. Last three clauses, the MODEL's choice (log 15,
DEDUCED from R94 with R24, against R178's own inference): a bare stream sent while the same operation is open has only its
first command refused. That the host stops at a refused BEGIN is the MODEL's choice too (log 15, DESIGN CHOICE). -/
def Obligations.MacroOutOfPhaseIsRefused : Prop :=
  ∀ (s : State) (operand : List Byte),
    (¬ (s.phase = .empty ∨ s.phase = .ready) →
        issueMacro (.construct operand) s = .next { s with resp := .badSequence })
      ∧ (s.phase ≠ .ready → issueMacro (.encode operand) s = .next { s with resp := .badSequence })
      ∧ (s.phase ≠ .ready → issueMacro (.decode operand) s = .next { s with resp := .badSequence })
      ∧ (s.phase = .empty ∨ s.phase = .ready → issueMacro (.construct operand) s = runMacro (.construct operand) s)
      ∧ (s.phase = .ready → issueMacro (.encode operand) s = runMacro (.encode operand) s)
      ∧ (s.phase = .ready → issueMacro (.decode operand) s = runMacro (.decode operand) s)
      ∧ (s.phase = .enc ∨ s.phase = .dec → runMacro (.construct operand) s = .next { s with resp := .badSequence })
      ∧ (s.phase = .empty ∨ s.phase = .count ∨ s.phase = .dec →
        runMacro (.encode operand) s = .next { s with resp := .badSequence })
      ∧ (s.phase = .empty ∨ s.phase = .count ∨ s.phase = .enc →
        runMacro (.decode operand) s = .next { s with resp := .badSequence })
      ∧ (s.phase = .count → runMacro (.construct operand) s
        = runCommands (operand.map .csym ++ [.cend]) { s with resp := .badSequence })
      ∧ (s.phase = .enc → runMacro (.encode operand) s
        = runCommands (operand.map .esym ++ [.eend]) { s with resp := .badSequence })
      ∧ (s.phase = .dec → runMacro (.decode operand) s
        = runCommands (operand.map .dbit ++ [.dend]) { s with resp := .badSequence })

/-- R186: ENCODE and DECODE from READY complete, come back to READY and leave the codec and the map as they were. -/
def Obligations.EncodeAndDecodeArePure : Prop :=
  ∀ (s : State) (operand : List Byte), Inv s → s.phase = .ready →
    (∃ t, runMacro (.encode operand) s = .next t ∧ t.phase = .ready ∧ SameCodec s t)
      ∧ (∃ t, runMacro (.decode operand) s = .next t ∧ t.phase = .ready ∧ SameCodec s t)

/-- R144: two codecs with equal trees (R36) have equal code tables, whatever node indices they use. -/
def Obligations.CodeTableIsAFunctionOfTheTree : Prop :=
  ∀ s t : State, CodecOk s → CodecOk t → treeOf s s.root = treeOf t t.root → ∀ x < 256, s.codeAt x = t.codeAt x

/-- R181, the part that rests on no general knowledge: two constructions from one input, in any two blocks, agree on the
map, on K, on the node count and on the root's weight. -/
def Obligations.ConstructionsOfOneInputAgree : Prop :=
  ∀ (s₁ s₂ : State) (input : List Byte), (s₁.phase = .empty ∨ s₁.phase = .ready) → (s₂.phase = .empty ∨ s₂.phase = .ready) →
    s₁.pq = [] → s₂.pq = [] → input ≠ [] →
    Config.within s₁.cfg.nMax input.length → Config.within s₂.cfg.nMax input.length →
    ∃ c₁ c₂, runMacro (.construct input) s₁ = .next c₁ ∧ runMacro (.construct input) s₂ = .next c₂
      ∧ (∀ x < 256, c₁.freqAt x = c₂.freqAt x) ∧ c₁.ksyms = c₂.ksyms ∧ c₁.nn = c₂.nn
      ∧ (c₁.nodeAt c₁.root).weight = (c₂.nodeAt c₂.root).weight

/-- R40, R51: in EMPTY the RAMs and the hidden registers hold nothing any command reads before rewriting it: whatever they
hold, no sequence of commands stops and none shows the host anything else. (`resets` selects the RAMs' free contents, log
4.) -/
def Obligations.ContentsInEmptyAreUnobservable : Prop :=
  ∀ (s t : State) (commands : List Instr), s.phase = .empty → s.rlen = 0 → s.pq = [] → s.terr = none →
    t = { s with
      freq := t.freq, node := t.node, code := t.code, rbuf := t.rbuf, resets := t.resets, ntotal := t.ntotal
      ksyms := t.ksyms, nn := t.nn, root := t.root, cur := t.cur, wlen := t.wlen, acc := t.acc, accLen := t.accLen } →
    ∃ u v, runCommands commands s = .next u ∧ runCommands commands t = .next v
      ∧ v.status = u.status ∧ v.result = u.result
end

