-- ==== Sys2Proof/Laws/Memory.lean ====
section
/-! SUPPORT. The laws of a RAM: a read after a write, the canonical form kept by every operation, and what filling and
writing a run of entries do. -/

namespace Sys2Proof.Laws

open Sys2Proof.Machine

variable {α : Type}

@[simp] theorem read_nil (i : Nat) : Memory.read ([] : Memory α) i = none := rfl

@[simp] theorem read_write_same (m : Memory α) (i : Nat) (v : α) : (m.write i v).read i = some v := by
  induction m with
  | nil => simp [Memory.write, Memory.read]
  | cons e rest ih =>
    obtain ⟨k, w⟩ := e
    simp only [Memory.write]
    split
    · simp [Memory.read]
    · split
      · simp [Memory.read]
      · simp [Memory.read, *]

theorem read_write_other (m : Memory α) {i j : Nat} (v : α) (h : j ≠ i) : (m.write i v).read j = m.read j := by
  induction m with
  | nil => simp [Memory.write, Memory.read, h]
  | cons e rest ih =>
    obtain ⟨k, w⟩ := e
    simp only [Memory.write]
    split
    · simp [Memory.read, h]
    · split
      · rename_i _ hik
        subst hik
        simp [Memory.read, h]
      · simp [Memory.read, ih]

theorem read_write (m : Memory α) (i j : Nat) (v : α) :
    (m.write i v).read j = if j = i then some v else m.read j := by
  split
  · subst j; simp
  · exact read_write_other m v ‹_›

/-- Every entry of a written memory is the new one or an old one. -/
theorem mem_write {m : Memory α} {i : Nat} {v : α} {e : Nat × α} (h : e ∈ m.write i v) : e = (i, v) ∨ e ∈ m := by
  induction m with
  | nil => simpa [Memory.write] using h
  | cons f rest ih =>
    obtain ⟨k, w⟩ := f
    simp only [Memory.write] at h
    split at h
    · simpa using h
    · split at h
      · rcases List.mem_cons.1 h with h | h
        · exact .inl h
        · exact .inr (List.mem_cons_of_mem _ h)
      · rcases List.mem_cons.1 h with h | h
        · exact .inr (h ▸ List.mem_cons_self)
        · exact (ih h).imp id (List.mem_cons_of_mem _)

theorem write_wf {m : Memory α} (h : m.wf) (i : Nat) (v : α) : (m.write i v).wf := by
  induction m with
  | nil => simp [Memory.write]
  | cons e rest ih =>
    obtain ⟨k, w⟩ := e
    have hk := List.pairwise_cons.1 h
    simp only [Memory.write]
    split
    · rename_i hlt
      refine List.pairwise_cons.2 ⟨fun f hf => ?_, h⟩
      rcases List.mem_cons.1 hf with rfl | hf
      · exact hlt
      · exact Nat.lt_trans hlt (hk.1 f hf)
    · split
      · rename_i _ heq
        subst heq
        exact List.pairwise_cons.2 ⟨hk.1, hk.2⟩
      · refine List.pairwise_cons.2 ⟨fun f hf => ?_, ih hk.2⟩
        rcases mem_write hf with rfl | hf
        · show k < i
          omega
        · exact hk.1 f hf

/-- A listed entry is what its index reads as. -/
theorem read_of_mem {m : Memory α} (h : m.wf) {e : Nat × α} (he : e ∈ m) : m.read e.1 = some e.2 := by
  induction m with
  | nil => cases he
  | cons f rest ih =>
    have hf := List.pairwise_cons.1 h
    rcases List.mem_cons.1 he with rfl | he
    · simp [Memory.read]
    · simp [Memory.read, (Nat.ne_of_lt (hf.1 e he)).symm, ih hf.2 he]

theorem mem_of_read {m : Memory α} {i : Nat} {v : α} (h : m.read i = some v) : (i, v) ∈ m := by
  induction m with
  | nil => cases h
  | cons f rest ih =>
    obtain ⟨k, w⟩ := f
    simp only [Memory.read] at h
    split at h
    · rename_i hik
      cases h
      subst hik
      exact List.mem_cons_self
    · exact List.mem_cons_of_mem _ (ih h)

/-- Two canonical memories that read alike are the same data. -/
theorem wf_ext {m n : Memory α} (hm : m.wf) (hn : n.wf) (h : ∀ i, m.read i = n.read i) : m = n := by
  have perm : ∀ e, e ∈ m ↔ e ∈ n := fun e =>
    ⟨fun he => mem_of_read (h e.1 ▸ read_of_mem hm he), fun he => mem_of_read ((h e.1).symm ▸ read_of_mem hn he)⟩
  have nodup : ∀ {l : Memory α}, l.wf → l.Nodup := fun hl =>
    List.Pairwise.imp (fun {a b} (hlt : a.1 < b.1) (heq : a = b) => by subst heq; exact Nat.lt_irrefl _ hlt) hl
  exact ((List.perm_ext_iff_of_nodup (nodup hm) (nodup hn)).2 perm).eq_of_pairwise
    (fun a b _ _ hab hba => absurd hab (Nat.lt_asymm hba)) hm hn

theorem fill_wf (n : Nat) (v : α) : (Memory.fill n v).wf := by
  simp only [Memory.wf, Memory.fill, List.pairwise_map]
  exact List.pairwise_lt_range

theorem mem_fill {n : Nat} {v : α} {e : Nat × α} (h : e ∈ Memory.fill n v) : e.1 < n ∧ e.2 = v := by
  simp only [Memory.fill, List.mem_map, List.mem_range] at h
  obtain ⟨i, hi, rfl⟩ := h
  exact ⟨hi, rfl⟩

theorem read_fill {n i : Nat} (v : α) (h : i < n) : (Memory.fill n v).read i = some v :=
  read_of_mem (e := (i, v)) (fill_wf n v) (by simp [Memory.fill, h])

theorem read_fill_beyond {n i : Nat} (v : α) (h : n ≤ i) : (Memory.fill n v).read i = none := by
  cases hr : (Memory.fill n v).read i with
  | none => rfl
  | some w => exact absurd (mem_fill (mem_of_read hr)).1 (Nat.not_lt.2 h)

theorem writeFrom_wf {m : Memory α} (h : m.wf) (a : Nat) (vs : List α) : (m.writeFrom a vs).wf := by
  induction vs generalizing m a with
  | nil => exact h
  | cons v vs ih => exact ih (write_wf h a v) (a + 1)

theorem mem_writeFrom {m : Memory α} {a : Nat} {vs : List α} {e : Nat × α} (h : e ∈ m.writeFrom a vs) :
    e ∈ m ∨ a ≤ e.1 ∧ e.1 < a + vs.length := by
  induction vs generalizing m a with
  | nil => exact .inl h
  | cons v vs ih =>
    rcases ih h with h | ⟨h1, h2⟩
    · rcases mem_write h with rfl | h
      · exact .inr ⟨Nat.le_refl _, by simp⟩
      · exact .inl h
    · exact .inr ⟨by omega, by simp only [List.length_cons]; omega⟩

/-- Writing a run of entries leaves every index outside the run. -/
theorem read_writeFrom_outside (m : Memory α) {a i : Nat} (vs : List α) (h : i < a ∨ a + vs.length ≤ i) :
    (m.writeFrom a vs).read i = m.read i := by
  induction vs generalizing m a with
  | nil => rfl
  | cons v vs ih =>
    simp only [List.length_cons] at h
    rw [Memory.writeFrom, ih _ (by omega), read_write_other _ _ (by omega)]

/-- Writing a run of entries puts the j-th value at the j-th index of the run. -/
theorem read_writeFrom_inside (m : Memory α) (a : Nat) {j : Nat} (vs : List α) (h : j < vs.length) :
    (m.writeFrom a vs).read (a + j) = vs[j]? := by
  induction vs generalizing m a j with
  | nil => cases h
  | cons v vs ih =>
    cases j with
    | zero => rw [Memory.writeFrom, read_writeFrom_outside _ _ (by omega)]; simp
    | succ j =>
      have h' : j < vs.length := by simpa using h
      have := ih (m.write a v) (a + 1) h'
      rw [Memory.writeFrom, show a + (j + 1) = a + 1 + j by omega, this]
      simp

theorem writeFrom_append (m : Memory α) (a : Nat) (us vs : List α) :
    m.writeFrom a (us ++ vs) = (m.writeFrom a us).writeFrom (a + us.length) vs := by
  induction us generalizing m a with
  | nil => simp [Memory.writeFrom]
  | cons u us ih =>
    simp only [List.cons_append, Memory.writeFrom, ih, List.length_cons]
    rw [show a + 1 + us.length = a + (us.length + 1) by omega]

end Sys2Proof.Laws
end

