-- ==== Sys2Proof/Laws/Operands.lean ====
section
/-! SUPPORT. The laws of the operand forms: a path survives being held as a CODE entry, and a bit its boundary byte. -/

namespace Sys2Proof.Laws

open Sys2Proof Sys2Proof.Machine

/-- `bits[j] = a[j]` below `|a|`, 0 beyond (42_code_table.md R140). -/
theorem getLsbD_bitsOfPath {a : List Bool} {j : Nat} (h : j < 255) : (bitsOfPath a).getLsbD j = a.getD j false := by
  simp [bitsOfPath, h, BitVec.getLsbD_ofBoolListLE]

@[simp] theorem ofPath_len (a : List Bool) : (CodeEntry.ofPath a).len = a.length := rfl
@[simp] theorem ofPath_valid (a : List Bool) : (CodeEntry.ofPath a).valid = true := rfl
@[simp] theorem ofPath_bits (a : List Bool) : (CodeEntry.ofPath a).bits = bitsOfPath a := rfl
@[simp] theorem absent_valid : CodeEntry.absent.valid = false := rfl
@[simp] theorem absent_len : CodeEntry.absent.len = 0 := rfl
@[simp] theorem path_length (e : CodeEntry) : e.path.length = e.len := by simp [CodeEntry.path]

/-- A path of at most 255 labels is read back whole from its entry. -/
theorem path_ofPath {a : List Bool} (h : a.length ≤ 255) : (CodeEntry.ofPath a).path = a := by
  apply List.ext_getElem
  · simp
  · intro j h1 h2
    simp only [CodeEntry.path, ofPath_len, ofPath_bits, List.getElem_map, List.getElem_range]
    rw [getLsbD_bitsOfPath (by omega)]
    simp [h2]

@[simp] theorem bitOfChar_chr (b : Bool) : bitOfChar (chr b) = some b := by cases b <;> decide

theorem chr_eq_ch (b : Bool) : chr b = Config.ch0 ∨ chr b = Config.ch1 := by cases b <;> simp [chr]

theorem chr_inj {a b : Bool} (h : chr a = chr b) : a = b := by
  have := congrArg bitOfChar h
  simpa using this

/-- The characters DBIT takes as bits are the two boundary bytes (30_encoding.md R92). -/
theorem bitOfChar_eq_some {d : Byte} {b : Bool} : bitOfChar d = some b ↔ d = chr b := by
  constructor
  · intro h
    unfold bitOfChar at h
    split at h
    · cases h; assumption
    · split at h
      · cases h; assumption
      · cases h
  · rintro rfl; simp

theorem bitOfChar_eq_none {d : Byte} : bitOfChar d = none ↔ d ≠ Config.ch0 ∧ d ≠ Config.ch1 := by
  unfold bitOfChar
  split
  · simp [*]
  · split <;> simp [*]

end Sys2Proof.Laws
end

