-- ==== Sys2Proof/Laws/State.lean ====
section
/-! SUPPORT. One lemma per field of State per named update: what the update does to the field. -/

namespace Sys2Proof.Laws

open Sys2Proof Sys2Proof.Machine

@[simp] theorem respondOk_phase (s : State) : s.respondOk.phase = s.phase := rfl
@[simp] theorem respondOk_resp (s : State) : s.respondOk.resp = .ok := rfl
@[simp] theorem respondOk_rkind (s : State) : s.respondOk.rkind = s.rkind := rfl
@[simp] theorem respondOk_rlen (s : State) : s.respondOk.rlen = s.rlen := rfl
@[simp] theorem respondOk_ntotal (s : State) : s.respondOk.ntotal = s.ntotal := rfl
@[simp] theorem respondOk_ksyms (s : State) : s.respondOk.ksyms = s.ksyms := rfl
@[simp] theorem respondOk_nn (s : State) : s.respondOk.nn = s.nn := rfl
@[simp] theorem respondOk_root (s : State) : s.respondOk.root = s.root := rfl
@[simp] theorem respondOk_cur (s : State) : s.respondOk.cur = s.cur := rfl
@[simp] theorem respondOk_wlen (s : State) : s.respondOk.wlen = s.wlen := rfl
@[simp] theorem respondOk_terr (s : State) : s.respondOk.terr = s.terr := rfl
@[simp] theorem respondOk_pq (s : State) : s.respondOk.pq = s.pq := rfl
@[simp] theorem respondOk_acc (s : State) : s.respondOk.acc = s.acc := rfl
@[simp] theorem respondOk_accLen (s : State) : s.respondOk.accLen = s.accLen := rfl
@[simp] theorem respondOk_freq (s : State) : s.respondOk.freq = s.freq := rfl
@[simp] theorem respondOk_node (s : State) : s.respondOk.node = s.node := rfl
@[simp] theorem respondOk_code (s : State) : s.respondOk.code = s.code := rfl
@[simp] theorem respondOk_rbuf (s : State) : s.respondOk.rbuf = s.rbuf := rfl
@[simp] theorem respondOk_cfg (s : State) : s.respondOk.cfg = s.cfg := rfl
@[simp] theorem respondOk_port (s : State) : s.respondOk.port = s.port := rfl
@[simp] theorem respondOk_draws (s : State) : s.respondOk.draws = s.draws := rfl
@[simp] theorem respondOk_resets (s : State) : s.respondOk.resets = s.resets := rfl

@[simp] theorem raise_phase (s : State) (k : Resp) : (s.raise k).phase = s.phase := rfl
@[simp] theorem raise_resp (s : State) (k : Resp) : (s.raise k).resp = k := rfl
@[simp] theorem raise_rkind (s : State) (k : Resp) : (s.raise k).rkind = s.rkind := rfl
@[simp] theorem raise_rlen (s : State) (k : Resp) : (s.raise k).rlen = s.rlen := rfl
@[simp] theorem raise_ntotal (s : State) (k : Resp) : (s.raise k).ntotal = s.ntotal := rfl
@[simp] theorem raise_ksyms (s : State) (k : Resp) : (s.raise k).ksyms = s.ksyms := rfl
@[simp] theorem raise_nn (s : State) (k : Resp) : (s.raise k).nn = s.nn := rfl
@[simp] theorem raise_root (s : State) (k : Resp) : (s.raise k).root = s.root := rfl
@[simp] theorem raise_cur (s : State) (k : Resp) : (s.raise k).cur = s.cur := rfl
@[simp] theorem raise_wlen (s : State) (k : Resp) : (s.raise k).wlen = s.wlen := rfl
@[simp] theorem raise_terr (s : State) (k : Resp) : (s.raise k).terr = s.terr := rfl
@[simp] theorem raise_pq (s : State) (k : Resp) : (s.raise k).pq = s.pq := rfl
@[simp] theorem raise_acc (s : State) (k : Resp) : (s.raise k).acc = s.acc := rfl
@[simp] theorem raise_accLen (s : State) (k : Resp) : (s.raise k).accLen = s.accLen := rfl
@[simp] theorem raise_freq (s : State) (k : Resp) : (s.raise k).freq = s.freq := rfl
@[simp] theorem raise_node (s : State) (k : Resp) : (s.raise k).node = s.node := rfl
@[simp] theorem raise_code (s : State) (k : Resp) : (s.raise k).code = s.code := rfl
@[simp] theorem raise_rbuf (s : State) (k : Resp) : (s.raise k).rbuf = s.rbuf := rfl
@[simp] theorem raise_cfg (s : State) (k : Resp) : (s.raise k).cfg = s.cfg := rfl
@[simp] theorem raise_port (s : State) (k : Resp) : (s.raise k).port = s.port := rfl
@[simp] theorem raise_draws (s : State) (k : Resp) : (s.raise k).draws = s.draws := rfl
@[simp] theorem raise_resets (s : State) (k : Resp) : (s.raise k).resets = s.resets := rfl

@[simp] theorem setFreq_phase (s : State) (i n : Nat) : (s.setFreq i n).phase = s.phase := rfl
@[simp] theorem setFreq_resp (s : State) (i n : Nat) : (s.setFreq i n).resp = s.resp := rfl
@[simp] theorem setFreq_rkind (s : State) (i n : Nat) : (s.setFreq i n).rkind = s.rkind := rfl
@[simp] theorem setFreq_rlen (s : State) (i n : Nat) : (s.setFreq i n).rlen = s.rlen := rfl
@[simp] theorem setFreq_ntotal (s : State) (i n : Nat) : (s.setFreq i n).ntotal = s.ntotal := rfl
@[simp] theorem setFreq_ksyms (s : State) (i n : Nat) : (s.setFreq i n).ksyms = s.ksyms := rfl
@[simp] theorem setFreq_nn (s : State) (i n : Nat) : (s.setFreq i n).nn = s.nn := rfl
@[simp] theorem setFreq_root (s : State) (i n : Nat) : (s.setFreq i n).root = s.root := rfl
@[simp] theorem setFreq_cur (s : State) (i n : Nat) : (s.setFreq i n).cur = s.cur := rfl
@[simp] theorem setFreq_wlen (s : State) (i n : Nat) : (s.setFreq i n).wlen = s.wlen := rfl
@[simp] theorem setFreq_terr (s : State) (i n : Nat) : (s.setFreq i n).terr = s.terr := rfl
@[simp] theorem setFreq_pq (s : State) (i n : Nat) : (s.setFreq i n).pq = s.pq := rfl
@[simp] theorem setFreq_acc (s : State) (i n : Nat) : (s.setFreq i n).acc = s.acc := rfl
@[simp] theorem setFreq_accLen (s : State) (i n : Nat) : (s.setFreq i n).accLen = s.accLen := rfl
@[simp] theorem setFreq_freq (s : State) (i n : Nat) : (s.setFreq i n).freq = s.freq.write i n := rfl
@[simp] theorem setFreq_node (s : State) (i n : Nat) : (s.setFreq i n).node = s.node := rfl
@[simp] theorem setFreq_code (s : State) (i n : Nat) : (s.setFreq i n).code = s.code := rfl
@[simp] theorem setFreq_rbuf (s : State) (i n : Nat) : (s.setFreq i n).rbuf = s.rbuf := rfl
@[simp] theorem setFreq_cfg (s : State) (i n : Nat) : (s.setFreq i n).cfg = s.cfg := rfl
@[simp] theorem setFreq_port (s : State) (i n : Nat) : (s.setFreq i n).port = s.port := rfl
@[simp] theorem setFreq_draws (s : State) (i n : Nat) : (s.setFreq i n).draws = s.draws := rfl
@[simp] theorem setFreq_resets (s : State) (i n : Nat) : (s.setFreq i n).resets = s.resets := rfl

@[simp] theorem setNode_phase (s : State) (i : Nat) (e : NodeEntry) : (s.setNode i e).phase = s.phase := rfl
@[simp] theorem setNode_resp (s : State) (i : Nat) (e : NodeEntry) : (s.setNode i e).resp = s.resp := rfl
@[simp] theorem setNode_rkind (s : State) (i : Nat) (e : NodeEntry) : (s.setNode i e).rkind = s.rkind := rfl
@[simp] theorem setNode_rlen (s : State) (i : Nat) (e : NodeEntry) : (s.setNode i e).rlen = s.rlen := rfl
@[simp] theorem setNode_ntotal (s : State) (i : Nat) (e : NodeEntry) : (s.setNode i e).ntotal = s.ntotal := rfl
@[simp] theorem setNode_ksyms (s : State) (i : Nat) (e : NodeEntry) : (s.setNode i e).ksyms = s.ksyms := rfl
@[simp] theorem setNode_nn (s : State) (i : Nat) (e : NodeEntry) : (s.setNode i e).nn = s.nn := rfl
@[simp] theorem setNode_root (s : State) (i : Nat) (e : NodeEntry) : (s.setNode i e).root = s.root := rfl
@[simp] theorem setNode_cur (s : State) (i : Nat) (e : NodeEntry) : (s.setNode i e).cur = s.cur := rfl
@[simp] theorem setNode_wlen (s : State) (i : Nat) (e : NodeEntry) : (s.setNode i e).wlen = s.wlen := rfl
@[simp] theorem setNode_terr (s : State) (i : Nat) (e : NodeEntry) : (s.setNode i e).terr = s.terr := rfl
@[simp] theorem setNode_pq (s : State) (i : Nat) (e : NodeEntry) : (s.setNode i e).pq = s.pq := rfl
@[simp] theorem setNode_acc (s : State) (i : Nat) (e : NodeEntry) : (s.setNode i e).acc = s.acc := rfl
@[simp] theorem setNode_accLen (s : State) (i : Nat) (e : NodeEntry) : (s.setNode i e).accLen = s.accLen := rfl
@[simp] theorem setNode_freq (s : State) (i : Nat) (e : NodeEntry) : (s.setNode i e).freq = s.freq := rfl
@[simp] theorem setNode_node (s : State) (i : Nat) (e : NodeEntry) : (s.setNode i e).node = s.node.write i e := rfl
@[simp] theorem setNode_code (s : State) (i : Nat) (e : NodeEntry) : (s.setNode i e).code = s.code := rfl
@[simp] theorem setNode_rbuf (s : State) (i : Nat) (e : NodeEntry) : (s.setNode i e).rbuf = s.rbuf := rfl
@[simp] theorem setNode_cfg (s : State) (i : Nat) (e : NodeEntry) : (s.setNode i e).cfg = s.cfg := rfl
@[simp] theorem setNode_port (s : State) (i : Nat) (e : NodeEntry) : (s.setNode i e).port = s.port := rfl
@[simp] theorem setNode_draws (s : State) (i : Nat) (e : NodeEntry) : (s.setNode i e).draws = s.draws := rfl
@[simp] theorem setNode_resets (s : State) (i : Nat) (e : NodeEntry) : (s.setNode i e).resets = s.resets := rfl

@[simp] theorem stage_phase (s : State) (bs : List Byte) : (s.stage bs).phase = s.phase := rfl
@[simp] theorem stage_resp (s : State) (bs : List Byte) : (s.stage bs).resp = s.resp := rfl
@[simp] theorem stage_rkind (s : State) (bs : List Byte) : (s.stage bs).rkind = s.rkind := rfl
@[simp] theorem stage_rlen (s : State) (bs : List Byte) : (s.stage bs).rlen = s.rlen := rfl
@[simp] theorem stage_ntotal (s : State) (bs : List Byte) : (s.stage bs).ntotal = s.ntotal := rfl
@[simp] theorem stage_ksyms (s : State) (bs : List Byte) : (s.stage bs).ksyms = s.ksyms := rfl
@[simp] theorem stage_nn (s : State) (bs : List Byte) : (s.stage bs).nn = s.nn := rfl
@[simp] theorem stage_root (s : State) (bs : List Byte) : (s.stage bs).root = s.root := rfl
@[simp] theorem stage_cur (s : State) (bs : List Byte) : (s.stage bs).cur = s.cur := rfl
@[simp] theorem stage_wlen (s : State) (bs : List Byte) : (s.stage bs).wlen = s.wlen + bs.length := rfl
@[simp] theorem stage_terr (s : State) (bs : List Byte) : (s.stage bs).terr = s.terr := rfl
@[simp] theorem stage_pq (s : State) (bs : List Byte) : (s.stage bs).pq = s.pq := rfl
@[simp] theorem stage_acc (s : State) (bs : List Byte) : (s.stage bs).acc = s.acc := rfl
@[simp] theorem stage_accLen (s : State) (bs : List Byte) : (s.stage bs).accLen = s.accLen := rfl
@[simp] theorem stage_freq (s : State) (bs : List Byte) : (s.stage bs).freq = s.freq := rfl
@[simp] theorem stage_node (s : State) (bs : List Byte) : (s.stage bs).node = s.node := rfl
@[simp] theorem stage_code (s : State) (bs : List Byte) : (s.stage bs).code = s.code := rfl
@[simp] theorem stage_rbuf (s : State) (bs : List Byte) : (s.stage bs).rbuf = Memory.writeFrom s.rbuf s.wlen bs := rfl
@[simp] theorem stage_cfg (s : State) (bs : List Byte) : (s.stage bs).cfg = s.cfg := rfl
@[simp] theorem stage_port (s : State) (bs : List Byte) : (s.stage bs).port = s.port := rfl
@[simp] theorem stage_draws (s : State) (bs : List Byte) : (s.stage bs).draws = s.draws := rfl
@[simp] theorem stage_resets (s : State) (bs : List Byte) : (s.stage bs).resets = s.resets := rfl

@[simp] theorem openResult_phase (s : State) : s.openResult.phase = s.phase := rfl
@[simp] theorem openResult_resp (s : State) : s.openResult.resp = s.resp := rfl
@[simp] theorem openResult_rkind (s : State) : s.openResult.rkind = .none := rfl
@[simp] theorem openResult_rlen (s : State) : s.openResult.rlen = 0 := rfl
@[simp] theorem openResult_ntotal (s : State) : s.openResult.ntotal = s.ntotal := rfl
@[simp] theorem openResult_ksyms (s : State) : s.openResult.ksyms = s.ksyms := rfl
@[simp] theorem openResult_nn (s : State) : s.openResult.nn = s.nn := rfl
@[simp] theorem openResult_root (s : State) : s.openResult.root = s.root := rfl
@[simp] theorem openResult_cur (s : State) : s.openResult.cur = s.cur := rfl
@[simp] theorem openResult_wlen (s : State) : s.openResult.wlen = 0 := rfl
@[simp] theorem openResult_terr (s : State) : s.openResult.terr = none := rfl
@[simp] theorem openResult_pq (s : State) : s.openResult.pq = s.pq := rfl
@[simp] theorem openResult_acc (s : State) : s.openResult.acc = s.acc := rfl
@[simp] theorem openResult_accLen (s : State) : s.openResult.accLen = s.accLen := rfl
@[simp] theorem openResult_freq (s : State) : s.openResult.freq = s.freq := rfl
@[simp] theorem openResult_node (s : State) : s.openResult.node = s.node := rfl
@[simp] theorem openResult_code (s : State) : s.openResult.code = s.code := rfl
@[simp] theorem openResult_rbuf (s : State) : s.openResult.rbuf = s.rbuf := rfl
@[simp] theorem openResult_cfg (s : State) : s.openResult.cfg = s.cfg := rfl
@[simp] theorem openResult_port (s : State) : s.openResult.port = s.port := rfl
@[simp] theorem openResult_draws (s : State) : s.openResult.draws = s.draws := rfl
@[simp] theorem openResult_resets (s : State) : s.openResult.resets = s.resets := rfl

@[simp] theorem latch_phase (s : State) (k : Latched) : (s.latch k).phase = s.phase := by unfold State.latch; split <;> rfl
@[simp] theorem latch_resp (s : State) (k : Latched) : (s.latch k).resp = s.resp := by unfold State.latch; split <;> rfl
@[simp] theorem latch_rkind (s : State) (k : Latched) : (s.latch k).rkind = s.rkind := by unfold State.latch; split <;> rfl
@[simp] theorem latch_rlen (s : State) (k : Latched) : (s.latch k).rlen = s.rlen := by unfold State.latch; split <;> rfl
@[simp] theorem latch_ntotal (s : State) (k : Latched) : (s.latch k).ntotal = s.ntotal := by unfold State.latch; split <;> rfl
@[simp] theorem latch_ksyms (s : State) (k : Latched) : (s.latch k).ksyms = s.ksyms := by unfold State.latch; split <;> rfl
@[simp] theorem latch_nn (s : State) (k : Latched) : (s.latch k).nn = s.nn := by unfold State.latch; split <;> rfl
@[simp] theorem latch_root (s : State) (k : Latched) : (s.latch k).root = s.root := by unfold State.latch; split <;> rfl
@[simp] theorem latch_cur (s : State) (k : Latched) : (s.latch k).cur = s.cur := by unfold State.latch; split <;> rfl
@[simp] theorem latch_wlen (s : State) (k : Latched) : (s.latch k).wlen = s.wlen := by unfold State.latch; split <;> rfl
@[simp] theorem latch_pq (s : State) (k : Latched) : (s.latch k).pq = s.pq := by unfold State.latch; split <;> rfl
@[simp] theorem latch_acc (s : State) (k : Latched) : (s.latch k).acc = s.acc := by unfold State.latch; split <;> rfl
@[simp] theorem latch_accLen (s : State) (k : Latched) : (s.latch k).accLen = s.accLen := by unfold State.latch; split <;> rfl
@[simp] theorem latch_freq (s : State) (k : Latched) : (s.latch k).freq = s.freq := by unfold State.latch; split <;> rfl
@[simp] theorem latch_node (s : State) (k : Latched) : (s.latch k).node = s.node := by unfold State.latch; split <;> rfl
@[simp] theorem latch_code (s : State) (k : Latched) : (s.latch k).code = s.code := by unfold State.latch; split <;> rfl
@[simp] theorem latch_rbuf (s : State) (k : Latched) : (s.latch k).rbuf = s.rbuf := by unfold State.latch; split <;> rfl
@[simp] theorem latch_cfg (s : State) (k : Latched) : (s.latch k).cfg = s.cfg := by unfold State.latch; split <;> rfl
@[simp] theorem latch_port (s : State) (k : Latched) : (s.latch k).port = s.port := by unfold State.latch; split <;> rfl
@[simp] theorem latch_draws (s : State) (k : Latched) : (s.latch k).draws = s.draws := by unfold State.latch; split <;> rfl
@[simp] theorem latch_resets (s : State) (k : Latched) : (s.latch k).resets = s.resets := by unfold State.latch; split <;> rfl

/-- The latch keeps the first error (60_exceptions.md R211). -/
theorem latch_terr (s : State) (k : Latched) : (s.latch k).terr = some (s.terr.getD k) := by
  unfold State.latch; split <;> simp [*]

theorem latch_of_none {s : State} (k : Latched) (h : s.terr = none) : s.latch k = { s with terr := some k } := by
  simp [State.latch, h]

theorem latch_of_some {s : State} {e : Latched} (k : Latched) (h : s.terr = some e) : s.latch k = s := by
  simp [State.latch, h]

@[simp] theorem latchTruncated_phase (s : State) : s.latchTruncated.phase = s.phase := by unfold State.latchTruncated; split <;> simp
@[simp] theorem latchTruncated_resp (s : State) : s.latchTruncated.resp = s.resp := by unfold State.latchTruncated; split <;> simp
@[simp] theorem latchTruncated_rkind (s : State) : s.latchTruncated.rkind = s.rkind := by unfold State.latchTruncated; split <;> simp
@[simp] theorem latchTruncated_rlen (s : State) : s.latchTruncated.rlen = s.rlen := by unfold State.latchTruncated; split <;> simp
@[simp] theorem latchTruncated_ntotal (s : State) : s.latchTruncated.ntotal = s.ntotal := by unfold State.latchTruncated; split <;> simp
@[simp] theorem latchTruncated_ksyms (s : State) : s.latchTruncated.ksyms = s.ksyms := by unfold State.latchTruncated; split <;> simp
@[simp] theorem latchTruncated_nn (s : State) : s.latchTruncated.nn = s.nn := by unfold State.latchTruncated; split <;> simp
@[simp] theorem latchTruncated_root (s : State) : s.latchTruncated.root = s.root := by unfold State.latchTruncated; split <;> simp
@[simp] theorem latchTruncated_cur (s : State) : s.latchTruncated.cur = s.cur := by unfold State.latchTruncated; split <;> simp
@[simp] theorem latchTruncated_wlen (s : State) : s.latchTruncated.wlen = s.wlen := by unfold State.latchTruncated; split <;> simp
@[simp] theorem latchTruncated_pq (s : State) : s.latchTruncated.pq = s.pq := by unfold State.latchTruncated; split <;> simp
@[simp] theorem latchTruncated_acc (s : State) : s.latchTruncated.acc = s.acc := by unfold State.latchTruncated; split <;> simp
@[simp] theorem latchTruncated_accLen (s : State) : s.latchTruncated.accLen = s.accLen := by unfold State.latchTruncated; split <;> simp
@[simp] theorem latchTruncated_freq (s : State) : s.latchTruncated.freq = s.freq := by unfold State.latchTruncated; split <;> simp
@[simp] theorem latchTruncated_node (s : State) : s.latchTruncated.node = s.node := by unfold State.latchTruncated; split <;> simp
@[simp] theorem latchTruncated_code (s : State) : s.latchTruncated.code = s.code := by unfold State.latchTruncated; split <;> simp
@[simp] theorem latchTruncated_rbuf (s : State) : s.latchTruncated.rbuf = s.rbuf := by unfold State.latchTruncated; split <;> simp
@[simp] theorem latchTruncated_cfg (s : State) : s.latchTruncated.cfg = s.cfg := by unfold State.latchTruncated; split <;> simp
@[simp] theorem latchTruncated_port (s : State) : s.latchTruncated.port = s.port := by unfold State.latchTruncated; split <;> simp
@[simp] theorem latchTruncated_draws (s : State) : s.latchTruncated.draws = s.draws := by unfold State.latchTruncated; split <;> simp
@[simp] theorem latchTruncated_resets (s : State) : s.latchTruncated.resets = s.resets := by unfold State.latchTruncated; split <;> simp

@[simp] theorem closeResult_ntotal (s : State) (k : RKind) : (s.closeResult k).ntotal = s.ntotal := by unfold State.closeResult; split <;> rfl
@[simp] theorem closeResult_ksyms (s : State) (k : RKind) : (s.closeResult k).ksyms = s.ksyms := by unfold State.closeResult; split <;> rfl
@[simp] theorem closeResult_nn (s : State) (k : RKind) : (s.closeResult k).nn = s.nn := by unfold State.closeResult; split <;> rfl
@[simp] theorem closeResult_root (s : State) (k : RKind) : (s.closeResult k).root = s.root := by unfold State.closeResult; split <;> rfl
@[simp] theorem closeResult_cur (s : State) (k : RKind) : (s.closeResult k).cur = s.cur := by unfold State.closeResult; split <;> rfl
@[simp] theorem closeResult_wlen (s : State) (k : RKind) : (s.closeResult k).wlen = s.wlen := by unfold State.closeResult; split <;> rfl
@[simp] theorem closeResult_pq (s : State) (k : RKind) : (s.closeResult k).pq = s.pq := by unfold State.closeResult; split <;> rfl
@[simp] theorem closeResult_acc (s : State) (k : RKind) : (s.closeResult k).acc = s.acc := by unfold State.closeResult; split <;> rfl
@[simp] theorem closeResult_accLen (s : State) (k : RKind) : (s.closeResult k).accLen = s.accLen := by unfold State.closeResult; split <;> rfl
@[simp] theorem closeResult_freq (s : State) (k : RKind) : (s.closeResult k).freq = s.freq := by unfold State.closeResult; split <;> rfl
@[simp] theorem closeResult_node (s : State) (k : RKind) : (s.closeResult k).node = s.node := by unfold State.closeResult; split <;> rfl
@[simp] theorem closeResult_code (s : State) (k : RKind) : (s.closeResult k).code = s.code := by unfold State.closeResult; split <;> rfl
@[simp] theorem closeResult_rbuf (s : State) (k : RKind) : (s.closeResult k).rbuf = s.rbuf := by unfold State.closeResult; split <;> rfl
@[simp] theorem closeResult_cfg (s : State) (k : RKind) : (s.closeResult k).cfg = s.cfg := by unfold State.closeResult; split <;> rfl
@[simp] theorem closeResult_port (s : State) (k : RKind) : (s.closeResult k).port = s.port := by unfold State.closeResult; split <;> rfl
@[simp] theorem closeResult_draws (s : State) (k : RKind) : (s.closeResult k).draws = s.draws := by unfold State.closeResult; split <;> rfl
@[simp] theorem closeResult_resets (s : State) (k : RKind) : (s.closeResult k).resets = s.resets := by unfold State.closeResult; split <;> rfl
@[simp] theorem closeResult_phase (s : State) (k : RKind) : (s.closeResult k).phase = .ready := by
  unfold State.closeResult; split <;> rfl
@[simp] theorem closeResult_terr (s : State) (k : RKind) : (s.closeResult k).terr = none := by
  unfold State.closeResult; split
  · assumption
  · rfl

@[simp] theorem extractMin_phase (tie : Config.TieBreak) (s : State) : (extractMin tie s).2.phase = s.phase := rfl
@[simp] theorem extractMin_resp (tie : Config.TieBreak) (s : State) : (extractMin tie s).2.resp = s.resp := rfl
@[simp] theorem extractMin_rkind (tie : Config.TieBreak) (s : State) : (extractMin tie s).2.rkind = s.rkind := rfl
@[simp] theorem extractMin_rlen (tie : Config.TieBreak) (s : State) : (extractMin tie s).2.rlen = s.rlen := rfl
@[simp] theorem extractMin_ntotal (tie : Config.TieBreak) (s : State) : (extractMin tie s).2.ntotal = s.ntotal := rfl
@[simp] theorem extractMin_ksyms (tie : Config.TieBreak) (s : State) : (extractMin tie s).2.ksyms = s.ksyms := rfl
@[simp] theorem extractMin_nn (tie : Config.TieBreak) (s : State) : (extractMin tie s).2.nn = s.nn := rfl
@[simp] theorem extractMin_root (tie : Config.TieBreak) (s : State) : (extractMin tie s).2.root = s.root := rfl
@[simp] theorem extractMin_cur (tie : Config.TieBreak) (s : State) : (extractMin tie s).2.cur = s.cur := rfl
@[simp] theorem extractMin_wlen (tie : Config.TieBreak) (s : State) : (extractMin tie s).2.wlen = s.wlen := rfl
@[simp] theorem extractMin_terr (tie : Config.TieBreak) (s : State) : (extractMin tie s).2.terr = s.terr := rfl
@[simp] theorem extractMin_acc (tie : Config.TieBreak) (s : State) : (extractMin tie s).2.acc = s.acc := rfl
@[simp] theorem extractMin_accLen (tie : Config.TieBreak) (s : State) : (extractMin tie s).2.accLen = s.accLen := rfl
@[simp] theorem extractMin_freq (tie : Config.TieBreak) (s : State) : (extractMin tie s).2.freq = s.freq := rfl
@[simp] theorem extractMin_node (tie : Config.TieBreak) (s : State) : (extractMin tie s).2.node = s.node := rfl
@[simp] theorem extractMin_code (tie : Config.TieBreak) (s : State) : (extractMin tie s).2.code = s.code := rfl
@[simp] theorem extractMin_rbuf (tie : Config.TieBreak) (s : State) : (extractMin tie s).2.rbuf = s.rbuf := rfl
@[simp] theorem extractMin_cfg (tie : Config.TieBreak) (s : State) : (extractMin tie s).2.cfg = s.cfg := rfl
@[simp] theorem extractMin_port (tie : Config.TieBreak) (s : State) : (extractMin tie s).2.port = s.port := rfl
@[simp] theorem extractMin_resets (tie : Config.TieBreak) (s : State) : (extractMin tie s).2.resets = s.resets := rfl

@[simp] theorem merge_phase (tie : Config.TieBreak) (s : State) : (merge tie s).phase = s.phase := rfl
@[simp] theorem merge_resp (tie : Config.TieBreak) (s : State) : (merge tie s).resp = s.resp := rfl
@[simp] theorem merge_rkind (tie : Config.TieBreak) (s : State) : (merge tie s).rkind = s.rkind := rfl
@[simp] theorem merge_rlen (tie : Config.TieBreak) (s : State) : (merge tie s).rlen = s.rlen := rfl
@[simp] theorem merge_ntotal (tie : Config.TieBreak) (s : State) : (merge tie s).ntotal = s.ntotal := rfl
@[simp] theorem merge_ksyms (tie : Config.TieBreak) (s : State) : (merge tie s).ksyms = s.ksyms := rfl
@[simp] theorem merge_root (tie : Config.TieBreak) (s : State) : (merge tie s).root = s.root := rfl
@[simp] theorem merge_cur (tie : Config.TieBreak) (s : State) : (merge tie s).cur = s.cur := rfl
@[simp] theorem merge_wlen (tie : Config.TieBreak) (s : State) : (merge tie s).wlen = s.wlen := rfl
@[simp] theorem merge_terr (tie : Config.TieBreak) (s : State) : (merge tie s).terr = s.terr := rfl
@[simp] theorem merge_acc (tie : Config.TieBreak) (s : State) : (merge tie s).acc = s.acc := rfl
@[simp] theorem merge_accLen (tie : Config.TieBreak) (s : State) : (merge tie s).accLen = s.accLen := rfl
@[simp] theorem merge_freq (tie : Config.TieBreak) (s : State) : (merge tie s).freq = s.freq := rfl
@[simp] theorem merge_code (tie : Config.TieBreak) (s : State) : (merge tie s).code = s.code := rfl
@[simp] theorem merge_rbuf (tie : Config.TieBreak) (s : State) : (merge tie s).rbuf = s.rbuf := rfl
@[simp] theorem merge_cfg (tie : Config.TieBreak) (s : State) : (merge tie s).cfg = s.cfg := rfl
@[simp] theorem merge_port (tie : Config.TieBreak) (s : State) : (merge tie s).port = s.port := rfl
@[simp] theorem merge_resets (tie : Config.TieBreak) (s : State) : (merge tie s).resets = s.resets := rfl

@[simp] theorem seedLeaf_phase (x : Nat) (s : State) : (seedLeaf s x).phase = s.phase := rfl
@[simp] theorem seedLeaf_resp (x : Nat) (s : State) : (seedLeaf s x).resp = s.resp := rfl
@[simp] theorem seedLeaf_rkind (x : Nat) (s : State) : (seedLeaf s x).rkind = s.rkind := rfl
@[simp] theorem seedLeaf_rlen (x : Nat) (s : State) : (seedLeaf s x).rlen = s.rlen := rfl
@[simp] theorem seedLeaf_ntotal (x : Nat) (s : State) : (seedLeaf s x).ntotal = s.ntotal := rfl
@[simp] theorem seedLeaf_ksyms (x : Nat) (s : State) : (seedLeaf s x).ksyms = s.ksyms := rfl
@[simp] theorem seedLeaf_root (x : Nat) (s : State) : (seedLeaf s x).root = s.root := rfl
@[simp] theorem seedLeaf_cur (x : Nat) (s : State) : (seedLeaf s x).cur = s.cur := rfl
@[simp] theorem seedLeaf_wlen (x : Nat) (s : State) : (seedLeaf s x).wlen = s.wlen := rfl
@[simp] theorem seedLeaf_terr (x : Nat) (s : State) : (seedLeaf s x).terr = s.terr := rfl
@[simp] theorem seedLeaf_acc (x : Nat) (s : State) : (seedLeaf s x).acc = s.acc := rfl
@[simp] theorem seedLeaf_accLen (x : Nat) (s : State) : (seedLeaf s x).accLen = s.accLen := rfl
@[simp] theorem seedLeaf_freq (x : Nat) (s : State) : (seedLeaf s x).freq = s.freq := rfl
@[simp] theorem seedLeaf_code (x : Nat) (s : State) : (seedLeaf s x).code = s.code := rfl
@[simp] theorem seedLeaf_rbuf (x : Nat) (s : State) : (seedLeaf s x).rbuf = s.rbuf := rfl
@[simp] theorem seedLeaf_cfg (x : Nat) (s : State) : (seedLeaf s x).cfg = s.cfg := rfl
@[simp] theorem seedLeaf_port (x : Nat) (s : State) : (seedLeaf s x).port = s.port := rfl
@[simp] theorem seedLeaf_draws (x : Nat) (s : State) : (seedLeaf s x).draws = s.draws := rfl
@[simp] theorem seedLeaf_resets (x : Nat) (s : State) : (seedLeaf s x).resets = s.resets := rfl

@[simp] theorem finish_phase (s : State) : (finish s).phase = s.phase := rfl
@[simp] theorem finish_resp (s : State) : (finish s).resp = s.resp := rfl
@[simp] theorem finish_rkind (s : State) : (finish s).rkind = s.rkind := rfl
@[simp] theorem finish_rlen (s : State) : (finish s).rlen = s.rlen := rfl
@[simp] theorem finish_ntotal (s : State) : (finish s).ntotal = s.ntotal := rfl
@[simp] theorem finish_ksyms (s : State) : (finish s).ksyms = s.ksyms := rfl
@[simp] theorem finish_nn (s : State) : (finish s).nn = s.nn := rfl
@[simp] theorem finish_cur (s : State) : (finish s).cur = s.cur := rfl
@[simp] theorem finish_wlen (s : State) : (finish s).wlen = s.wlen := rfl
@[simp] theorem finish_terr (s : State) : (finish s).terr = s.terr := rfl
@[simp] theorem finish_acc (s : State) : (finish s).acc = s.acc := rfl
@[simp] theorem finish_accLen (s : State) : (finish s).accLen = s.accLen := rfl
@[simp] theorem finish_freq (s : State) : (finish s).freq = s.freq := rfl
@[simp] theorem finish_node (s : State) : (finish s).node = s.node := rfl
@[simp] theorem finish_code (s : State) : (finish s).code = s.code := rfl
@[simp] theorem finish_rbuf (s : State) : (finish s).rbuf = s.rbuf := rfl
@[simp] theorem finish_cfg (s : State) : (finish s).cfg = s.cfg := rfl
@[simp] theorem finish_port (s : State) : (finish s).port = s.port := rfl
@[simp] theorem finish_draws (s : State) : (finish s).draws = s.draws := rfl
@[simp] theorem finish_resets (s : State) : (finish s).resets = s.resets := rfl

@[simp] theorem walk_phase (s : State) : (walk s).phase = s.phase := rfl
@[simp] theorem walk_resp (s : State) : (walk s).resp = s.resp := rfl
@[simp] theorem walk_rkind (s : State) : (walk s).rkind = s.rkind := rfl
@[simp] theorem walk_rlen (s : State) : (walk s).rlen = s.rlen := rfl
@[simp] theorem walk_ntotal (s : State) : (walk s).ntotal = s.ntotal := rfl
@[simp] theorem walk_ksyms (s : State) : (walk s).ksyms = s.ksyms := rfl
@[simp] theorem walk_nn (s : State) : (walk s).nn = s.nn := rfl
@[simp] theorem walk_root (s : State) : (walk s).root = s.root := rfl
@[simp] theorem walk_cur (s : State) : (walk s).cur = s.cur := rfl
@[simp] theorem walk_wlen (s : State) : (walk s).wlen = s.wlen := rfl
@[simp] theorem walk_terr (s : State) : (walk s).terr = s.terr := rfl
@[simp] theorem walk_pq (s : State) : (walk s).pq = s.pq := rfl
@[simp] theorem walk_freq (s : State) : (walk s).freq = s.freq := rfl
@[simp] theorem walk_node (s : State) : (walk s).node = s.node := rfl
@[simp] theorem walk_rbuf (s : State) : (walk s).rbuf = s.rbuf := rfl
@[simp] theorem walk_cfg (s : State) : (walk s).cfg = s.cfg := rfl
@[simp] theorem walk_port (s : State) : (walk s).port = s.port := rfl
@[simp] theorem walk_resets (s : State) : (walk s).resets = s.resets := rfl

@[simp] theorem mergeTimes_phase (tie : Config.TieBreak) (n : Nat) (s : State) : (mergeTimes tie n s).phase = s.phase := by
  induction n generalizing s with
  | zero => rfl
  | succ n ih => simp [mergeTimes, ih]
@[simp] theorem mergeTimes_resp (tie : Config.TieBreak) (n : Nat) (s : State) : (mergeTimes tie n s).resp = s.resp := by
  induction n generalizing s with
  | zero => rfl
  | succ n ih => simp [mergeTimes, ih]
@[simp] theorem mergeTimes_rkind (tie : Config.TieBreak) (n : Nat) (s : State) : (mergeTimes tie n s).rkind = s.rkind := by
  induction n generalizing s with
  | zero => rfl
  | succ n ih => simp [mergeTimes, ih]
@[simp] theorem mergeTimes_rlen (tie : Config.TieBreak) (n : Nat) (s : State) : (mergeTimes tie n s).rlen = s.rlen := by
  induction n generalizing s with
  | zero => rfl
  | succ n ih => simp [mergeTimes, ih]
@[simp] theorem mergeTimes_ntotal (tie : Config.TieBreak) (n : Nat) (s : State) : (mergeTimes tie n s).ntotal = s.ntotal := by
  induction n generalizing s with
  | zero => rfl
  | succ n ih => simp [mergeTimes, ih]
@[simp] theorem mergeTimes_ksyms (tie : Config.TieBreak) (n : Nat) (s : State) : (mergeTimes tie n s).ksyms = s.ksyms := by
  induction n generalizing s with
  | zero => rfl
  | succ n ih => simp [mergeTimes, ih]
@[simp] theorem mergeTimes_root (tie : Config.TieBreak) (n : Nat) (s : State) : (mergeTimes tie n s).root = s.root := by
  induction n generalizing s with
  | zero => rfl
  | succ n ih => simp [mergeTimes, ih]
@[simp] theorem mergeTimes_cur (tie : Config.TieBreak) (n : Nat) (s : State) : (mergeTimes tie n s).cur = s.cur := by
  induction n generalizing s with
  | zero => rfl
  | succ n ih => simp [mergeTimes, ih]
@[simp] theorem mergeTimes_wlen (tie : Config.TieBreak) (n : Nat) (s : State) : (mergeTimes tie n s).wlen = s.wlen := by
  induction n generalizing s with
  | zero => rfl
  | succ n ih => simp [mergeTimes, ih]
@[simp] theorem mergeTimes_terr (tie : Config.TieBreak) (n : Nat) (s : State) : (mergeTimes tie n s).terr = s.terr := by
  induction n generalizing s with
  | zero => rfl
  | succ n ih => simp [mergeTimes, ih]
@[simp] theorem mergeTimes_acc (tie : Config.TieBreak) (n : Nat) (s : State) : (mergeTimes tie n s).acc = s.acc := by
  induction n generalizing s with
  | zero => rfl
  | succ n ih => simp [mergeTimes, ih]
@[simp] theorem mergeTimes_accLen (tie : Config.TieBreak) (n : Nat) (s : State) : (mergeTimes tie n s).accLen = s.accLen := by
  induction n generalizing s with
  | zero => rfl
  | succ n ih => simp [mergeTimes, ih]
@[simp] theorem mergeTimes_freq (tie : Config.TieBreak) (n : Nat) (s : State) : (mergeTimes tie n s).freq = s.freq := by
  induction n generalizing s with
  | zero => rfl
  | succ n ih => simp [mergeTimes, ih]
@[simp] theorem mergeTimes_code (tie : Config.TieBreak) (n : Nat) (s : State) : (mergeTimes tie n s).code = s.code := by
  induction n generalizing s with
  | zero => rfl
  | succ n ih => simp [mergeTimes, ih]
@[simp] theorem mergeTimes_rbuf (tie : Config.TieBreak) (n : Nat) (s : State) : (mergeTimes tie n s).rbuf = s.rbuf := by
  induction n generalizing s with
  | zero => rfl
  | succ n ih => simp [mergeTimes, ih]
@[simp] theorem mergeTimes_cfg (tie : Config.TieBreak) (n : Nat) (s : State) : (mergeTimes tie n s).cfg = s.cfg := by
  induction n generalizing s with
  | zero => rfl
  | succ n ih => simp [mergeTimes, ih]
@[simp] theorem mergeTimes_port (tie : Config.TieBreak) (n : Nat) (s : State) : (mergeTimes tie n s).port = s.port := by
  induction n generalizing s with
  | zero => rfl
  | succ n ih => simp [mergeTimes, ih]
@[simp] theorem mergeTimes_resets (tie : Config.TieBreak) (n : Nat) (s : State) : (mergeTimes tie n s).resets = s.resets := by
  induction n generalizing s with
  | zero => rfl
  | succ n ih => simp [mergeTimes, ih]

@[simp] theorem foldl_seedLeaf_phase (l : List Nat) (s : State) : (l.foldl seedLeaf s).phase = s.phase := by
  induction l generalizing s with
  | nil => rfl
  | cons x l ih => simp [ih]
@[simp] theorem foldl_seedLeaf_resp (l : List Nat) (s : State) : (l.foldl seedLeaf s).resp = s.resp := by
  induction l generalizing s with
  | nil => rfl
  | cons x l ih => simp [ih]
@[simp] theorem foldl_seedLeaf_rkind (l : List Nat) (s : State) : (l.foldl seedLeaf s).rkind = s.rkind := by
  induction l generalizing s with
  | nil => rfl
  | cons x l ih => simp [ih]
@[simp] theorem foldl_seedLeaf_rlen (l : List Nat) (s : State) : (l.foldl seedLeaf s).rlen = s.rlen := by
  induction l generalizing s with
  | nil => rfl
  | cons x l ih => simp [ih]
@[simp] theorem foldl_seedLeaf_ntotal (l : List Nat) (s : State) : (l.foldl seedLeaf s).ntotal = s.ntotal := by
  induction l generalizing s with
  | nil => rfl
  | cons x l ih => simp [ih]
@[simp] theorem foldl_seedLeaf_ksyms (l : List Nat) (s : State) : (l.foldl seedLeaf s).ksyms = s.ksyms := by
  induction l generalizing s with
  | nil => rfl
  | cons x l ih => simp [ih]
@[simp] theorem foldl_seedLeaf_root (l : List Nat) (s : State) : (l.foldl seedLeaf s).root = s.root := by
  induction l generalizing s with
  | nil => rfl
  | cons x l ih => simp [ih]
@[simp] theorem foldl_seedLeaf_cur (l : List Nat) (s : State) : (l.foldl seedLeaf s).cur = s.cur := by
  induction l generalizing s with
  | nil => rfl
  | cons x l ih => simp [ih]
@[simp] theorem foldl_seedLeaf_wlen (l : List Nat) (s : State) : (l.foldl seedLeaf s).wlen = s.wlen := by
  induction l generalizing s with
  | nil => rfl
  | cons x l ih => simp [ih]
@[simp] theorem foldl_seedLeaf_terr (l : List Nat) (s : State) : (l.foldl seedLeaf s).terr = s.terr := by
  induction l generalizing s with
  | nil => rfl
  | cons x l ih => simp [ih]
@[simp] theorem foldl_seedLeaf_acc (l : List Nat) (s : State) : (l.foldl seedLeaf s).acc = s.acc := by
  induction l generalizing s with
  | nil => rfl
  | cons x l ih => simp [ih]
@[simp] theorem foldl_seedLeaf_accLen (l : List Nat) (s : State) : (l.foldl seedLeaf s).accLen = s.accLen := by
  induction l generalizing s with
  | nil => rfl
  | cons x l ih => simp [ih]
@[simp] theorem foldl_seedLeaf_freq (l : List Nat) (s : State) : (l.foldl seedLeaf s).freq = s.freq := by
  induction l generalizing s with
  | nil => rfl
  | cons x l ih => simp [ih]
@[simp] theorem foldl_seedLeaf_code (l : List Nat) (s : State) : (l.foldl seedLeaf s).code = s.code := by
  induction l generalizing s with
  | nil => rfl
  | cons x l ih => simp [ih]
@[simp] theorem foldl_seedLeaf_rbuf (l : List Nat) (s : State) : (l.foldl seedLeaf s).rbuf = s.rbuf := by
  induction l generalizing s with
  | nil => rfl
  | cons x l ih => simp [ih]
@[simp] theorem foldl_seedLeaf_cfg (l : List Nat) (s : State) : (l.foldl seedLeaf s).cfg = s.cfg := by
  induction l generalizing s with
  | nil => rfl
  | cons x l ih => simp [ih]
@[simp] theorem foldl_seedLeaf_port (l : List Nat) (s : State) : (l.foldl seedLeaf s).port = s.port := by
  induction l generalizing s with
  | nil => rfl
  | cons x l ih => simp [ih]
@[simp] theorem foldl_seedLeaf_draws (l : List Nat) (s : State) : (l.foldl seedLeaf s).draws = s.draws := by
  induction l generalizing s with
  | nil => rfl
  | cons x l ih => simp [ih]
@[simp] theorem foldl_seedLeaf_resets (l : List Nat) (s : State) : (l.foldl seedLeaf s).resets = s.resets := by
  induction l generalizing s with
  | nil => rfl
  | cons x l ih => simp [ih]

@[simp] theorem seed_phase (s : State) : (seed s).phase = s.phase := by simp [seed]
@[simp] theorem seed_resp (s : State) : (seed s).resp = s.resp := by simp [seed]
@[simp] theorem seed_rkind (s : State) : (seed s).rkind = s.rkind := by simp [seed]
@[simp] theorem seed_rlen (s : State) : (seed s).rlen = s.rlen := by simp [seed]
@[simp] theorem seed_ntotal (s : State) : (seed s).ntotal = s.ntotal := by simp [seed]
@[simp] theorem seed_root (s : State) : (seed s).root = s.root := by simp [seed]
@[simp] theorem seed_cur (s : State) : (seed s).cur = s.cur := by simp [seed]
@[simp] theorem seed_wlen (s : State) : (seed s).wlen = s.wlen := by simp [seed]
@[simp] theorem seed_terr (s : State) : (seed s).terr = s.terr := by simp [seed]
@[simp] theorem seed_acc (s : State) : (seed s).acc = s.acc := by simp [seed]
@[simp] theorem seed_accLen (s : State) : (seed s).accLen = s.accLen := by simp [seed]
@[simp] theorem seed_freq (s : State) : (seed s).freq = s.freq := by simp [seed]
@[simp] theorem seed_code (s : State) : (seed s).code = s.code := by simp [seed]
@[simp] theorem seed_rbuf (s : State) : (seed s).rbuf = s.rbuf := by simp [seed]
@[simp] theorem seed_cfg (s : State) : (seed s).cfg = s.cfg := by simp [seed]
@[simp] theorem seed_port (s : State) : (seed s).port = s.port := by simp [seed]
@[simp] theorem seed_draws (s : State) : (seed s).draws = s.draws := by simp [seed]
@[simp] theorem seed_resets (s : State) : (seed s).resets = s.resets := by simp [seed]

@[simp] theorem buildCodec_rkind (tie : Config.TieBreak) (s : State) : (buildCodec tie s).rkind = s.rkind := by simp [buildCodec]
@[simp] theorem buildCodec_rlen (tie : Config.TieBreak) (s : State) : (buildCodec tie s).rlen = s.rlen := by simp [buildCodec]
@[simp] theorem buildCodec_ntotal (tie : Config.TieBreak) (s : State) : (buildCodec tie s).ntotal = s.ntotal := by simp [buildCodec]
@[simp] theorem buildCodec_cur (tie : Config.TieBreak) (s : State) : (buildCodec tie s).cur = s.cur := by simp [buildCodec]
@[simp] theorem buildCodec_wlen (tie : Config.TieBreak) (s : State) : (buildCodec tie s).wlen = s.wlen := by simp [buildCodec]
@[simp] theorem buildCodec_terr (tie : Config.TieBreak) (s : State) : (buildCodec tie s).terr = s.terr := by simp [buildCodec]
@[simp] theorem buildCodec_freq (tie : Config.TieBreak) (s : State) : (buildCodec tie s).freq = s.freq := by simp [buildCodec]
@[simp] theorem buildCodec_rbuf (tie : Config.TieBreak) (s : State) : (buildCodec tie s).rbuf = s.rbuf := by simp [buildCodec]
@[simp] theorem buildCodec_cfg (tie : Config.TieBreak) (s : State) : (buildCodec tie s).cfg = s.cfg := by simp [buildCodec]
@[simp] theorem buildCodec_port (tie : Config.TieBreak) (s : State) : (buildCodec tie s).port = s.port := by simp [buildCodec]
@[simp] theorem buildCodec_resets (tie : Config.TieBreak) (s : State) : (buildCodec tie s).resets = s.resets := by simp [buildCodec]
@[simp] theorem buildCodec_phase (tie : Config.TieBreak) (s : State) : (buildCodec tie s).phase = .ready := rfl
@[simp] theorem buildCodec_resp (tie : Config.TieBreak) (s : State) : (buildCodec tie s).resp = .ok := rfl
@[simp] theorem buildCodec_pq (tie : Config.TieBreak) (s : State) : (buildCodec tie s).pq = [] := rfl

end Sys2Proof.Laws
end

