-- ==== Sys2Proof/Laws/Ops.lean ====
section
/-! SUPPORT. What the shared operations can do, said once: the phase check, RAM accesses, the latch and the END of an
operation. -/

namespace Sys2Proof.Laws

open Sys2Proof Sys2Proof.Machine

/-! The phase check -/

theorem whenLegal_of_mem {i : Instr} {s : State} (o : Outcome) (h : s.phase ∈ legalPhases i) : whenLegal i s o = o := by
  simp [whenLegal, h]

theorem whenLegal_of_not_mem {i : Instr} {s : State} (o : Outcome) (h : s.phase ∉ legalPhases i) :
    whenLegal i s o = .next (s.raise .badSequence) := by
  simp [whenLegal, h]

/-- What a checked command can answer: its effect's answer in a permitted phase, BadSequence in any other. -/
theorem whenLegal_cases {i : Instr} {s : State} {o r : Outcome} (h : whenLegal i s o = r) :
    (s.phase ∈ legalPhases i ∧ o = r) ∨ (s.phase ∉ legalPhases i ∧ r = .next (s.raise .badSequence)) := by
  by_cases hp : s.phase ∈ legalPhases i
  · exact .inl ⟨hp, by rwa [whenLegal_of_mem o hp] at h⟩
  · exact .inr ⟨hp, by rw [← h, whenLegal_of_not_mem o hp]⟩

/-! RAM accesses -/

theorem freqAt_of_read {s : State} {i n : Nat} (h : s.freq.read i = some n) : s.freqAt i = n := by
  simp [State.freqAt, h]

theorem nodeAt_of_read {s : State} {i : Nat} {e : NodeEntry} (h : s.node.read i = some e) : s.nodeAt i = e := by
  simp [State.nodeAt, h]

theorem codeAt_of_read {s : State} {i : Nat} {e : CodeEntry} (h : s.code.read i = some e) : s.codeAt i = e := by
  simp [State.codeAt, h]

theorem rbufAt_of_read {s : State} {i : Nat} {b : Byte} (h : Memory.read s.rbuf i = some b) : s.rbufAt i = b := by
  simp [State.rbufAt, h]

/-- FREQ reads alike in states with the same FREQ, parameters and number of resets. -/
theorem freqAt_congr {s t : State} (hf : t.freq = s.freq) (hc : t.cfg = s.cfg) (hr : t.resets = s.resets) (i : Nat) :
    t.freqAt i = s.freqAt i := by
  simp [State.freqAt, State.weightWide, hf, hc, hr]

theorem nodeAt_congr {s t : State} (hf : t.node = s.node) (hc : t.cfg = s.cfg) (hr : t.resets = s.resets) (i : Nat) :
    t.nodeAt i = s.nodeAt i := by
  simp [State.nodeAt, State.nodePowerOn, State.weightWide, hf, hc, hr]

theorem codeAt_congr {s t : State} (hf : t.code = s.code) (hr : t.resets = s.resets) (i : Nat) :
    t.codeAt i = s.codeAt i := by
  simp [State.codeAt, State.codePowerOn, hf, hr]

theorem rbufAt_congr {s t : State} (hf : t.rbuf = s.rbuf) (hr : t.resets = s.resets) (i : Nat) :
    t.rbufAt i = s.rbufAt i := by
  simp [State.rbufAt, hf, hr]

theorem freqAt_setFreq (s : State) (i n j : Nat) : (s.setFreq i n).freqAt j = if j = i then n else s.freqAt j := by
  simp only [State.freqAt, setFreq_freq, read_write, State.weightWide, setFreq_cfg, setFreq_resets]
  split <;> rfl

theorem nodeAt_setNode (s : State) (i : Nat) (e : NodeEntry) (j : Nat) :
    (s.setNode i e).nodeAt j = if j = i then e else s.nodeAt j := by
  simp only [State.nodeAt, setNode_node, read_write, State.nodePowerOn, State.weightWide, setNode_cfg, setNode_resets]
  split <;> rfl

/-- Staged bytes are read back at the indices from `wlen` (43_encode.md R151). -/
theorem rbufAt_stage_inside (s : State) {bs : List Byte} {j : Nat} (h : j < bs.length) :
    (s.stage bs).rbufAt (s.wlen + j) = bs[j] := by
  simp [State.rbufAt, read_writeFrom_inside _ _ _ h, h]

/-- Staging leaves every other result byte. -/
theorem rbufAt_stage_outside (s : State) {bs : List Byte} {a : Nat} (h : a < s.wlen ∨ s.wlen + bs.length ≤ a) :
    (s.stage bs).rbufAt a = s.rbufAt a := by
  simp [State.rbufAt, read_writeFrom_outside _ _ h]

/-- Reading a NODE entry goes on exactly when the entry exists. -/
theorem withNode_of_lt {s : State} {i : Nat} (k : NodeEntry → Outcome) (h : i < Config.nodeMax) :
    withNode s i k = k (s.nodeAt i) := by
  simp [withNode, h]

theorem withNode_next {s t : State} {i : Nat} {k : NodeEntry → Outcome} (h : withNode s i k = .next t) :
    i < Config.nodeMax ∧ k (s.nodeAt i) = .next t := by
  unfold withNode at h
  split at h
  · exact ⟨‹_›, h⟩
  · cases h

/-- What `emit` goes on with (44_decode.md R161): Capacity latched when the buffer is full, else the symbol staged. -/
theorem emit_next {x : Byte} {s t : State} {k : State → Outcome} (h : emit x s k = .next t) :
    (s.cfg.rbufCap = some s.wlen ∧ k (s.latch .capacity) = .next t)
      ∨ (s.cfg.rbufCap ≠ some s.wlen ∧ Config.within s.cfg.rbufCap (s.wlen + 1) ∧ k (s.stage [x]) = .next t) := by
  unfold emit at h
  split at h
  · exact .inl ⟨‹_›, h⟩
  · split at h
    · exact .inr ⟨‹_›, ‹_›, h⟩
    · cases h

/-! The END of an operation -/

theorem closeResult_of_none {s : State} (k : RKind) (h : s.terr = none) :
    s.closeResult k = { s with rkind := k, rlen := s.wlen, phase := .ready, resp := .ok } := by
  simp [State.closeResult, h, State.respondOk]

theorem closeResult_of_some {s : State} {e : Latched} (k : RKind) (h : s.terr = some e) :
    s.closeResult k = { s with terr := none, rkind := .none, rlen := 0, phase := .ready, resp := e.resp } := by
  simp [State.closeResult, h, State.raise]

end Sys2Proof.Laws
end

