-- ==== Sys2Proof/Laws/Tree.lean ====
section
/-! SUPPORT. The laws of the Tree Builder's parts: the priority set, its least weight, its candidates and the choice. -/

namespace Sys2Proof.Laws

open Sys2Proof Sys2Proof.Machine

@[simp] theorem mem_pqInsert {i j : Nat} {l : List Nat} : j ∈ pqInsert i l ↔ j = i ∨ j ∈ l := by
  induction l with
  | nil => simp [pqInsert]
  | cons k rest ih =>
    simp only [pqInsert]
    split
    · simp
    · split
      · subst i; simp
      · simp only [List.mem_cons, ih]
        constructor
        · rintro (h | h | h)
          · exact .inr (.inl h)
          · exact .inl h
          · exact .inr (.inr h)
        · rintro (h | h | h)
          · exact .inr (.inl h)
          · exact .inl h
          · exact .inr (.inr h)

/-- Insertion keeps the set ascending without repeats. -/
theorem pqInsert_sorted {l : List Nat} (i : Nat) (h : l.Pairwise (· < ·)) : (pqInsert i l).Pairwise (· < ·) := by
  induction l with
  | nil => simp [pqInsert]
  | cons k rest ih =>
    have hk := List.pairwise_cons.1 h
    simp only [pqInsert]
    split
    · rename_i hlt
      refine List.pairwise_cons.2 ⟨fun j hj => ?_, h⟩
      rcases List.mem_cons.1 hj with rfl | hj
      · exact hlt
      · exact Nat.lt_trans hlt (hk.1 j hj)
    · split
      · exact h
      · refine List.pairwise_cons.2 ⟨fun j hj => ?_, ih hk.2⟩
        rcases mem_pqInsert.1 hj with rfl | hj
        · omega
        · exact hk.1 j hj

/-- A new index above all others goes to the end. -/
theorem pqInsert_above {l : List Nat} {i : Nat} (h : ∀ j ∈ l, j < i) : pqInsert i l = l ++ [i] := by
  induction l with
  | nil => rfl
  | cons k rest ih =>
    have hk := h k List.mem_cons_self
    simp [pqInsert, Nat.lt_asymm hk, Nat.ne_of_gt hk, ih fun j hj => h j (List.mem_cons_of_mem _ hj)]

/-- The least weight is a lower bound of the weights. -/
theorem leastWeight_le (s : State) {l : List Nat} {i : Nat} (h : i ∈ l) : leastWeight s l ≤ (s.nodeAt i).weight := by
  induction l with
  | nil => cases h
  | cons k rest ih =>
    cases rest with
    | nil => simp at h; subst h; exact Nat.le_refl _
    | cons m rest =>
      rcases List.mem_cons.1 h with rfl | h
      · exact Nat.min_le_left _ _
      · exact Nat.le_trans (Nat.min_le_right _ _) (ih h)

/-- The least weight of a non-empty set is the weight of one of its members. -/
theorem leastWeight_attained (s : State) {l : List Nat} (h : l ≠ []) :
    ∃ i ∈ l, (s.nodeAt i).weight = leastWeight s l := by
  induction l with
  | nil => exact absurd rfl h
  | cons k rest ih =>
    cases rest with
    | nil => exact ⟨k, List.mem_cons_self, rfl⟩
    | cons m rest =>
      obtain ⟨i, hi, hw⟩ := ih (List.cons_ne_nil _ _)
      by_cases hle : (s.nodeAt k).weight ≤ leastWeight s (m :: rest)
      · exact ⟨k, List.mem_cons_self, (Nat.min_eq_left hle).symm⟩
      · exact ⟨i, List.mem_cons_of_mem _ hi, by rw [hw]; exact (Nat.min_eq_right (by omega)).symm⟩

theorem mem_candidates {s : State} {i : Nat} :
    i ∈ candidates s ↔ i ∈ s.pq ∧ (s.nodeAt i).weight = leastWeight s s.pq := by
  simp [candidates]

/-- There is a candidate whenever the set is not empty (41_tree_builder.md R123). -/
theorem candidates_ne_nil {s : State} (h : s.pq ≠ []) : candidates s ≠ [] := by
  obtain ⟨i, hi, hw⟩ := leastWeight_attained s h
  exact List.ne_nil_of_mem (mem_candidates.2 ⟨hi, hw⟩)

/-- Whatever the draw, the choice is one of the candidates (41_tree_builder.md R123). -/
theorem chooseBy_mem (draw : Nat) {l : List Nat} (h : l ≠ []) : chooseBy draw l ∈ l := by
  match l with
  | [] => exact absurd rfl h
  | [x] => exact List.mem_cons_self
  | x :: y :: rest =>
    have hlt : draw % (x :: y :: rest).length < (x :: y :: rest).length := Nat.mod_lt _ (by simp)
    simp only [chooseBy, List.getD_eq_getElem?_getD, List.getElem?_eq_getElem hlt, Option.getD_some]
    exact List.getElem_mem hlt

@[simp] theorem extractMin_pq (tie : Config.TieBreak) (s : State) :
    (extractMin tie s).2.pq = s.pq.erase (extractMin tie s).1 := rfl

@[simp] theorem extractMin_draws (tie : Config.TieBreak) (s : State) : (extractMin tie s).2.draws = s.draws + 1 := rfl

@[simp] theorem seedLeaf_nn (x : Nat) (s : State) : (seedLeaf s x).nn = s.nn + 1 := rfl
@[simp] theorem seedLeaf_pq (x : Nat) (s : State) : (seedLeaf s x).pq = pqInsert s.nn s.pq := rfl
@[simp] theorem merge_nn (tie : Config.TieBreak) (s : State) : (merge tie s).nn = s.nn + 1 := rfl
@[simp] theorem merge_draws (tie : Config.TieBreak) (s : State) : (merge tie s).draws = s.draws + 2 := rfl

theorem mergeTimes_nn (tie : Config.TieBreak) (n : Nat) (s : State) : (mergeTimes tie n s).nn = s.nn + n := by
  induction n generalizing s with
  | zero => rfl
  | succ n ih => simp [mergeTimes, ih]; omega

theorem foldl_seedLeaf_nn (l : List Nat) (s : State) : (l.foldl seedLeaf s).nn = s.nn + l.length := by
  induction l generalizing s with
  | nil => rfl
  | cons x l ih => simp [ih]; omega

/-- The keys are ascending symbol values with a positive count (41_tree_builder.md R121). -/
theorem mem_keys {s : State} {x : Nat} : x ∈ s.keys ↔ x < Config.nsym ∧ 0 < s.freqAt x := by
  simp [State.keys]

theorem keys_sorted (s : State) : s.keys.Pairwise (· < ·) := List.pairwise_lt_range.filter _

theorem keys_length_le (s : State) : s.keys.length ≤ Config.nsym := by
  simpa [State.keys] using List.length_filter_le (fun x => decide (0 < s.freqAt x)) (List.range Config.nsym)

end Sys2Proof.Laws
end

