-- ==== Sys2Proof/Laws/Exec.lean ====
section
/-! SUPPORT. What CEND, exec and step can do, said once: their case lemmas, and the fields of the model's own that no
command changes. -/

namespace Sys2Proof.Laws

open Sys2Proof Sys2Proof.Machine

/-- What CEND can answer with a next state (41_tree_builder.md R120): a latched error, the empty input, or the codec. -/
theorem cendWith_next {tie : Config.TieBreak} {s t : State} (h : cendWith tie s = .next t) :
    (∃ e, s.terr = some e ∧ t = { s with terr := none, phase := .empty, resp := e.resp })
      ∨ (s.terr = none ∧ s.ntotal = 0 ∧ t = { s with phase := .empty, resp := .emptyInput })
      ∨ (s.terr = none ∧ s.ntotal ≠ 0 ∧ s.nn = 0 ∧ s.pq = [] ∧ s.keys ≠ [] ∧ t = buildCodec tie s) := by
  unfold cendWith at h
  split at h
  · rename_i e he
    cases h
    exact .inl ⟨e, he, rfl⟩
  · rename_i he
    split at h
    · cases h
      exact .inr (.inl ⟨he, ‹_›, rfl⟩)
    · split at h
      · cases h
      · rename_i hn hf
        have hf' : s.nn = 0 ∧ s.pq = [] := by
          constructor
          · exact Classical.byContradiction fun c => hf (.inl c)
          · exact Classical.byContradiction fun c => hf (.inr c)
        split at h
        · cases h
        · cases h
          exact .inr (.inr ⟨he, hn, hf'.1, hf'.2, ‹_›, rfl⟩)

/-- What DBIT can answer with a next state (44_decode.md R161), one case for each path through its rule. -/
theorem descend_next {b : Bool} {s t : State} (h : descend b s = .next t) :
    (s.root < Config.nodeMax ∧ (s.nodeAt s.root).kind = .leaf ∧ b = true ∧ t = (s.latch .invalidBit).respondOk)
      ∨ (s.root < Config.nodeMax ∧ (s.nodeAt s.root).kind = .leaf ∧ b = false
          ∧ emit (s.nodeAt s.root).sym s (fun u => .next u.respondOk) = .next t)
      ∨ (s.root < Config.nodeMax ∧ (s.nodeAt s.root).kind = .internal ∧ s.cur < Config.nodeMax
          ∧ (s.nodeAt s.cur).child b < Config.nodeMax
          ∧ (((s.nodeAt ((s.nodeAt s.cur).child b)).kind = .internal
                ∧ t = State.respondOk { s with cur := (s.nodeAt s.cur).child b })
            ∨ ((s.nodeAt ((s.nodeAt s.cur).child b)).kind = .leaf
                ∧ emit (s.nodeAt ((s.nodeAt s.cur).child b)).sym { s with cur := (s.nodeAt s.cur).child b }
                    (fun u => .next (State.respondOk { u with cur := u.root })) = .next t))) := by
  obtain ⟨hr, h⟩ := withNode_next h
  split at h
  · split at h
    · cases h
      exact .inl ⟨hr, ‹_›, ‹_›, rfl⟩
    · exact .inr (.inl ⟨hr, ‹_›, by simpa using ‹¬b = true›, h⟩)
  · obtain ⟨hc, h⟩ := withNode_next h
    obtain ⟨hm, h⟩ := withNode_next h
    refine .inr (.inr ⟨hr, ‹_›, hc, hm, ?_⟩)
    split at h
    · exact .inr ⟨‹_›, h⟩
    · cases h
      exact .inl ⟨‹_›, rfl⟩

/-- No command changes the block's parameters, the command port or the number of resets. -/
theorem exec_keeps_model {i : Instr} {s t : State} (h : exec i s = .next t) :
    t.cfg = s.cfg ∧ t.port = s.port ∧ t.resets = s.resets := by
  have out : ∀ {r : Resp}, t = s.raise r → t.cfg = s.cfg ∧ t.port = s.port ∧ t.resets = s.resets := by
    rintro r rfl; exact ⟨rfl, rfl, rfl⟩
  have em : ∀ {x : Byte} {u : State} {k : State → Outcome},
      (∀ v w : State, k v = .next w → w.cfg = v.cfg ∧ w.port = v.port ∧ w.resets = v.resets) →
      emit x u k = .next t → t.cfg = u.cfg ∧ t.port = u.port ∧ t.resets = u.resets := by
    intro x u k hk he
    rcases emit_next he with ⟨_, he⟩ | ⟨_, _, he⟩ <;> simpa using hk _ _ he
  cases i with
  | clr =>
    obtain ⟨_, h⟩ | ⟨_, h⟩ := whenLegal_cases h
    · cases h; exact ⟨rfl, rfl, rfl⟩
    · cases h; exact ⟨rfl, rfl, rfl⟩
  | cbegin =>
    obtain ⟨_, h⟩ | ⟨_, h⟩ := whenLegal_cases h
    · cases h; exact ⟨rfl, rfl, rfl⟩
    · cases h; exact ⟨rfl, rfl, rfl⟩
  | csym data =>
    obtain ⟨_, h⟩ | ⟨_, h⟩ := whenLegal_cases h
    · cases h
      simp only [csymEffect, respondOk_cfg, respondOk_port, respondOk_resets]
      split
      · exact ⟨rfl, rfl, rfl⟩
      · split <;> simp
    · cases h; exact ⟨rfl, rfl, rfl⟩
  | cend =>
    obtain ⟨_, h⟩ | ⟨_, h⟩ := whenLegal_cases h
    · rcases cendWith_next h with ⟨e, _, rfl⟩ | ⟨_, _, rfl⟩ | ⟨_, _, _, _, _, rfl⟩
      · exact ⟨rfl, rfl, rfl⟩
      · exact ⟨rfl, rfl, rfl⟩
      · simp
    · cases h; exact ⟨rfl, rfl, rfl⟩
  | ebegin =>
    obtain ⟨_, h⟩ | ⟨_, h⟩ := whenLegal_cases h
    · cases h; exact ⟨rfl, rfl, rfl⟩
    · cases h; exact ⟨rfl, rfl, rfl⟩
  | esym data =>
    obtain ⟨_, h⟩ | ⟨_, h⟩ := whenLegal_cases h
    · cases h
      simp only [esymEffect, respondOk_cfg, respondOk_port, respondOk_resets]
      split
      · exact ⟨rfl, rfl, rfl⟩
      · split
        · simp
        · split <;> simp
    · cases h; exact ⟨rfl, rfl, rfl⟩
  | eend =>
    obtain ⟨_, h⟩ | ⟨_, h⟩ := whenLegal_cases h
    · cases h; simp
    · cases h; exact ⟨rfl, rfl, rfl⟩
  | dbegin =>
    obtain ⟨_, h⟩ | ⟨_, h⟩ := whenLegal_cases h
    · cases h; exact ⟨rfl, rfl, rfl⟩
    · cases h; exact ⟨rfl, rfl, rfl⟩
  | dbit data =>
    obtain ⟨_, h⟩ | ⟨_, h⟩ := whenLegal_cases h
    · unfold dbitEffect at h
      split at h
      · cases h; exact ⟨rfl, rfl, rfl⟩
      · split at h
        · cases h; simp
        · rcases descend_next h with ⟨_, _, _, rfl⟩ | ⟨_, _, _, h⟩ | ⟨_, _, _, _, ⟨_, rfl⟩ | ⟨_, h⟩⟩
          · simp
          · exact em (k := fun u => Host.Outcome.next u.respondOk) (fun v w hw => by cases hw; exact ⟨rfl, rfl, rfl⟩) h
          · exact ⟨rfl, rfl, rfl⟩
          · exact em (u := { s with cur := (s.nodeAt s.cur).child _ })
              (k := fun u => Host.Outcome.next (State.respondOk { u with cur := u.root }))
              (fun v w hw => by cases hw; exact ⟨rfl, rfl, rfl⟩) h
    · cases h; exact ⟨rfl, rfl, rfl⟩
  | dend =>
    obtain ⟨_, h⟩ | ⟨_, h⟩ := whenLegal_cases h
    · cases h; simp
    · cases h; exact ⟨rfl, rfl, rfl⟩

/-- What one step can do with a next state: nothing, a reset, a refused word, or a command. -/
theorem step_next {s t : State} (h : step s = .next t) :
    (s.port = [] ∧ t = s)
      ∨ (∃ rest, s.port = .reset :: rest ∧ t = resetBlock { s with port := rest })
      ∨ (∃ w rest e, s.port = .word w :: rest ∧ decode w = .error e ∧ t = { s with port := rest, resp := .badCommand })
      ∨ (∃ w rest i, s.port = .word w :: rest ∧ decode w = .ok i ∧ exec i { s with port := rest } = .next t) := by
  cases hp : s.port with
  | nil =>
    simp only [step, State.takeInput, hp] at h
    cases h
    exact .inl ⟨rfl, rfl⟩
  | cons ev rest =>
    cases ev with
    | reset =>
      simp only [step, State.takeInput, hp] at h
      cases h
      exact .inr (.inl ⟨rest, rfl, rfl⟩)
    | word w =>
      simp only [step, State.takeInput, hp] at h
      cases hd : decode w with
      | error e =>
        simp only [hd] at h
        cases h
        exact .inr (.inr (.inl ⟨w, rest, e, rfl, hd, rfl⟩))
      | ok i =>
        simp only [hd] at h
        exact .inr (.inr (.inr ⟨w, rest, i, rfl, hd, h⟩))

/-- A run of commands with a next state: the first command's, then the rest's. -/
theorem runCommands_cons_next {i : Instr} {rest : List Instr} {s t : State}
    (h : runCommands (i :: rest) s = .next t) : ∃ u, exec i s = .next u ∧ runCommands rest u = .next t := by
  simp only [runCommands] at h
  split at h
  · exact ⟨_, ‹_›, h⟩
  · cases h
  · cases h

theorem runCommands_append {is js : List Instr} {s u : State} (h : runCommands is s = .next u) :
    runCommands (is ++ js) s = runCommands js u := by
  induction is generalizing s with
  | nil => cases h; rfl
  | cons i is ih =>
    obtain ⟨v, hv, h⟩ := runCommands_cons_next h
    simp only [List.cons_append, runCommands, hv, ih h]

/-- A macro-operation whose first command is not refused is its command stream. -/
theorem issueMacro_of_accepted {m : Macro} {first : Instr} {rest : List Instr} {s t : State}
    (hm : expand m = first :: rest) (h : exec first s = .next t) (hr : t.resp ≠ .badSequence) :
    issueMacro m s = runMacro m s := by
  simp only [issueMacro, runMacro, hm, runCommands, h, if_neg hr]

/-- A macro-operation whose first command is refused ends with that refusal. -/
theorem issueMacro_of_refused {m : Macro} {first : Instr} {rest : List Instr} {s t : State}
    (hm : expand m = first :: rest) (h : exec first s = .next t) (hr : t.resp = .badSequence) :
    issueMacro m s = .next t := by
  simp only [issueMacro, hm, h, if_pos hr]

end Sys2Proof.Laws
end

