-- ==== Sys2Proof/Laws/PerInstr.lean ====
section
/-! SUPPORT. Facts of every instruction as syntax, one lemma a constructor: the fields of its command are those of a
well-formed command word (30_encoding.md R91, R93, R94). -/

namespace Sys2Proof.Laws.FieldsWellFormed

open Sys2Proof

/-- The command of `i` passes the three decoding checks of 30_encoding.md R94 and names `i`. -/
def Statement (i : Instr) : Prop :=
  i.toCommand.wellFormed = true ∧ commandOf i.toCommand.op i.toCommand.data = some i

theorem clr : Statement .clr := ⟨by decide, rfl⟩
theorem cbegin : Statement .cbegin := ⟨by decide, rfl⟩
theorem csym (data : Byte) : Statement (.csym data) := ⟨rfl, rfl⟩
theorem cend : Statement .cend := ⟨by decide, rfl⟩
theorem ebegin : Statement .ebegin := ⟨by decide, rfl⟩
theorem esym (data : Byte) : Statement (.esym data) := ⟨rfl, rfl⟩
theorem eend : Statement .eend := ⟨by decide, rfl⟩
theorem dbegin : Statement .dbegin := ⟨by decide, rfl⟩
theorem dbit (data : Byte) : Statement (.dbit data) := ⟨rfl, rfl⟩
theorem dend : Statement .dend := ⟨by decide, rfl⟩

end Sys2Proof.Laws.FieldsWellFormed
end

