-- ==== Sys2Proof/Laws/Safety.lean ====
section
/-! SUPPORT. What the predicates of Safety.lean depend on: two states that agree on the codec and the map (SameCodec), the
parameters and the reset count meet the same of them. -/

namespace Sys2Proof.Laws

open Sys2Proof Sys2Proof.Machine Sys2Proof.Safety

variable {s t : State}

theorem keys_congr (hf : t.freq = s.freq) (hc : t.cfg = s.cfg) (hr : t.resets = s.resets) : t.keys = s.keys := by
  unfold State.keys
  exact List.filter_congr fun x _ => by rw [freqAt_congr hf hc hr]

theorem mapOk_congr (hf : t.freq = s.freq) (hn : t.ntotal = s.ntotal) (hc : t.cfg = s.cfg) (hr : t.resets = s.resets)
    (h : MapOk s) : MapOk t where
  written x hx := hf ▸ h.written x hx
  total := by
    rw [hn, ← h.total]
    exact congrArg List.sum (List.map_congr_left fun x _ => freqAt_congr hf hc hr x)
  bounded := by rw [hn, hc]; exact h.bounded

theorem treeOk_congr (hf : t.freq = s.freq) (hnode : t.node = s.node) (hnn : t.nn = s.nn) (hk : t.ksyms = s.ksyms)
    (hroot : t.root = s.root) (hc : t.cfg = s.cfg) (hr : t.resets = s.resets) (h : TreeOk s) : TreeOk t := by
  have hat := nodeAt_congr hnode hc hr
  have hkeys := keys_congr hf hc hr
  have hpar : ∀ i, parents t i = parents s i := fun i => by simp only [parents, hnn, hat]
  refine ⟨by rw [hk, hkeys]; exact h.ksymsKeys, by rw [hk]; exact h.ksymsPos, by rw [hnn, hk]; exact h.nodeCount,
    by rw [hroot, hnn]; exact h.rootLast, by rw [hnn, hnode]; exact h.written, ?_, ?_, ?_, ?_⟩
  · intro i hi
    rw [hat, hkeys, h.leaves i (hk ▸ hi)]
    simp only [leafOf, freqAt_congr hf hc hr]
  · intro i h1 h2
    obtain ⟨a, b, c, d, e, f, g⟩ := h.internals i (hnn ▸ h1) (hk ▸ h2)
    exact ⟨by rw [hat, a], by rw [hat, b], by rwa [hat], by rwa [hat], by rwa [hat], by simpa only [hat] using f,
      by simpa only [hat] using g⟩
  · intro i hi
    rw [hpar, hroot]
    exact h.singleParent i (hnn ▸ hi)
  · intro i h1 h2 h3
    rw [hat, hat]
    exact h.weightOrder i (hnn ▸ h1) (hk ▸ h2) (hnn ▸ h3)

theorem descendPath_congr (hnode : t.node = s.node) (hc : t.cfg = s.cfg) (hr : t.resets = s.resets) (i : Nat)
    (a : List Bool) : descendPath t i a = descendPath s i a := by
  induction a generalizing i with
  | nil => rfl
  | cons b rest ih => simp only [descendPath, nodeAt_congr hnode hc hr, ih]

theorem codecOk_congr (hs : SameCodec s t) (hc : t.cfg = s.cfg) (hr : t.resets = s.resets) (h : CodecOk s) :
    CodecOk t := by
  obtain ⟨hf, hn, hnode, hnn, hk, hroot, hcode⟩ := hs
  have htree := treeOk_congr hf hnode hnn hk hroot hc hr h.tree
  refine ⟨mapOk_congr hf hn hc hr h.map, by rw [hn]; exact h.positive, htree, fun x hx => ?_⟩
  obtain ⟨a, b, c, d, e⟩ := h.code x hx
  refine ⟨by rwa [hcode], ?_, ?_, ?_, ?_⟩ <;>
    simp only [freqAt_congr hf hc hr, codeAt_congr hcode hr, nodeAt_congr hnode hc hr, descendPath_congr hnode hc hr, hk,
      hroot]
  · exact b
  · exact c
  · exact d
  · exact e

theorem counting_congr (hs : SameCodec s t) (hc : t.cfg = s.cfg) (hr : t.resets = s.resets) (h : Counting s) :
    Counting t := by
  obtain ⟨hf, hn, -, hnn, -, -, hcode⟩ := hs
  exact ⟨mapOk_congr hf hn hc hr h.map, by rw [hnn]; exact h.fresh, by rw [hcode]; exact h.blank⟩

/-- The invariants do not look at the command port, nor at `resp`. -/
theorem inv_port_resp (h : Inv s) (ps : List PortEvent) (r : Resp) : Inv { s with port := ps, resp := r } where
  cfg := h.cfg
  canonical := h.canonical
  inRange := h.inRange
  sequencing := ⟨h.sequencing.1, h.sequencing.2, h.sequencing.3, h.sequencing.4, h.sequencing.5, h.sequencing.6⟩
  counting hp := counting_congr (s := s) ⟨rfl, rfl, rfl, rfl, rfl, rfl, rfl⟩ rfl rfl (h.counting hp)
  codec hp := codecOk_congr (s := s) ⟨rfl, rfl, rfl, rfl, rfl, rfl, rfl⟩ rfl rfl (h.codec hp)
  staged := h.staged
  emitted := h.emitted
  cursor := h.cursor
  bits := h.bits
  syms := h.syms

end Sys2Proof.Laws
end

