-- ==== Sys2Proof/Tests/Slice0.lean ====
section
/-! SUPPORT. Tests from the worked examples and vectors of spec/ (95_test_vectors.md V<n>, the examples of the rules), the
smoke test of WellFormed, and a witness for the hypotheses of each statement that has some. -/

namespace Sys2Proof.Tests

open Sys2Proof Sys2Proof.Machine Sys2Proof.Safety

/-- The outcome is a next state with the property. -/
def answers (o : Outcome) (p : State → Bool) : Bool :=
  match o with
  | .next t => p t
  | .fault _ => false
  | .refused _ => false

/-! ## Well-formedness: an ill-formed term for each check -/

theorem test_op_undefined : Command.wellFormed { op := 0x0, rsv := 0, data := 0 } = false := by decide
theorem test_op_beyond : Command.wellFormed { op := 0xB, rsv := 0, data := 0 } = false := by decide
theorem test_reserved_not_zero : Command.wellFormed { op := 0x3, rsv := 1, data := 0x61 } = false := by decide
theorem test_data_not_zero : Command.wellFormed { op := 0x1, rsv := 0, data := 1 } = false := by decide
theorem test_line_operand_missing : AsmLine.wellFormed { mnemonic := .csym, operand := none } = false := by decide
theorem test_line_operand_unwanted : AsmLine.wellFormed { mnemonic := .clr, operand := some (.hex 0) } = false := by
  decide
theorem test_line_operand_too_big : AsmLine.wellFormed { mnemonic := .dbit, operand := some (.decimal 256) } = false := by
  decide
theorem test_line_hex_too_big : AsmLine.wellFormed { mnemonic := .dbit, operand := some (.hex 256) } = false := by decide
theorem test_line_not_printable :
    AsmLine.wellFormed { mnemonic := .esym, operand := some (.quoted (Char.ofNat 7)) } = false := by decide

/-! ## Decoding: the words of 30_encoding.md R93 and 95_test_vectors.md section 2.1 -/

theorem test_decode_clr : decodeTableWord 16 0b0001000000000000 = some .clr := by decide
theorem test_decode_cbegin : decodeTableWord 16 0b0010000000000000 = some .cbegin := by decide
theorem test_decode_csym : decodeTableWord 16 0b0011000001100001 = some (.csym 0x61) := by decide
theorem test_decode_csym_all_ones : decodeTableWord 16 0b0011000011111111 = some (.csym 0xFF) := by decide
theorem test_decode_cend : decodeTableWord 16 0b0100000000000000 = some .cend := by decide
theorem test_decode_ebegin : decodeTableWord 16 0b0101000000000000 = some .ebegin := by decide
theorem test_decode_esym : decodeTableWord 16 0b0110000001110111 = some (.esym 0x77) := by decide
theorem test_decode_eend : decodeTableWord 16 0b0111000000000000 = some .eend := by decide
theorem test_decode_dbegin : decodeTableWord 16 0b1000000000000000 = some .dbegin := by decide
theorem test_decode_dbit : decodeTableWord 16 0b1001000000110001 = some (.dbit 0x31) := by decide
theorem test_decode_dend : decodeTableWord 16 0b1010000000000000 = some .dend := by decide
theorem test_illegal_words_V14_V17 :
    [0x0000, 0xB000, 0xF0FF, 0x3161, 0x1001, 0x40FF, 0x7001].all (fun w => (decodeTableWord 16 w).isNone) = true := by
  decide
theorem test_encode_words :
    [encode (.csym 0x61), encode (.dbit 0x31), encode .cend] = [0x3061#16, 0x9031#16, 0x4000#16] := by decide

/-! ## Text form: the examples of 30_encoding.md R97 and R98 -/

theorem test_assemble_csym : assembleText ['C', 'S', 'Y', 'M', ' ', '\'', 'a', '\''] = some 0x3061#16 := by decide
theorem test_assemble_dbit : assembleText ['D', 'B', 'I', 'T', ' ', '\'', '1', '\''] = some 0x9031#16 := by decide
theorem test_assemble_cend : assembleText ['C', 'E', 'N', 'D', ' ', ';', 'x'] = some 0x4000#16 := by decide
theorem test_read_construct_empty :
    readMacro ['C', 'O', 'N', 'S', 'T', 'R', 'U', 'C', 'T', ' ', '"', '"'] = some (.construct []) := by decide
theorem test_construct_words_P1 :
    macroWords (.construct [0x61, 0x62]) = [0x2000#16, 0x3061#16, 0x3062#16, 0x4000#16] := by decide

/-! ## States -/

/-- The parameters at the boundary of "aab": N_MAX = 3, RBUF_CAP = 2. -/
abbrev small : Config.Params := { weightW := some 2, rbufCap := some 2 }

/-- A construction that has counted "aab" (V21b: no tie), with FREQ and CODE as CBEGIN leaves them but for the counts. -/
def counted : State :=
  { State.reset with
    phase := .count, ntotal := 3, cfg := small
    freq := ((Memory.fill Config.nsym 0).write 97 2).write 98 1, code := Memory.fill Config.nsym .absent }

/-- The codec of "aab" (V21b: code of a is "1", of b is "0"), in a phase. -/
def codec (p : Phase) : State :=
  { State.reset with
    phase := p, ntotal := 3, ksyms := 2, nn := 3, root := 2, cur := 2, cfg := small
    freq := ((Memory.fill Config.nsym 0).write 97 2).write 98 1
    node := [(0, ⟨.leaf, 2, 0x61, 0, 0⟩), (1, ⟨.leaf, 1, 0x62, 0, 0⟩), (2, ⟨.internal, 3, 0, 1, 0⟩)]
    code := ((Memory.fill Config.nsym .absent).write 97 (.ofPath [true])).write 98 (.ofPath [false]) }

/-- The codec of "aaaa" (V21c), in a phase. -/
def soleCodec (p : Phase) : State :=
  { State.reset with
    phase := p, ntotal := 4, ksyms := 1, nn := 1, root := 0
    freq := (Memory.fill Config.nsym 0).write 97 4
    node := [(0, ⟨.leaf, 4, 0x61, 0, 0⟩)]
    code := (Memory.fill Config.nsym .absent).write 97 (.ofPath [false]) }

/-- The nodes and the code table of "ab" under TIE_REF (V21), in a phase. -/
def codecAb (p : Phase) : State :=
  { State.reset with
    phase := p, ntotal := 2, ksyms := 2, nn := 3, root := 2, cur := 2
    node := [(0, ⟨.leaf, 1, 0x61, 0, 0⟩), (1, ⟨.leaf, 1, 0x62, 0, 0⟩), (2, ⟨.internal, 2, 0, 0, 1⟩)]
    code := [(97, .ofPath [false]), (98, .ofPath [true])] }

/-- Four nodes with a tie between three of the least weight, as after SEED of "xyz" and one heavier key. -/
def tied : State :=
  { State.reset with
    phase := .count, nn := 4, pq := [0, 1, 2, 3]
    node := [(0, ⟨.leaf, 1, 0x78, 0, 0⟩), (1, ⟨.leaf, 1, 0x79, 0, 0⟩), (2, ⟨.leaf, 1, 0x7A, 0, 0⟩), (3, ⟨.leaf, 2, 0x7B, 0, 0⟩)] }

/-! ## One step of each command -/

/-- 45_lifecycle.md R170, example. -/
theorem test_clr : answers (exec .clr { codecAb .enc with wlen := 5 })
    (fun t => t.phase = .empty ∧ t.rlen = 0 ∧ t.wlen = 0 ∧ t.resp = .ok ∧ t.nn = 0) = true := by decide

/-- V20a. -/
theorem test_cbegin : answers (exec .cbegin .reset)
    (fun t => t.phase = .count ∧ t.ntotal = 0 ∧ t.freqAt 0x7A = 0 ∧ (t.codeAt 0x7A).valid = false ∧ t.resp = .ok)
    = true := by decide

/-- 40_freq_analyzer.md R111, example. -/
theorem test_csym : answers (exec (.csym 0x61) { State.reset with phase := .count, ntotal := 3, freq := [(0x61, 1)] })
    (fun t => t.freqAt 0x61 = 2 ∧ t.ntotal = 4 ∧ t.resp = .ok) = true := by decide

/-- V20e: WEIGHT_W = 2, three counted. -/
theorem test_csym_capacity :
    answers (exec (.csym 0x62)
        { State.reset with phase := .count, ntotal := 3, freq := [(0x61, 3), (0x62, 0)], cfg := ⟨some 2, some 4⟩ })
      (fun t => t.ntotal = 3 ∧ t.freqAt 0x62 = 0 ∧ t.terr = some .capacity ∧ t.resp = .ok) = true := by decide

/-- V3: an empty construction. -/
theorem test_cend_empty_input : answers (exec .cend { State.reset with phase := .count })
    (fun t => t.phase = .empty ∧ t.resp = .emptyInput) = true := by decide

/-- V21b: the lighter 'b' is the left child; a is "1", b is "0". -/
theorem test_cend_builds_V21b : answers (exec .cend counted)
    (fun t => t.nodeAt 2 = ⟨.internal, 3, 0, 1, 0⟩ ∧ t.root = 2 ∧ (t.codeAt 97).path = [true] ∧ (t.codeAt 98).path = [false])
    = true := by decide +kernel

/-- V23 (the tie-break at a merge, TIE_REF): the lowest indices of the three lightest nodes are joined. -/
theorem test_merge_tie_ref :
    (merge Config.tieRef tied).nodeAt 4 = ⟨.internal, 2, 0, 0, 1⟩ ∧ (merge Config.tieRef tied).pq = [2, 3, 4] := by decide

/-- R123: another tie-break joins others of the lightest. -/
theorem test_merge_other_tie : (merge (fun _ => 2) tied).nodeAt 4 = ⟨.internal, 2, 0, 2, 0⟩ := by decide

/-- 43_encode.md R150, example. -/
theorem test_ebegin : answers (exec .ebegin { codecAb .ready with rkind := .syms, rlen := 2 })
    (fun t => t.phase = .enc ∧ t.rkind = .none ∧ t.rlen = 0 ∧ t.resp = .ok) = true := by decide

/-- 43_encode.md R151, example: a is "01", b is "10", wlen = 2. -/
theorem test_esym :
    answers (exec (.esym 0x62)
        { State.reset with
          phase := .enc, wlen := 2, code := [(0x61, .ofPath [false, true]), (0x62, .ofPath [true, false])] })
      (fun t => t.rbufAt 2 = 0x31 ∧ t.rbufAt 3 = 0x30 ∧ t.wlen = 4 ∧ t.resp = .ok) = true := by decide

/-- V39: RBUF_CAP = 4, the fifth character does not fit. -/
theorem test_esym_capacity :
    answers (exec (.esym 0x61) { codecAb .enc with wlen := 4, cfg := ⟨some 32, some 4⟩ })
      (fun t => t.terr = some .capacity ∧ t.wlen = 4 ∧ t.resp = .ok) = true := by decide

/-- 43_encode.md R152, example. -/
theorem test_eend :
    answers (exec .eend { codecAb .enc with wlen := 2, rbuf := [(0, 0x30), (1, 0x31)] })
      (fun t => t.result = [0x30, 0x31] ∧ t.rkind = .bits ∧ t.phase = .ready ∧ t.resp = .ok) = true := by decide

/-- V33: the latched UnknownSymbol is reported and the staged bytes are not readable. -/
theorem test_eend_unknown :
    answers (exec .eend { codecAb .enc with wlen := 1, terr := some .unknownSymbol, rbuf := [(0, 0x30)] })
      (fun t => t.resp = .unknownSymbol ∧ t.rkind = .none ∧ t.rdata 0 = 0x00 ∧ t.terr = none) = true := by decide

/-- 44_decode.md R160, example. -/
theorem test_dbegin : answers (exec .dbegin { codecAb .ready with root := 6, rkind := .bits, rlen := 1 })
    (fun t => t.phase = .dec ∧ t.cur = 6 ∧ t.rkind = .none ∧ t.rlen = 0 ∧ t.resp = .ok) = true := by decide

/-- 44_decode.md R161, example. -/
theorem test_dbit : answers (exec (.dbit 0x31) (codecAb .dec))
    (fun t => t.rbufAt 0 = 0x62 ∧ t.wlen = 1 ∧ t.cur = 2 ∧ t.resp = .ok) = true := by decide

/-- V48: a '1' when K = 1. -/
theorem test_dbit_sole : answers (exec (.dbit 0x31) (soleCodec .dec))
    (fun t => t.terr = some .invalidBit ∧ t.wlen = 0 ∧ t.resp = .ok) = true := by decide

/-- V40: a bit-string that ends at the root. -/
theorem test_dend : answers (exec .dend { codecAb .dec with wlen := 1, rbuf := [(0, 0x62)] })
    (fun t => t.result = [0x62] ∧ t.rkind = .syms ∧ t.resp = .ok ∧ t.phase = .ready) = true := by decide

/-- V43: a bit-string that ends inside a code. -/
theorem test_dend_truncated : answers (exec .dend { codecAb .dec with cur := 1 })
    (fun t => t.resp = .truncatedCode ∧ t.rkind = .none ∧ t.rlen = 0 ∧ t.phase = .ready) = true := by decide

/-- V54: an illegal word does not disturb a committed result. -/
theorem test_step_illegal_word :
    answers (step ({ codecAb .ready with rkind := .bits, rlen := 1, rbuf := [(0, 0x30)] }.withFetchWord 16 0x0000))
      (fun t => t.resp = .badCommand ∧ t.rlen = 1 ∧ t.rdata 0 = 0x30) = true := by decide

/-- V50: EBEGIN in the reset state. -/
theorem test_step_ebegin_after_reset : answers (step (State.reset.withFetchWord 16 0x5000))
    (fun t => t.resp = .badSequence ∧ t.phase = .empty) = true := by decide

/-- V59: reset. -/
theorem test_step_reset : answers (step { codecAb .dec with port := [.reset] })
    (fun t => t.phase = .empty ∧ t.nn = 0 ∧ t.node = [] ∧ t.port = []) = true := by decide

/-- R178, its example, and an ENCODE issued while one is open. -/
theorem test_issue_encode_out_of_phase :
    answers (issueMacro (.encode [0x61, 0x62]) .reset) (fun t => t = { State.reset with resp := .badSequence }) = true
      ∧ answers (issueMacro (.encode [0x61]) (codecAb .enc)) (fun t => t = { codecAb .enc with resp := .badSequence })
        = true := by decide

/-! ## Witnesses: states that meet the invariants -/

theorem codec_freqAt (p : Phase) {x : Nat} (h : x < 256) :
    (codec p).freqAt x = if x = 98 then 1 else if x = 97 then 2 else 0 := by
  simp only [State.freqAt, codec, Laws.read_write, Laws.read_fill 0 h]
  split
  · rfl
  · split <;> rfl

theorem counted_freqAt {x : Nat} (h : x < 256) :
    counted.freqAt x = if x = 98 then 1 else if x = 97 then 2 else 0 := codec_freqAt .count h

theorem codec_codeAt (p : Phase) {x : Nat} (h : x < 256) :
    (codec p).codeAt x = if x = 98 then .ofPath [false] else if x = 97 then .ofPath [true] else .absent := by
  simp only [State.codeAt, codec, Laws.read_write, Laws.read_fill _ h]
  split
  · rfl
  · split <;> rfl

theorem sole_freqAt (p : Phase) {x : Nat} (h : x < 256) : (soleCodec p).freqAt x = if x = 97 then 4 else 0 := by
  simp only [State.freqAt, soleCodec, Laws.read_write, Laws.read_fill 0 h]
  split <;> rfl

theorem sole_codeAt (p : Phase) {x : Nat} (h : x < 256) :
    (soleCodec p).codeAt x = if x = 97 then .ofPath [false] else .absent := by
  simp only [State.codeAt, soleCodec, Laws.read_write, Laws.read_fill _ h]
  split <;> rfl

/-- A map's total is the sum of any function that agrees with it on the symbols. -/
theorem freqTotal_of (s : State) (f : Nat → Nat) (h : ∀ x < 256, s.freqAt x = f x) :
    freqTotal s = ((List.range 256).map f).sum := by
  unfold freqTotal
  rw [List.map_congr_left fun x hx => h x (List.mem_range.1 hx)]

theorem keys_of (s : State) (f : Nat → Nat) (h : ∀ x < 256, s.freqAt x = f x) :
    s.keys = (List.range 256).filter fun x => 0 < f x := by
  unfold State.keys
  exact List.filter_congr fun x hx => by rw [h x (List.mem_range.1 hx)]

theorem codec_keys (p : Phase) : (codec p).keys = [97, 98] := by
  rw [keys_of (codec p) _ fun x hx => codec_freqAt p hx]; decide +kernel

theorem counted_keys : counted.keys = [97, 98] := by
  rw [keys_of counted _ fun x hx => counted_freqAt hx]; decide +kernel

theorem sole_keys (p : Phase) : (soleCodec p).keys = [97] := by
  rw [keys_of (soleCodec p) _ fun x hx => sole_freqAt p hx]; decide +kernel

theorem codec_map (p : Phase) : MapOk (codec p) where
  written x hx := by
    simp only [codec, Laws.read_write, Laws.read_fill 0 hx]
    split
    · rfl
    · split <;> rfl
  total := by
    rw [freqTotal_of (codec p) _ fun x hx => codec_freqAt p hx]
    show ((List.range 256).map fun x => if x = 98 then 1 else if x = 97 then 2 else 0).sum = 3
    decide +kernel
  bounded c hc := by cases hc; cases p <;> decide

theorem sole_map (p : Phase) : MapOk (soleCodec p) where
  written x hx := by
    simp only [soleCodec, Laws.read_write, Laws.read_fill 0 hx]
    split <;> rfl
  total := by
    rw [freqTotal_of (soleCodec p) _ fun x hx => sole_freqAt p hx]
    show ((List.range 256).map fun x => if x = 97 then 4 else 0).sum = 4
    decide +kernel
  bounded c hc := by cases hc; cases p <;> decide

theorem codec_tree (p : Phase) : TreeOk (codec p) where
  ksymsKeys := by rw [codec_keys]; rfl
  ksymsPos := Nat.le_succ 1
  nodeCount := rfl
  rootLast := rfl
  written := by cases p <;> decide
  leaves := by
    rw [codec_keys]
    intro i hi
    obtain rfl | rfl : i = 0 ∨ i = 1 := by have : i < 2 := hi; omega
    · simp [leafOf, codec_freqAt p (show 97 < 256 by decide)]; rfl
    · simp [leafOf, codec_freqAt p (show 98 < 256 by decide)]; rfl
  internals i h1 h2 := by
    obtain rfl : i = 2 := by have : i < 3 := h1; have : 2 ≤ i := h2; omega
    exact ⟨rfl, rfl, by cases p <;> decide, by cases p <;> decide, by cases p <;> decide, rfl, by cases p <;> decide⟩
  singleParent := by cases p <;> decide
  weightOrder := by cases p <;> decide

theorem sole_tree (p : Phase) : TreeOk (soleCodec p) where
  ksymsKeys := by rw [sole_keys]; rfl
  ksymsPos := Nat.le_refl 1
  nodeCount := rfl
  rootLast := rfl
  written := by cases p <;> decide
  leaves := by
    rw [sole_keys]
    intro i hi
    obtain rfl : i = 0 := by have : i < 1 := hi; omega
    simp [leafOf, sole_freqAt p (show 97 < 256 by decide)]; rfl
  internals i h1 h2 := by
    have : i < 1 := h1
    have : 1 ≤ i := h2
    omega
  singleParent := by cases p <;> decide
  weightOrder := by cases p <;> decide

theorem codec_code (p : Phase) : ∀ x < Config.nsym, CodeOk (codec p) x := by
  intro x hx
  have hc := codec_codeAt p hx
  have hf := codec_freqAt p hx
  have hw : ((codec p).code.read x).isSome := by
    simp only [codec, Laws.read_write, Laws.read_fill _ hx]
    split
    · rfl
    · split <;> rfl
  by_cases h98 : x = 98
  · subst h98
    refine ⟨hw, fun h => ?_, fun _ => ?_, fun _ h => ?_, fun _ _ => ⟨1, by cases p <;> decide, ?_⟩⟩
    · rw [hf] at h; cases h
    · rw [hc]; rfl
    · cases h
    · rw [hc]; cases p <;> decide
  · by_cases h97 : x = 97
    · subst h97
      refine ⟨hw, fun h => ?_, fun _ => ?_, fun _ h => ?_, fun _ _ => ⟨0, by cases p <;> decide, ?_⟩⟩
      · rw [hf] at h; cases h
      · rw [hc]; rfl
      · cases h
      · rw [hc]; cases p <;> decide
    · simp only [h98, h97, if_false] at hc hf
      exact ⟨hw, fun _ => hc, fun h => absurd hf h, fun h => absurd hf h, fun h => absurd hf h⟩

theorem sole_code (p : Phase) : ∀ x < Config.nsym, CodeOk (soleCodec p) x := by
  intro x hx
  have hc := sole_codeAt p hx
  have hf := sole_freqAt p hx
  have hw : ((soleCodec p).code.read x).isSome := by
    simp only [soleCodec, Laws.read_write, Laws.read_fill _ hx]
    split <;> rfl
  by_cases h97 : x = 97
  · subst h97
    refine ⟨hw, fun h => ?_, fun _ => ?_, fun _ _ => ?_, fun _ h => absurd rfl h⟩
    · rw [hf] at h; cases h
    · rw [hc]; rfl
    · rw [hc]; rfl
  · simp only [h97, if_false] at hc hf
    exact ⟨hw, fun _ => hc, fun h => absurd hf h, fun h => absurd hf h, fun h => absurd hf h⟩

theorem codec_ok (p : Phase) : CodecOk (codec p) := ⟨codec_map p, Nat.le_add_left 1 2, codec_tree p, codec_code p⟩
theorem sole_ok (p : Phase) : CodecOk (soleCodec p) := ⟨sole_map p, Nat.le_add_left 1 3, sole_tree p, sole_code p⟩

theorem counted_counting : Counting counted where
  map := ⟨(codec_map .count).written, (codec_map .count).total, (codec_map .count).bounded⟩
  fresh := rfl
  blank _ hx := Laws.read_fill _ hx

/-- No entry of a filled and then written RAM of symbols lies beyond the space. -/
theorem below_write {α : Type} {m : Memory α} {i : Nat} {w : α} (hi : i < 256) (h : ∀ e ∈ m, e.1 < 256) :
    ∀ e ∈ m.write i w, e.1 < 256 := fun e he =>
  (Laws.mem_write he).elim (fun h' => h' ▸ hi) (h e)

theorem fill_below {α : Type} (v : α) : ∀ e ∈ Memory.fill 256 v, e.1 < 256 := fun _ he => (Laws.mem_fill he).1

theorem codec_canonical (p : Phase) : Canonical (codec p) :=
  ⟨Laws.write_wf (Laws.write_wf (Laws.fill_wf _ _) _ _) _ _, by cases p <;> decide,
    Laws.write_wf (Laws.write_wf (Laws.fill_wf _ _) _ _) _ _, .nil⟩

theorem codec_inRange (p : Phase) : InRange (codec p) :=
  ⟨below_write (by decide) (below_write (by decide) (fill_below 0)), by cases p <;> decide,
    below_write (by decide) (below_write (by decide) (fill_below _)), by cases p <;> decide⟩

theorem sole_canonical (p : Phase) : Canonical (soleCodec p) :=
  ⟨Laws.write_wf (Laws.fill_wf _ _) _ _, by cases p <;> decide, Laws.write_wf (Laws.fill_wf _ _) _ _, .nil⟩

theorem sole_inRange (p : Phase) : InRange (soleCodec p) :=
  ⟨below_write (by decide) (fill_below 0), by cases p <;> decide, below_write (by decide) (fill_below _),
    by cases p <;> decide⟩

theorem standard_wf : Config.Params.standard.wf := by decide
theorem small_wf : small.wf := by decide

/-- The codec of "aab" meets the invariants in READY, ENC and DEC. -/
theorem witness_inv_codec (p : Phase) (hp : p = .ready ∨ p = .enc ∨ p = .dec) : Inv (codec p) where
  cfg := small_wf
  canonical := codec_canonical p
  inRange := codec_inRange p
  sequencing := ⟨rfl, fun _ _ => Nat.zero_le _, fun _ _ => Nat.zero_le _, fun _ => rfl, fun _ => rfl, by cases p <;> decide⟩
  counting h := by rcases hp with rfl | rfl | rfl <;> cases h
  codec _ := codec_ok p
  staged _ := fun _ h => absurd h (Nat.not_lt_zero _)
  emitted _ := fun _ h => absurd h (Nat.not_lt_zero _)
  cursor _ := ⟨Nat.lt_succ_self 2, fun h => (by cases h), fun _ => rfl⟩
  bits h := by cases h
  syms h := by cases h

/-- The codec of "aaaa" meets the invariants in READY, ENC and DEC. -/
theorem witness_inv_sole (p : Phase) (hp : p = .ready ∨ p = .enc ∨ p = .dec) : Inv (soleCodec p) where
  cfg := standard_wf
  canonical := sole_canonical p
  inRange := sole_inRange p
  sequencing := ⟨rfl, fun _ _ => Nat.zero_le _, fun _ _ => Nat.zero_le _, fun _ => rfl, fun _ => rfl, by cases p <;> decide⟩
  counting h := by rcases hp with rfl | rfl | rfl <;> cases h
  codec _ := sole_ok p
  staged _ := fun _ h => absurd h (Nat.not_lt_zero _)
  emitted _ := fun _ h => absurd h (Nat.not_lt_zero _)
  cursor _ := ⟨Nat.zero_lt_one, fun _ => rfl, fun h => absurd rfl h⟩
  bits h := by cases h
  syms h := by cases h

/-- The construction that counted "aab" meets the invariants. -/
theorem witness_inv_counted : Inv counted where
  cfg := small_wf
  canonical := ⟨(codec_canonical .count).1, .nil, Laws.fill_wf _ _, .nil⟩
  inRange := ⟨(codec_inRange .count).1, fun _ h => (by cases h), fill_below _, fun _ _ _ h => (by cases h)⟩
  sequencing := ⟨rfl, fun _ _ => Nat.zero_le _, fun _ _ => Nat.zero_le _, fun _ => rfl, fun _ => rfl, fun _ h => (by cases h)⟩
  counting _ := counted_counting
  codec h := by rcases h with h | h | h <;> cases h
  staged h := by cases h
  emitted h := by cases h
  cursor h := by cases h
  bits h := by cases h
  syms h := by cases h

/-! ## Witnesses: a state and operands that meet the hypotheses of each statement -/

/-- The codec of "aab" in READY. -/
theorem codec_ready : Inv (codec .ready) ∧ (codec .ready).phase = .ready ∧ HasCodec (codec .ready)
    ∧ 2 ≤ (codec .ready).ksyms :=
  ⟨witness_inv_codec _ (.inl rfl), rfl, .inl rfl, Nat.le_refl 2⟩

theorem codec_isKey (p : Phase) : IsKey (codec p) 0x61 ∧ IsKey (codec p) 0x62 := by
  refine ⟨?_, ?_⟩
  · show ((codec p).codeAt 97).valid = true
    rw [codec_codeAt p (by decide)]; rfl
  · show ((codec p).codeAt 98).valid = true
    rw [codec_codeAt p (by decide)]; rfl

/-- A code table with one key of code length 1 and one entry that is not valid. -/
def keyed (p : Phase) : State :=
  { State.reset with phase := p, code := [(0x61, .ofPath [false]), (0x7A, .absent)], cfg := small }

/-- Nodes at the top of the NODE space: 510 has the Internal node 509 on its right and a Leaf on its left. -/
def top : State :=
  { State.reset with
    phase := .dec, root := 510, cur := 510, cfg := small
    node := [(508, ⟨.leaf, 1, 0x61, 0, 0⟩), (509, ⟨.internal, 1, 0, 0, 1⟩), (510, ⟨.internal, 2, 0, 508, 509⟩)] }

theorem witness_words_checked :
    (∃ op : BitVec 4, op = 0) ∧ (∃ op : BitVec 4, 0xB ≤ op.toNat)
      ∧ (∃ op rsv : BitVec 4, op ≠ 0 ∧ op.toNat ≤ 0xA ∧ rsv ≠ 0)
      ∧ (∃ (op rsv : BitVec 4) (data : Byte),
        op ≠ 0 ∧ op.toNat ≤ 0xA ∧ rsv = 0 ∧ op ≠ 0x3 ∧ op ≠ 0x6 ∧ op ≠ 0x9 ∧ data ≠ 0)
      ∧ (∃ (s : State) (op rsv : BitVec 4) (data : Byte) (rest : List PortEvent),
        s.port = .word (op ++ rsv ++ data) :: rest ∧ op ≠ 0 ∧ op.toNat ≤ 0xA ∧ rsv = 0
          ∧ (op = 0x3 ∨ op = 0x6 ∨ op = 0x9 ∨ data = 0)) :=
  ⟨⟨0, rfl⟩, ⟨0xB, by decide⟩, ⟨0xA, 1, by decide⟩, ⟨0xA, 0, 1, by decide⟩,
    ⟨{ State.reset with port := [.word 0xA000] }, 0xA, 0, 0, [], by decide⟩⟩

theorem witness_step_runs :
    ∃ (s : State) (w : Word) (rest : List PortEvent) (i : Instr), s.port = .word w :: rest ∧ decode w = .ok i :=
  ⟨{ State.reset with port := [.word 0x30FF] }, 0x30FF, [], .csym 0xFF, by decide⟩

theorem witness_reset_event : ∃ (s : State) (rest : List PortEvent), s.port = .reset :: rest :=
  ⟨{ codec .dec with port := [.reset] }, [], rfl⟩

theorem witness_phases : ∀ p : Phase, ∃ s : State, s.phase = p := fun p => ⟨codec p, rfl⟩

/-- CSYM: each clause, at `ntotal = N_MAX` and just below. -/
theorem witness_csym :
    (∃ s : State, s.phase = .count ∧ s.terr ≠ none)
      ∧ (∃ s : State, s.phase = .count ∧ s.terr = none ∧ s.cfg.nMax = some s.ntotal)
      ∧ (∃ s : State, s.phase = .count ∧ s.terr = none ∧ s.cfg.nMax ≠ some s.ntotal) :=
  ⟨⟨{ counted with terr := some .capacity }, rfl, by decide⟩, ⟨counted, by decide⟩,
    ⟨{ counted with ntotal := 2 }, by decide⟩⟩

theorem witness_counts :
    ∃ (s : State) (operand : List Byte), (s.phase = .empty ∨ s.phase = .ready) ∧ operand ≠ []
      ∧ Config.within s.cfg.nMax operand.length :=
  ⟨codec .ready, [0x61, 0x61, 0x62], by decide⟩

theorem witness_cend_rejects :
    (∃ s : State, s.phase = .count ∧ s.terr = none ∧ s.ntotal = 0)
      ∧ (∃ s : State, s.phase = .count ∧ s.terr = some .capacity) :=
  ⟨⟨{ counted with ntotal := 0 }, by decide⟩, ⟨{ counted with terr := some .capacity }, by decide⟩⟩

/-- CEND: the entry conditions of its steps, and of a whole construction. -/
theorem witness_cend_builds :
    counted.phase = .count ∧ counted.terr = none ∧ counted.ntotal ≠ 0 ∧ 1 ≤ counted.ntotal ∧ counted.nn = 0
      ∧ counted.pq = [] ∧ counted.keys ≠ [] ∧ Counting counted ∧ Inv counted :=
  ⟨rfl, rfl, by decide, by decide, rfl, rfl, by rw [counted_keys]; decide, counted_counting, witness_inv_counted⟩

/-- The merge steps: a sorted `pq` of allocated nodes, of two and of more. -/
theorem witness_merge : tied.pq ≠ [] ∧ tied.pq.Pairwise (· < ·) ∧ 2 ≤ tied.pq.length ∧ (∀ i ∈ tied.pq, i < tied.nn)
    ∧ (∃ x ∈ tied.pq, ∀ i ∈ tied.pq, (tied.nodeAt x).weight ≤ (tied.nodeAt i).weight) := by decide

theorem witness_merge_sole : ∃ s : State, s.pq ≠ [] ∧ s.pq.length = 1 ∧ s.pq.Pairwise (· < ·) ∧ ∀ i ∈ s.pq, i < s.nn :=
  ⟨{ tied with pq := [3] }, by decide⟩

theorem witness_sole_root : ((soleCodec .count).nodeAt (soleCodec .count).root).kind = .leaf := by decide

theorem witness_walk :
    ∃ s : State, TreeOk s ∧ 2 ≤ s.ksyms ∧ ∀ x < 256, s.code.read x = some CodeEntry.absent := by
  refine ⟨{ codec .count with code := Memory.fill Config.nsym .absent }, ?_, Nat.le_refl 2, fun _ h => Laws.read_fill _ h⟩
  exact Laws.treeOk_congr (s := codec .count) rfl rfl rfl rfl rfl rfl rfl (codec_tree .count)

/-- ESYM: an ignored beat, an unknown symbol, a code that just does not fit, a code that just fits. -/
theorem witness_esym :
    (∃ s : State, s.phase = .enc ∧ s.terr ≠ none)
      ∧ (∃ (s : State) (x : Byte), s.phase = .enc ∧ s.terr = none ∧ (s.codeAt x.toNat).valid = false)
      ∧ (∃ (s : State) (x : Byte) (c : Nat), s.phase = .enc ∧ s.terr = none ∧ (s.codeAt x.toNat).valid = true
        ∧ s.cfg.rbufCap = some c ∧ c < s.wlen + (s.codeAt x.toNat).len)
      ∧ (∃ (s : State) (x : Byte), s.phase = .enc ∧ s.terr = none ∧ (s.codeAt x.toNat).valid = true
        ∧ Config.within s.cfg.rbufCap (s.wlen + (s.codeAt x.toNat).len)) :=
  ⟨⟨{ keyed .enc with terr := some .unknownSymbol }, by decide⟩, ⟨keyed .enc, 0x7A, by decide⟩,
    ⟨{ keyed .enc with wlen := 2 }, 0x61, 2, by decide⟩, ⟨{ keyed .enc with wlen := 1 }, 0x61, by decide⟩⟩

theorem witness_end_commands :
    (∃ s : State, s.phase = .enc ∧ s.terr = none) ∧ (∃ (s : State) (e : Latched), s.phase = .enc ∧ s.terr = some e)
      ∧ (∃ s : State, s.phase = .dec ∧ s.terr = none ∧ s.cur = s.root)
      ∧ (∃ s : State, s.phase = .dec ∧ s.terr = none ∧ s.cur ≠ s.root)
      ∧ (∃ (s : State) (e : Latched), s.phase = .dec ∧ s.terr = some e)
      ∧ (∃ (s : State) (e : Latched), s.phase = .count ∧ s.terr = some e) :=
  ⟨⟨codecAb .enc, by decide⟩, ⟨{ codecAb .enc with terr := some .unknownSymbol }, .unknownSymbol, by decide⟩,
    ⟨codecAb .dec, by decide⟩, ⟨{ codecAb .dec with cur := 1 }, by decide⟩,
    ⟨{ codecAb .dec with terr := some .invalidBit }, .invalidBit, by decide⟩,
    ⟨{ counted with terr := some .capacity }, .capacity, by decide⟩⟩

/-- DBIT: an ignored beat, a byte that is no bit, a sole Leaf at the highest index, an edge to a Leaf and to an Internal
node from the highest index. -/
theorem witness_dbit :
    (∃ s : State, s.phase = .dec ∧ s.terr ≠ none)
      ∧ (∃ d : Byte, d ≠ 0x30#8 ∧ d ≠ 0x31#8)
      ∧ (∃ s : State, s.phase = .dec ∧ s.terr = none ∧ s.root < 511 ∧ (s.nodeAt s.root).kind = .leaf)
      ∧ (top.phase = .dec ∧ top.terr = none ∧ top.root < 511 ∧ (top.nodeAt top.root).kind = .internal ∧ top.cur < 511)
      ∧ ((top.nodeAt top.cur).left < 511 ∧ (top.nodeAt (top.nodeAt top.cur).left).kind = .leaf)
      ∧ ((top.nodeAt top.cur).right < 511 ∧ (top.nodeAt (top.nodeAt top.cur).right).kind = .internal) :=
  ⟨⟨{ top with terr := some .invalidBit }, by decide⟩, ⟨0x32, by decide⟩,
    ⟨{ top with root := 510, node := [(510, ⟨.leaf, 1, 0x61, 0, 0⟩)] }, by decide⟩, by decide, by decide, by decide⟩

/-- A symbol emitted into a full buffer, and into the last free byte. -/
theorem witness_emit :
    (∃ s : State, s.cfg.rbufCap = some s.wlen)
      ∧ (∃ s : State, s.cfg.rbufCap ≠ some s.wlen ∧ Config.within s.cfg.rbufCap (s.wlen + 1)) :=
  ⟨⟨{ top with wlen := 2 }, by decide⟩, ⟨{ top with wlen := 1 }, by decide⟩⟩

/-- The stops: `root`, `cur` and a child at the first index NODE does not have; a full buffer overrun; CEND's entry
conditions. -/
theorem witness_stops :
    (∃ s : State, s.phase = .dec ∧ s.terr = none ∧ 511 ≤ s.root)
      ∧ (∃ s : State, s.phase = .dec ∧ s.terr = none ∧ s.root < 511 ∧ (s.nodeAt s.root).kind = .internal ∧ 511 ≤ s.cur)
      ∧ (∃ (s : State) (b : Bool), s.phase = .dec ∧ s.terr = none ∧ s.root < 511 ∧ (s.nodeAt s.root).kind = .internal
        ∧ s.cur < 511 ∧ 511 ≤ (s.nodeAt s.cur).child b)
      ∧ (∃ (s : State) (c : Nat), s.phase = .dec ∧ s.terr = none ∧ s.root < 511 ∧ (s.nodeAt s.root).kind = .leaf
        ∧ s.cfg.rbufCap = some c ∧ c < s.wlen)
      ∧ (∃ (s : State) (c : Nat), s.phase = .dec ∧ s.terr = none ∧ s.root < 511 ∧ (s.nodeAt s.root).kind = .internal
        ∧ s.cur < 511 ∧ (s.nodeAt s.cur).child false < 511 ∧ (s.nodeAt ((s.nodeAt s.cur).child false)).kind = .leaf
        ∧ s.cfg.rbufCap = some c ∧ c < s.wlen)
      ∧ (∃ s : State, s.phase = .count ∧ s.terr = none ∧ s.ntotal ≠ 0 ∧ (s.nn ≠ 0 ∨ s.pq ≠ [])) :=
  ⟨⟨{ top with root := 511 }, by decide⟩, ⟨{ top with cur := 511 }, by decide⟩,
    ⟨{ top with node := [(510, ⟨.internal, 2, 0, 508, 511⟩)] }, true, by decide⟩,
    ⟨{ top with wlen := 3, node := [(510, ⟨.leaf, 1, 0x61, 0, 0⟩)] }, 2, by decide⟩, ⟨{ top with wlen := 3 }, 2, by decide⟩,
    ⟨{ counted with nn := 1 }, by decide⟩⟩

theorem witness_no_root : ∃ s : State, s.phase = .count ∧ s.terr = none ∧ s.ntotal ≠ 0 ∧ s.nn = 0 ∧ s.pq = []
    ∧ s.keys = [] := by
  refine ⟨{ counted with freq := Memory.fill Config.nsym 0 }, rfl, rfl, by decide, rfl, rfl, ?_⟩
  have h := keys_of { counted with freq := Memory.fill Config.nsym 0 } (fun _ => 0)
    fun _ hx => Laws.freqAt_of_read (Laws.read_fill 0 hx)
  exact h.trans (List.filter_eq_nil_iff.2 fun _ _ h' => by simp at h')

theorem witness_unbounded :
    ∃ (s t : State) (i : Instr), s.cfg.weightW = none ∧ s.cfg.rbufCap = none ∧ s.terr ≠ some .capacity
      ∧ exec i s = .next t :=
  ⟨{ codecAb .dec with cfg := ⟨none, none⟩ }, _, .dbit 0x31, rfl, rfl, by decide, rfl⟩

theorem witness_result_port :
    (∃ (s : State) (a : BitVec 32), a.toNat < s.rlen ∧ a.toNat + 1 = s.rlen) ∧ (∃ (s : State) (a : BitVec 32), s.rlen = a.toNat)
      ∧ (Inv (codec .enc) ∧ (codec .enc).phase ≠ .ready) ∧ (Inv (codec .ready) ∧ (codec .ready).rkind = .none) :=
  ⟨⟨{ codecAb .ready with rkind := .bits, rlen := 2 }, 1, by decide⟩, ⟨{ codecAb .ready with rkind := .bits, rlen := 2 }, 2, by decide⟩,
    ⟨witness_inv_codec _ (.inr (.inl rfl)), by decide⟩, ⟨witness_inv_codec _ (.inl rfl), rfl⟩⟩

/-- A step from a state that meets the invariants, each of the weaker ones among them, and leaves its codec alone. -/
theorem witness_step_inv :
    ∃ s t : State, Inv s ∧ Canonical s ∧ Sequencing s ∧ HasCodec s ∧ step s = .next t
      ∧ ∀ rest, s.port ≠ .reset :: rest ∧ s.port ≠ .word 0x1000#16 :: rest ∧ s.port ≠ .word 0x2000#16 :: rest := by
  have h := Laws.inv_port_resp codec_ready.1 [.word 0x5000] .ok
  refine ⟨_, _, h, h.canonical, h.sequencing, .inl rfl, rfl, fun rest => ⟨?_, ?_, ?_⟩⟩ <;> intro h' <;>
    simp at h'

theorem witness_ignores :
    (∃ (s t : State) (d : Byte), exec (.esym d) s = .next t ∧ s.phase = .enc)
      ∧ (∃ (s t : State) (d : Byte), exec (.dbit d) s = .next t ∧ s.phase = .dec) :=
  ⟨⟨keyed .enc, _, 0x61, rfl, rfl⟩, ⟨codecAb .dec, _, 0x31, rfl, rfl⟩⟩

theorem witness_prefix_free :
    ∃ (s : State) (x y : Byte), Inv s ∧ HasCodec s ∧ IsKey s x ∧ IsKey s y ∧ x ≠ y :=
  ⟨codec .ready, 0x61, 0x62, codec_ready.1, .inl rfl, (codec_isKey _).1, (codec_isKey _).2, by decide⟩

theorem witness_code_length :
    (∃ (s : State) (x : Byte), Inv s ∧ HasCodec s ∧ IsKey s x ∧ 2 ≤ s.ksyms)
      ∧ (∃ (s : State) (x : Byte), Inv s ∧ HasCodec s ∧ IsKey s x ∧ s.ksyms = 1) := by
  refine ⟨⟨codec .ready, 0x61, codec_ready.1, .inl rfl, (codec_isKey _).1, Nat.le_refl 2⟩,
    ⟨soleCodec .ready, 0x61, witness_inv_sole _ (.inl rfl), .inl rfl, ?_, rfl⟩⟩
  show ((soleCodec .ready).codeAt 97).valid = true
  rw [sole_codeAt _ (by decide)]; rfl

/-- CONSTRUCT: the empty input, one symbol too many, the longest that fits. -/
theorem witness_construct :
    ∃ s : State, (s.phase = .empty ∨ s.phase = .ready) ∧ s.pq = []
      ∧ ¬ Config.within s.cfg.nMax [0x61, 0x61, 0x61, (0x61 : Byte)].length
      ∧ Config.within s.cfg.nMax [0x61, 0x61, (0x61 : Byte)].length :=
  ⟨codec .ready, by decide⟩

/-- ENCODE: one character too many, an unknown symbol, the longest that fits. -/
theorem witness_encode :
    (keyed .ready).phase = .ready ∧ (firstOverflow (keyed .ready) [0x61, 0x61, 0x61]).isSome
      ∧ (firstOverflow (keyed .ready) [0x61, 0x61, 0x7A] = none ∧ firstUnknown (keyed .ready) [0x61, 0x61, 0x7A] < 3)
      ∧ (firstOverflow (keyed .ready) [0x61, 0x61] = none ∧ firstUnknown (keyed .ready) [0x61, 0x61] = 2) := by
  decide

theorem codec_keys_only {xs : List Byte} (h : ∀ x ∈ xs, x = 0x61) : ∀ x ∈ xs, IsKey (codec .ready) x :=
  fun x hx => h x hx ▸ (codec_isKey _).1

/-- DECODE of codes: the most symbols that fit, and one more. -/
theorem witness_decode :
    ∃ s : State, Inv s ∧ s.phase = .ready
      ∧ ((∀ x ∈ [0x61, (0x61 : Byte)], IsKey s x) ∧ Config.within s.cfg.rbufCap 2)
      ∧ ((∀ x ∈ [0x61, 0x61, (0x61 : Byte)], IsKey s x) ∧ ¬ Config.within s.cfg.rbufCap 3) :=
  ⟨codec .ready, codec_ready.1, rfl, ⟨codec_keys_only (by decide), by decide⟩, codec_keys_only (by decide), by decide⟩

/-- DECODE of a character that is no bit, and of a '1' when K = 1. -/
theorem witness_bad_character :
    (∃ (s : State) (before : List Bool) (d : Byte), Inv s ∧ s.phase = .ready
      ∧ Config.within s.cfg.rbufCap before.length ∧ d ≠ 0x30#8 ∧ d ≠ 0x31#8)
      ∧ (∃ (s : State) (before : List Bool) (d : Byte), Inv s ∧ s.phase = .ready
        ∧ Config.within s.cfg.rbufCap before.length ∧ d = 0x31#8 ∧ s.ksyms = 1) :=
  ⟨⟨codec .ready, [true, false], 0x32, codec_ready.1, rfl, by decide⟩,
    ⟨soleCodec .ready, [], 0x31, witness_inv_sole _ (.inl rfl), rfl, by decide⟩⟩

theorem witness_round_trip :
    ∃ (s : State) (input operand : List Byte), Inv s ∧ (s.phase = .empty ∨ s.phase = .ready) ∧ input ≠ []
      ∧ Config.within s.cfg.nMax input.length ∧ (∀ x ∈ operand, x ∈ input) :=
  ⟨codec .ready, [0x61, 0x62, 0x62], [0x62, 0x61], codec_ready.1, .inr rfl, by decide, by decide, by decide⟩

theorem witness_equal_trees :
    ∃ s t : State, CodecOk s ∧ CodecOk t ∧ treeOf s s.root = treeOf t t.root ∧ s ≠ t :=
  ⟨codec .ready, codec .enc, codec_ok _, codec_ok _, rfl, fun h => absurd (congrArg State.phase h) (by decide)⟩

theorem witness_two_constructions :
    ∃ (s₁ s₂ : State) (input : List Byte), (s₁.phase = .empty ∨ s₁.phase = .ready) ∧ (s₂.phase = .empty ∨ s₂.phase = .ready)
      ∧ s₁.pq = [] ∧ s₂.pq = [] ∧ input ≠ [] ∧ Config.within s₁.cfg.nMax input.length
      ∧ Config.within s₂.cfg.nMax input.length :=
  ⟨codec .ready, State.reset, [0x61, 0x61, 0x62], .inr rfl, .inl rfl, rfl, rfl, by decide, by decide, by decide⟩

theorem witness_empty_contents :
    ∃ s t : State, s ≠ t ∧ s.phase = .empty ∧ s.rlen = 0 ∧ s.pq = [] ∧ s.terr = none
      ∧ t = { s with
          freq := t.freq, node := t.node, code := t.code, rbuf := t.rbuf, resets := t.resets, ntotal := t.ntotal
          ksyms := t.ksyms, nn := t.nn, root := t.root, cur := t.cur, wlen := t.wlen, acc := t.acc, accLen := t.accLen } :=
  ⟨.reset, { State.reset with nn := 700, cur := 511, node := [(511, ⟨.internal, 0, 0, 1, 2⟩)] }, by decide⟩

end Sys2Proof.Tests
end

section
/-! PROOFS for 00_scope.md: the unbounded block of R7, and what the encode and the decode commands read (R3). -/

namespace Sys2Proof.Scope

open Sys2Proof Sys2Proof.Machine Sys2Proof.Laws

/-! ## R7: the unbounded block never reports Capacity -/

/-- `Capacity` is neither answered nor latched. -/
def CapacityFree (s : State) : Prop := s.resp ≠ .capacity ∧ s.terr ≠ some .capacity

@[simp] theorem latchedResp_eq_capacity {e : Latched} : e.resp = .capacity ↔ e = .capacity := by
  cases e <;> decide

/-- An answer OK leaves only the latch to look at. -/
theorem capacityFree_respondOk {s : State} (h : s.terr ≠ some .capacity) : CapacityFree s.respondOk :=
  ⟨nofun, h⟩

theorem latch_ne_capacity {s : State} {k : Latched} (h : s.terr ≠ some .capacity) (hk : k ≠ .capacity) :
    (s.latch k).terr ≠ some .capacity := by
  unfold State.latch
  split
  · simpa using hk
  · exact h

theorem latchTruncated_ne_capacity {s : State} (h : s.terr ≠ some .capacity) :
    s.latchTruncated.terr ≠ some .capacity := by
  unfold State.latchTruncated
  split
  · exact h
  · exact latch_ne_capacity h nofun

theorem closeResult_capacityFree {s : State} (kind : RKind) (h : s.terr ≠ some .capacity) :
    CapacityFree (s.closeResult kind) := by
  cases he : s.terr with
  | none => simp [closeResult_of_none kind he, CapacityFree, he]
  | some e =>
    have hk : e ≠ .capacity := fun hk => h (hk ▸ he)
    simp [closeResult_of_some kind he, CapacityFree, hk]

/-- Without a count limit CSYM latches nothing (40_freq_analyzer.md R111). -/
theorem csymEffect_terr_of_unbounded {s : State} (data : Byte) (hw : s.cfg.weightW = none) :
    (csymEffect data s).terr = s.terr := by
  simp only [csymEffect, respondOk_terr]
  split
  · rfl
  · simp [Config.Params.nMax, hw]

/-- Without a buffer limit the one error ESYM can latch is UnknownSymbol (43_encode.md R151). -/
theorem esymEffect_ne_capacity {s : State} (data : Byte) (hc : s.cfg.rbufCap = none)
    (h : s.terr ≠ some .capacity) : (esymEffect data s).terr ≠ some .capacity := by
  simp only [esymEffect, respondOk_terr]
  split
  · exact h
  · split
    · exact latch_ne_capacity h nofun
    · simpa [hc, Config.within] using h

/-- Without a buffer limit `emit` always stages the symbol (44_decode.md R161). -/
theorem emit_next_of_unbounded {x : Byte} {s t : State} {k : State → Outcome} (h : emit x s k = .next t)
    (hc : s.cfg.rbufCap = none) : k (s.stage [x]) = .next t := by
  obtain ⟨hfull, _⟩ | ⟨_, _, h⟩ := emit_next h
  · exact absurd (hc.symm.trans hfull) nofun
  · exact h

/-- Without a buffer limit the one error DBIT can latch is InvalidBit (44_decode.md R161). -/
theorem dbitEffect_capacityFree {s t : State} {data : Byte} (hc : s.cfg.rbufCap = none)
    (h : s.terr ≠ some .capacity) (ht : dbitEffect data s = .next t) : CapacityFree t := by
  have invalid : CapacityFree (s.latch .invalidBit).respondOk := capacityFree_respondOk (latch_ne_capacity h nofun)
  unfold dbitEffect at ht
  split at ht
  · cases ht
    exact capacityFree_respondOk h
  · split at ht
    · cases ht
      exact invalid
    · rcases descend_next ht with ⟨_, _, _, rfl⟩ | ⟨_, _, _, ht⟩ | ⟨_, _, _, _, ⟨_, rfl⟩ | ⟨_, ht⟩⟩
      · exact invalid
      · cases emit_next_of_unbounded ht hc
        exact capacityFree_respondOk h
      · exact capacityFree_respondOk h
      · cases emit_next_of_unbounded ht hc
        exact capacityFree_respondOk h

theorem cendWith_capacityFree {tie : Config.TieBreak} {s t : State} (h : s.terr ≠ some .capacity)
    (ht : cendWith tie s = .next t) : CapacityFree t := by
  rcases cendWith_next ht with ⟨e, he, rfl⟩ | ⟨he, _, rfl⟩ | ⟨he, _, _, _, _, rfl⟩
  · have hk : e ≠ .capacity := fun hk => h (hk ▸ he)
    simp [CapacityFree, hk]
  · simp [CapacityFree, he]
  · exact capacityFree_respondOk (by simpa [buildCodec] using h)

/-- A checked command is free of Capacity when its effect is: the phase check itself raises only BadSequence. -/
theorem whenLegal_capacityFree {i : Instr} {s t : State} {o : Outcome} (h : s.terr ≠ some .capacity)
    (ho : o = .next t → CapacityFree t) (ht : whenLegal i s o = .next t) : CapacityFree t := by
  obtain ⟨_, ht⟩ | ⟨_, ht⟩ := whenLegal_cases ht
  · exact ho ht
  · cases ht
    exact ⟨nofun, h⟩

/-- The same for a command whose effect always answers a next state. -/
theorem whenLegal_next_capacityFree {i : Instr} {s t u : State} (ht : whenLegal i s (.next u) = .next t)
    (h : s.terr ≠ some .capacity) (hu : CapacityFree u) : CapacityFree t :=
  whenLegal_capacityFree h (fun e => Host.Outcome.next.inj e ▸ hu) ht

/-- Settles O36, by cases on the command: each either answers OK, latches a kind other than Capacity, or reports the
latched one. -/
theorem unboundedBlockNeverReportsCapacity : Obligations.UnboundedBlockNeverReportsCapacity := by
  intro s t i hw hc h ht
  change CapacityFree t
  cases i with
  | clr => exact whenLegal_next_capacityFree ht h (capacityFree_respondOk nofun)
  | cbegin => exact whenLegal_next_capacityFree ht h (capacityFree_respondOk nofun)
  | csym data =>
    exact whenLegal_next_capacityFree ht h ⟨nofun, csymEffect_terr_of_unbounded data hw ▸ h⟩
  | cend => exact whenLegal_capacityFree h (cendWith_capacityFree h) ht
  | ebegin => exact whenLegal_next_capacityFree ht h (capacityFree_respondOk nofun)
  | esym data => exact whenLegal_next_capacityFree ht h ⟨nofun, esymEffect_ne_capacity data hc h⟩
  | eend => exact whenLegal_next_capacityFree ht h (closeResult_capacityFree .bits h)
  | dbegin => exact whenLegal_next_capacityFree ht h (capacityFree_respondOk nofun)
  | dbit data => exact whenLegal_capacityFree h (dbitEffect_capacityFree hc h) ht
  | dend => exact whenLegal_next_capacityFree ht h (closeResult_capacityFree .syms (latchTruncated_ne_capacity h))

/-! ## R3: the encode commands do not read the tree, the decode commands do not read the code table

Each command commutes with overwriting what it does not read: running it from the overwritten state answers what it
answered before, overwritten in the same way. -/

/-- An answer with its next state, if it is one, changed by `f`. -/
def mapNext (f : State → State) : Outcome → Outcome
  | .next s => .next (f s)
  | .fault r => .fault r
  | .refused r => .refused r

/-- The fields that belong to the tree and the map. -/
structure TreeFields where
  freq : Memory Nat
  node : Memory NodeEntry
  root : Nat
  nn : Nat
  ksyms : Nat
  ntotal : Nat

/-- The state with its tree and map overwritten. -/
def TreeFields.put (d : TreeFields) (s : State) : State :=
  { s with freq := d.freq, node := d.node, root := d.root, nn := d.nn, ksyms := d.ksyms, ntotal := d.ntotal }

/-- The fields that belong to the code table and the map. -/
structure CodeFields where
  freq : Memory Nat
  code : Memory CodeEntry
  nn : Nat
  ksyms : Nat
  ntotal : Nat

/-- The state with its code table and map overwritten. -/
def CodeFields.put (d : CodeFields) (s : State) : State :=
  { s with freq := d.freq, code := d.code, nn := d.nn, ksyms := d.ksyms, ntotal := d.ntotal }

section Shared

variable {f : State → State} {s : State}

theorem whenLegal_comm {i : Instr} {o o' : Outcome} (hp : (f s).phase = s.phase)
    (hr : (f s).raise .badSequence = f (s.raise .badSequence)) (ho : o' = mapNext f o) :
    whenLegal i (f s) o' = mapNext f (whenLegal i s o) := by
  by_cases h : s.phase ∈ legalPhases i
  · rw [whenLegal_of_mem o h, whenLegal_of_mem o' (hp ▸ h), ho]
  · rw [whenLegal_of_not_mem o h, whenLegal_of_not_mem o' (hp ▸ h), hr, mapNext]

theorem latch_comm {k : Latched} (he : (f s).terr = s.terr)
    (hset : { f s with terr := some k } = f { s with terr := some k }) : (f s).latch k = f (s.latch k) := by
  unfold State.latch
  rw [he]
  split
  · exact hset
  · rfl

theorem closeResult_comm {kind : RKind} (he : (f s).terr = s.terr)
    (hcommit : { f s with rkind := kind, rlen := (f s).wlen, phase := .ready, resp := .ok }
      = f { s with rkind := kind, rlen := s.wlen, phase := .ready, resp := .ok })
    (hreport : ∀ e, { f s with terr := none, rkind := .none, rlen := 0, phase := .ready, resp := e }
      = f { s with terr := none, rkind := .none, rlen := 0, phase := .ready, resp := e }) :
    (f s).closeResult kind = f (s.closeResult kind) := by
  cases h : s.terr with
  | none => rw [closeResult_of_none kind h, closeResult_of_none kind (he.trans h), hcommit]
  | some e => rw [closeResult_of_some kind h, closeResult_of_some kind (he.trans h), hreport]

end Shared

section Encode

variable (d : TreeFields) (s : State)

theorem latch_putTree (k : Latched) : (d.put s).latch k = d.put (s.latch k) := latch_comm rfl rfl

theorem esymEffect_putTree (data : Byte) : esymEffect data (d.put s) = d.put (esymEffect data s) := by
  have hcode : (d.put s).codeAt (symbolIndex data) = s.codeAt (symbolIndex data) := codeAt_congr rfl rfl _
  have hterr : (d.put s).terr = s.terr := rfl
  have hcfg : (d.put s).cfg = s.cfg := rfl
  have hlen : (d.put s).wlen = s.wlen := rfl
  simp only [esymEffect, hcode, hterr, hcfg, hlen, latch_putTree]
  split
  · rfl
  · split_ifs <;> rfl

theorem exec_ebegin_putTree : exec .ebegin (d.put s) = mapNext d.put (exec .ebegin s) :=
  whenLegal_comm rfl rfl rfl

theorem exec_esym_putTree (data : Byte) : exec (.esym data) (d.put s) = mapNext d.put (exec (.esym data) s) :=
  whenLegal_comm rfl rfl (congrArg _ (esymEffect_putTree d s data))

theorem exec_eend_putTree : exec .eend (d.put s) = mapNext d.put (exec .eend s) :=
  whenLegal_comm rfl rfl (congrArg _ (closeResult_comm rfl rfl fun _ => rfl))

end Encode

section Decode

variable (d : CodeFields) (s : State)

theorem latch_putCode (k : Latched) : (d.put s).latch k = d.put (s.latch k) := latch_comm rfl rfl

theorem withNode_putCode {i : Nat} {k k' : NodeEntry → Outcome} (hk : ∀ n, k' n = mapNext d.put (k n)) :
    withNode (d.put s) i k' = mapNext d.put (withNode s i k) := by
  have hnode : (d.put s).nodeAt i = s.nodeAt i := nodeAt_congr rfl rfl rfl i
  unfold withNode
  split
  · rw [hnode, hk]
  · rfl

theorem emit_putCode (x : Byte) {k : State → Outcome} (hk : ∀ u, k (d.put u) = mapNext d.put (k u)) :
    emit x (d.put s) k = mapNext d.put (emit x s k) := by
  have hcfg : (d.put s).cfg = s.cfg := rfl
  have hlen : (d.put s).wlen = s.wlen := rfl
  have hstage : (d.put s).stage [x] = d.put (s.stage [x]) := rfl
  simp only [emit, hcfg, hlen, hstage, latch_putCode, hk]
  split_ifs <;> rfl

/-- One branch for each path of R161: a sole leaf, an inner node passed, a leaf reached. -/
theorem descend_putCode (b : Bool) : descend b (d.put s) = mapNext d.put (descend b s) := by
  refine withNode_putCode d s fun r => ?_
  cases r.kind with
  | leaf =>
    cases b with
    | true => exact congrArg (fun u => Host.Outcome.next (State.respondOk u)) (latch_putCode d s .invalidBit)
    | false => exact emit_putCode d s r.sym (k := fun u => .next u.respondOk) fun _ => rfl
  | internal =>
    refine withNode_putCode d s fun n => withNode_putCode d s fun m => ?_
    cases m.kind with
    | leaf =>
      exact emit_putCode d { s with cur := n.child b } m.sym
        (k := fun u => .next (State.respondOk { u with cur := u.root })) fun _ => rfl
    | internal => rfl

theorem dbitEffect_putCode (data : Byte) : dbitEffect data (d.put s) = mapNext d.put (dbitEffect data s) := by
  have hterr : (d.put s).terr = s.terr := rfl
  simp only [dbitEffect, hterr, latch_putCode, descend_putCode]
  split
  · rfl
  · split <;> rfl

theorem latchTruncated_putCode : (d.put s).latchTruncated = d.put s.latchTruncated := by
  have hcur : (d.put s).cur = s.cur := rfl
  have hroot : (d.put s).root = s.root := rfl
  simp only [State.latchTruncated, hcur, hroot, latch_putCode]
  split <;> rfl

theorem exec_dbegin_putCode : exec .dbegin (d.put s) = mapNext d.put (exec .dbegin s) :=
  whenLegal_comm rfl rfl rfl

theorem exec_dbit_putCode (data : Byte) : exec (.dbit data) (d.put s) = mapNext d.put (exec (.dbit data) s) :=
  whenLegal_comm rfl rfl (dbitEffect_putCode d s data)

theorem exec_dend_putCode : exec .dend (d.put s) = mapNext d.put (exec .dend s) := by
  refine whenLegal_comm rfl rfl (congrArg Host.Outcome.next ?_)
  rw [latchTruncated_putCode]
  exact closeResult_comm rfl rfl fun _ => rfl

end Decode

/-- A command that commutes with `f` and answers `t` from `s` answers `f t` from `f s`. -/
theorem exec_next_of_comm {i : Instr} {f : State → State} {s t : State}
    (hf : exec i (f s) = mapNext f (exec i s)) (ht : exec i s = .next t) : exec i (f s) = .next (f t) := by
  rw [hf, ht, mapNext]

/-- Settles O45: each of the six commands commutes with overwriting the fields it does not read. -/
theorem encodeIgnoresTreeDecodeIgnoresCodeTable : Obligations.EncodeIgnoresTreeDecodeIgnoresCodeTable := by
  intro s t data i freq ht
  constructor
  · intro hi node root nn ksyms ntotal
    refine exec_next_of_comm (f := TreeFields.put { freq, node, root, nn, ksyms, ntotal }) ?_ ht
    rcases hi with rfl | rfl | rfl
    · exact exec_ebegin_putTree _ s
    · exact exec_esym_putTree _ s data
    · exact exec_eend_putTree _ s
  · intro hi code nn ksyms ntotal
    refine exec_next_of_comm (f := CodeFields.put { freq, code, nn, ksyms, ntotal }) ?_ ht
    rcases hi with rfl | rfl | rfl
    · exact exec_dbegin_putCode _ s
    · exact exec_dbit_putCode _ s data
    · exact exec_dend_putCode _ s

end Sys2Proof.Scope
end

section
/-! PROOFS for 10_state.md, the tree: what R42 to R44 say about paths, parents and weights. -/

namespace Sys2Proof.Invariants

open Sys2Proof Sys2Proof.Machine Sys2Proof.Safety Sys2Proof.Laws

variable {s t : State}

/-! ## Leaves and Internal nodes -/

theorem ksyms_le_nn (h : TreeOk s) : s.ksyms ≤ s.nn := by
  have := h.nodeCount
  have := h.ksymsPos
  omega

theorem root_lt_nn (h : TreeOk s) : s.root < s.nn := by
  have := h.rootLast
  have := ksyms_le_nn h
  have := h.ksymsPos
  omega

/-- The NODE RAM has room for the tree (10_state.md R43). -/
theorem nn_le_nodeMax (h : TreeOk s) : s.nn ≤ Config.nodeMax := by
  have := h.nodeCount
  have : s.ksyms ≤ 256 := h.ksymsKeys ▸ keys_length_le s
  simp only [Config.nodeMax]
  omega

theorem kind_of_lt_ksyms (h : TreeOk s) {i : Nat} (hi : i < s.ksyms) : (s.nodeAt i).kind = .leaf := by
  rw [h.leaves i hi, leafOf]

theorem lt_ksyms_of_leaf (h : TreeOk s) {i : Nat} (hi : i < s.nn) (hk : (s.nodeAt i).kind = .leaf) : i < s.ksyms := by
  by_contra hge
  exact nomatch hk.symm.trans (h.internals i hi (by omega)).kind

theorem internalOk_of_kind (h : TreeOk s) {i : Nat} (hi : i < s.nn) (hk : (s.nodeAt i).kind = .internal) :
    s.ksyms ≤ i ∧ InternalOk s i := by
  have hge : s.ksyms ≤ i := by
    by_contra hlt
    exact nomatch hk.symm.trans (kind_of_lt_ksyms h (by omega))
  exact ⟨hge, h.internals i hi hge⟩

theorem child_lt {i : Nat} (h : InternalOk s i) (b : Bool) : (s.nodeAt i).child b < i := by
  cases b with
  | false => exact h.leftBelow
  | true => exact h.rightBelow

/-- With one key the root is its Leaf (10_state.md R42). -/
theorem root_leaf_iff (h : TreeOk s) : (s.nodeAt s.root).kind = .leaf ↔ s.ksyms = 1 := by
  have hcount := h.nodeCount
  have hlast := h.rootLast
  have hpos := h.ksymsPos
  constructor
  · intro hk
    have := lt_ksyms_of_leaf h (root_lt_nn h) hk
    omega
  · intro hk
    exact kind_of_lt_ksyms h (by omega)

theorem root_internal (h : TreeOk s) (hk : s.ksyms ≠ 1) : (s.nodeAt s.root).kind = .internal := by
  cases hr : (s.nodeAt s.root).kind with
  | leaf => exact absurd ((root_leaf_iff h).1 hr) hk
  | internal => rfl

/-! ## The Leaves and the keys (10_state.md R43) -/

theorem key_of_leaf (h : TreeOk s) {i : Nat} (hi : i < s.ksyms) : symbolIndex (s.nodeAt i).sym ∈ s.keys := by
  have hlen : i < s.keys.length := h.ksymsKeys ▸ hi
  have hmem : s.keys.getD i 0 ∈ s.keys := by
    rw [List.getD_eq_getElem _ _ hlen]
    exact List.getElem_mem hlen
  have hx : s.keys.getD i 0 < 256 := (mem_keys.1 hmem).1
  rwa [h.leaves i hi, leafOf, symbolIndex, BitVec.toNat_ofNat, Nat.mod_eq_of_lt hx]

theorem leaf_of_key (h : TreeOk s) {x : Nat} (hx : x ∈ s.keys) :
    ∃ i < s.ksyms, symbolIndex (s.nodeAt i).sym = x := by
  have hlt : x < 256 := (mem_keys.1 hx).1
  obtain ⟨i, hi, hget⟩ := List.mem_iff_getElem.1 hx
  have hk : i < s.ksyms := h.ksymsKeys ▸ hi
  refine ⟨i, hk, ?_⟩
  rw [h.leaves i hk, leafOf, symbolIndex, List.getD_eq_getElem _ _ hi, hget, BitVec.toNat_ofNat, Nat.mod_eq_of_lt hlt]

/-! ## Paths (10_state.md R43, R46) -/

theorem descendPath_append (i : Nat) (p q : List Bool) :
    descendPath s i (p ++ q) = (descendPath s i p).bind fun j => descendPath s j q := by
  induction p generalizing i with
  | nil => rfl
  | cons b p ih =>
    simp only [List.cons_append, descendPath]
    split
    · rfl
    · exact ih _

/-- A step down an Internal node. -/
theorem descendPath_cons {i j : Nat} {b : Bool} {p : List Bool} (h : descendPath s i (b :: p) = some j) :
    (s.nodeAt i).kind = .internal ∧ descendPath s ((s.nodeAt i).child b) p = some j := by
  simp only [descendPath] at h
  split at h
  · cases h
  · exact ⟨‹_›, h⟩

theorem descendPath_of_leaf {i j : Nat} {p : List Bool} (hk : (s.nodeAt i).kind = .leaf)
    (h : descendPath s i p = some j) : p = [] ∧ j = i := by
  cases p with
  | nil => cases h; exact ⟨rfl, rfl⟩
  | cons b p => exact nomatch hk.symm.trans (descendPath_cons h).1

/-- A path stays below the node it starts from, and it passes one Internal node for each of its edges. -/
theorem descendPath_bounds (h : TreeOk s) {i j : Nat} {p : List Bool} (hi : i < s.nn)
    (hp : descendPath s i p = some j) : j ≤ i ∧ p.length ≤ i + 1 - s.ksyms := by
  induction p generalizing i with
  | nil => cases hp; exact ⟨Nat.le_refl _, Nat.zero_le _⟩
  | cons b p ih =>
    obtain ⟨hk, hp⟩ := descendPath_cons hp
    obtain ⟨hge, hint⟩ := internalOk_of_kind h hi hk
    have hlt := child_lt hint b
    obtain ⟨h1, h2⟩ := ih (by omega) hp
    simp only [List.length_cons]
    omega

/-- A path from the root has at most K − 1 edges (10_state.md R46). -/
theorem path_length_le (h : TreeOk s) {j : Nat} {p : List Bool} (hp : descendPath s s.root p = some j) :
    j < s.nn ∧ p.length ≤ s.ksyms - 1 ∧ s.ksyms - 1 ≤ 255 := by
  have hroot := root_lt_nn h
  have hbounds := descendPath_bounds h hroot hp
  have hcount := h.nodeCount
  have hlast := h.rootLast
  have hkeys : s.ksyms ≤ 256 := h.ksymsKeys ▸ keys_length_le s
  omega

theorem mem_parents {i p : Nat} : p ∈ parents s i ↔
    p < s.nn ∧ (s.nodeAt p).kind = .internal ∧ ((s.nodeAt p).left = i ∨ (s.nodeAt p).right = i) := by
  simp [parents]

theorem parents_nodup (s : State) (i : Nat) : (parents s i).Nodup := List.nodup_range.filter _

/-- Every node is reached from the root, through its parent (10_state.md R42). -/
theorem reached_from_root (h : TreeOk s) {i : Nat} (hi : i < s.nn) : ∃ p, descendPath s s.root p = some i := by
  induction hn : s.nn - i using Nat.strong_induction_on generalizing i with
  | _ n ih =>
    by_cases hroot : i = s.root
    · exact ⟨[], hroot ▸ rfl⟩
    · have hone := h.singleParent i hi
      rw [if_neg hroot] at hone
      obtain ⟨q, hq⟩ := List.length_eq_one_iff.1 hone
      obtain ⟨hqn, hk, hchild⟩ := mem_parents.1 (hq ▸ List.mem_cons_self : q ∈ parents s i)
      obtain ⟨b, hb⟩ : ∃ b, (s.nodeAt q).child b = i := by
        rcases hchild with hl | hr
        · exact ⟨false, hl⟩
        · exact ⟨true, hr⟩
      have hlt := child_lt (internalOk_of_kind h hqn hk).2 b
      obtain ⟨p, hp⟩ := ih (s.nn - q) (by omega) hqn rfl
      exact ⟨p ++ [b], by simp [descendPath_append, hp, descendPath, hk, hb]⟩

/-! ## Weights (10_state.md R41, R44) -/

theorem freqTotal_eq_sum (s : State) : freqTotal s = ∑ x ∈ Finset.range Config.nsym, s.freqAt x := rfl

/-- The sum of the counts is that of the keys' counts. -/
theorem freqTotal_eq_keys_sum (s : State) : freqTotal s = (s.keys.map s.freqAt).sum := by
  rw [freqTotal, State.keys]
  induction List.range Config.nsym with
  | nil => rfl
  | cons x l ih =>
    by_cases hx : 0 < s.freqAt x
    · rw [List.filter_cons_of_pos (by simpa using hx), List.map_cons, List.map_cons, List.sum_cons, List.sum_cons, ih]
    · rw [List.filter_cons_of_neg (by simpa using hx), List.map_cons, List.sum_cons, ih, Nat.eq_zero_of_not_pos hx,
        Nat.zero_add]

/-- The Leaves weigh the input together. -/
theorem leaves_sum (h : TreeOk s) : ∑ i ∈ Finset.range s.ksyms, (s.nodeAt i).weight = freqTotal s := by
  have hkeys : (List.range s.ksyms).map (fun i => s.keys.getD i 0) = s.keys := by
    rw [h.ksymsKeys]
    exact List.ext_getElem (by simp) fun i _ hi => by simp [hi]
  calc ∑ i ∈ Finset.range s.ksyms, (s.nodeAt i).weight
      = ∑ i ∈ Finset.range s.ksyms, s.freqAt (s.keys.getD i 0) :=
        Finset.sum_congr rfl fun i hi => by rw [h.leaves i (Finset.mem_range.1 hi), leafOf]
    _ = (((List.range s.ksyms).map fun i => s.keys.getD i 0).map s.freqAt).sum := by rw [List.map_map]; rfl
    _ = freqTotal s := by rw [hkeys, freqTotal_eq_keys_sum]

/-- What the nodes weigh that have `p` as their parent. -/
def childrenWeight (s : State) (p : Nat) : Nat :=
  ∑ i ∈ Finset.range s.nn, if p ∈ parents s i then (s.nodeAt i).weight else 0

theorem childrenWeight_leaf (h : TreeOk s) {p : Nat} (hp : p < s.ksyms) : childrenWeight s p = 0 := by
  refine Finset.sum_eq_zero fun i _ => if_neg fun hmem => ?_
  exact nomatch (kind_of_lt_ksyms h hp).symm.trans (mem_parents.1 hmem).2.1

/-- An Internal node weighs what its children weigh (10_state.md R44). -/
theorem childrenWeight_internal (h : TreeOk s) {p : Nat} (hp : p < s.nn) (hk : s.ksyms ≤ p) :
    childrenWeight s p = (s.nodeAt p).weight := by
  have hint := h.internals p hp hk
  have hl := hint.leftBelow
  have hr := hint.rightBelow
  have hsplit : ∀ i, (if p ∈ parents s i then (s.nodeAt i).weight else 0)
      = (if (s.nodeAt p).left = i then (s.nodeAt i).weight else 0)
        + (if (s.nodeAt p).right = i then (s.nodeAt i).weight else 0) := by
    intro i
    have hd := hint.distinct
    simp only [mem_parents, hp, hint.kind, true_and]
    by_cases h1 : (s.nodeAt p).left = i <;> by_cases h2 : (s.nodeAt p).right = i
    · exact absurd (h1.trans h2.symm) hd
    all_goals simp [h1, h2]
  rw [childrenWeight, Finset.sum_congr rfl fun i _ => hsplit i, Finset.sum_add_distrib, Finset.sum_ite_eq,
    Finset.sum_ite_eq, if_pos (Finset.mem_range.2 (by omega)), if_pos (Finset.mem_range.2 (by omega)), hint.weightSum]

/-- Over all parents, a node is counted once for each parent it has. -/
theorem sum_over_parents (s : State) (i c : Nat) :
    ∑ p ∈ Finset.range s.nn, (if p ∈ parents s i then c else 0) = (parents s i).length * c := by
  have hset : (Finset.range s.nn).filter (· ∈ parents s i) = (parents s i).toFinset := by
    ext p
    simp only [Finset.mem_filter, Finset.mem_range, List.mem_toFinset]
    exact ⟨And.right, fun hp => ⟨(mem_parents.1 hp).1, hp⟩⟩
  rw [← Finset.sum_filter, hset, Finset.sum_const, List.toFinset_card_of_nodup (parents_nodup s i), smul_eq_mul]

/-- Every node but the root is somebody's child, once. -/
theorem sum_childrenWeight (h : TreeOk s) :
    ∑ p ∈ Finset.range s.nn, childrenWeight s p + (s.nodeAt s.root).weight
      = ∑ i ∈ Finset.range s.nn, (s.nodeAt i).weight := by
  have hroot := Finset.mem_range.2 (root_lt_nn h)
  have hcount : ∀ i ∈ Finset.range s.nn, (parents s i).length * (s.nodeAt i).weight
      = if i = s.root then 0 else (s.nodeAt i).weight := by
    intro i hi
    rw [h.singleParent i (Finset.mem_range.1 hi)]
    split_ifs <;> simp
  simp only [childrenWeight]
  rw [Finset.sum_comm, Finset.sum_congr rfl fun i _ => sum_over_parents s i _, Finset.sum_congr rfl hcount,
    ← Finset.add_sum_erase _ _ hroot, ← Finset.add_sum_erase _ (fun i => (s.nodeAt i).weight) hroot, if_pos rfl,
    Nat.zero_add, Nat.add_comm]
  exact congrArg _ (Finset.sum_congr rfl fun i hi => if_neg (Finset.ne_of_mem_erase hi))

/-- The root weighs what the Leaves weigh together (10_state.md R44). -/
theorem root_weight (h : TreeOk s) : (s.nodeAt s.root).weight = freqTotal s := by
  have hle := ksyms_le_nn h
  have hleaves : ∑ p ∈ Finset.range s.ksyms, childrenWeight s p = 0 :=
    Finset.sum_eq_zero fun p hp => childrenWeight_leaf h (Finset.mem_range.1 hp)
  have hinternals : ∑ p ∈ Finset.Ico s.ksyms s.nn, childrenWeight s p
      = ∑ p ∈ Finset.Ico s.ksyms s.nn, (s.nodeAt p).weight :=
    Finset.sum_congr rfl fun p hp => childrenWeight_internal h (Finset.mem_Ico.1 hp).2 (Finset.mem_Ico.1 hp).1
  have hall := sum_childrenWeight h
  rw [← Finset.sum_range_add_sum_Ico _ hle, ← Finset.sum_range_add_sum_Ico _ hle, hleaves, hinternals,
    leaves_sum h] at hall
  omega

end Sys2Proof.Invariants
end

section
/-! PROOFS for 10_state.md, the construction: SEED and the MERGE loop keep a forest that FINISH and WALK turn into a
codec (41_tree_builder.md, 42_code_table.md). -/

namespace Sys2Proof.Invariants

open Sys2Proof Sys2Proof.Machine Sys2Proof.Safety Sys2Proof.Laws

variable {s t : State}

/-! ## EXTRACT_MIN and MERGE (R123, R124) -/

theorem extractMin_mem (tie : Config.TieBreak) (h : s.pq ≠ []) : (extractMin tie s).1 ∈ s.pq :=
  (mem_candidates.1 (chooseBy_mem _ (candidates_ne_nil h))).1

theorem extractMin_le (tie : Config.TieBreak) {i : Nat} (h : i ∈ s.pq) :
    (s.nodeAt (extractMin tie s).1).weight ≤ (s.nodeAt i).weight := by
  have hmem : (extractMin tie s).1 ∈ candidates s := chooseBy_mem _ (candidates_ne_nil (List.ne_nil_of_mem h))
  exact (mem_candidates.1 hmem).2 ▸ leastWeight_le s h

/-- The entry MERGE allocates over the two nodes it removed. -/
def parentOf (s : State) (l r : Nat) : NodeEntry :=
  { kind := .internal, weight := (s.nodeAt l).weight + (s.nodeAt r).weight, sym := 0, left := l, right := r }

/-- The state after a MERGE of `l` and `r`. -/
def mergedState (s : State) (l r : Nat) : State :=
  { s.setNode s.nn (parentOf s l r) with
    pq := pqInsert s.nn ((s.pq.erase l).erase r), nn := s.nn + 1, draws := s.draws + 2 }

/-- `l` and then `r` can be extracted: `l` is of least weight in `pq`, `r` of least weight in what is left. -/
structure Lightest (s : State) (l r : Nat) : Prop where
  left_mem : l ∈ s.pq
  right_mem : r ∈ s.pq
  ne : l ≠ r
  left_le : ∀ i ∈ s.pq, (s.nodeAt l).weight ≤ (s.nodeAt i).weight
  right_le : ∀ i ∈ s.pq, i ≠ l → (s.nodeAt r).weight ≤ (s.nodeAt i).weight

/-- The two extractions of a MERGE take two lightest nodes, whatever the tie-break (R123). -/
theorem lightest_extracted (tie : Config.TieBreak) (hs : s.pq.Pairwise (· < ·)) (hlen : 2 ≤ s.pq.length) :
    Lightest s (extractMin tie s).1 (extractMin tie (extractMin tie s).2).1 := by
  have hne : s.pq ≠ [] := List.ne_nil_of_length_pos (by omega)
  have hnodup : s.pq.Nodup := hs.imp Nat.ne_of_lt
  have hl := extractMin_mem tie hne
  have hrest : (extractMin tie s).2.pq ≠ [] := by
    refine List.ne_nil_of_length_pos ?_
    rw [extractMin_pq, List.length_erase_of_mem hl]
    omega
  have hr := extractMin_mem tie hrest
  rw [extractMin_pq, hnodup.mem_erase_iff] at hr
  refine ⟨hl, hr.2, Ne.symm hr.1, fun i hi => extractMin_le tie hi, fun i hi hil => ?_⟩
  exact extractMin_le tie (s := (extractMin tie s).2) (hnodup.mem_erase_iff.2 ⟨hil, hi⟩)

/-- What MERGE does (R124). -/
theorem merge_eq (tie : Config.TieBreak) (s : State) :
    merge tie s = mergedState s (extractMin tie s).1 (extractMin tie (extractMin tie s).2).1 := rfl

theorem mergedState_nodeAt (s : State) (l r i : Nat) :
    (mergedState s l r).nodeAt i = if i = s.nn then parentOf s l r else s.nodeAt i :=
  nodeAt_setNode s s.nn _ i

theorem mergedState_nodeAt_below {l r i : Nat} (hi : i < s.nn) : (mergedState s l r).nodeAt i = s.nodeAt i := by
  rw [mergedState_nodeAt, if_neg (Nat.ne_of_lt hi)]

theorem mergedState_nodeAt_new (s : State) (l r : Nat) : (mergedState s l r).nodeAt s.nn = parentOf s l r := by
  rw [mergedState_nodeAt, if_pos rfl]

theorem mem_mergedState_pq {l r i : Nat} (hs : s.pq.Pairwise (· < ·)) :
    i ∈ (mergedState s l r).pq ↔ i = s.nn ∨ i ∈ s.pq ∧ i ≠ l ∧ i ≠ r := by
  have hnodup : s.pq.Nodup := hs.imp Nat.ne_of_lt
  show i ∈ pqInsert s.nn _ ↔ _
  rw [mem_pqInsert, (hnodup.erase l).mem_erase_iff, hnodup.mem_erase_iff]
  tauto

theorem mergedState_pq_sorted {l r : Nat} (hs : s.pq.Pairwise (· < ·)) : (mergedState s l r).pq.Pairwise (· < ·) :=
  pqInsert_sorted _ ((hs.sublist List.erase_sublist).sublist List.erase_sublist)

/-- `|pq|` falls by one with each MERGE (R122). -/
theorem mergedState_pq_length {l r : Nat} (hs : s.pq.Pairwise (· < ·)) (hb : ∀ i ∈ s.pq, i < s.nn)
    (h : Lightest s l r) : (mergedState s l r).pq.length + 1 = s.pq.length := by
  have hnodup : s.pq.Nodup := hs.imp Nat.ne_of_lt
  have hr : r ∈ s.pq.erase l := hnodup.mem_erase_iff.2 ⟨h.ne.symm, h.right_mem⟩
  have hl1 := List.length_erase_of_mem h.left_mem
  have hr1 := List.length_erase_of_mem hr
  have hpos := List.length_pos_of_mem h.left_mem
  have hpos' := List.length_pos_of_mem hr
  have hbelow : ∀ j ∈ (s.pq.erase l).erase r, j < s.nn := fun j hj =>
    hb j (List.mem_of_mem_erase (List.mem_of_mem_erase hj))
  show (pqInsert s.nn _).length + 1 = _
  rw [pqInsert_above hbelow, List.length_append, List.length_singleton]
  omega

/-! ## The forest between the passes of the loop -/

/-- What SEED leaves and every MERGE keeps: the trees whose roots are the nodes in `pq`, over the Leaves of R121. -/
structure Forest (s : State) : Prop where
  ksymsKeys : s.ksyms = s.keys.length
  count : s.nn + s.pq.length = 2 * s.ksyms
  ksyms_le : s.ksyms ≤ s.nn
  sorted : s.pq.Pairwise (· < ·)
  below : ∀ i ∈ s.pq, i < s.nn
  written : ∀ i < s.nn, (s.node.read i).isSome
  leaves : ∀ i < s.ksyms, s.nodeAt i = leafOf s (s.keys.getD i 0)
  internals : ∀ i < s.nn, s.ksyms ≤ i → InternalOk s i
  parentless : ∀ i < s.nn, (parents s i).length = if i ∈ s.pq then 0 else 1
  weightOrder : ∀ i < s.nn, s.ksyms ≤ i → i + 1 < s.nn → (s.nodeAt i).weight ≤ (s.nodeAt (i + 1)).weight
  /-- No MERGE to come makes a node lighter than the last one made. -/
  lastLightest : ∀ i, s.ksyms ≤ i → i + 1 = s.nn → ∀ j ∈ s.pq, ∀ k ∈ s.pq, j ≠ k →
    (s.nodeAt i).weight ≤ (s.nodeAt j).weight + (s.nodeAt k).weight

/-- What R42 to R44 say of an Internal node looks only at the entries up to it. -/
theorem internalOk_congr {i : Nat} (hat : ∀ j ≤ i, t.nodeAt j = s.nodeAt j) (h : InternalOk s i) : InternalOk t i := by
  have hi := hat i (Nat.le_refl i)
  have hl := hat _ (Nat.le_of_lt h.leftBelow)
  have hr := hat _ (Nat.le_of_lt h.rightBelow)
  constructor <;> simp only [hi, hl, hr]
  · exact h.kind
  · exact h.noSym
  · exact h.leftBelow
  · exact h.rightBelow
  · exact h.distinct
  · exact h.weightSum
  · exact h.leftLighter

theorem forest_internalOk (h : Forest s) {i : Nat} (hi : i < s.nn) (hk : (s.nodeAt i).kind = .internal) :
    InternalOk s i := by
  refine h.internals i hi ?_
  by_contra hlt
  rw [h.leaves i (by omega)] at hk
  cases hk

/-- A child lies below its parents. -/
theorem forest_lt_of_mem_parents (h : Forest s) {i p : Nat} (hp : p ∈ parents s i) : i < p := by
  obtain ⟨hpn, hk, hchild⟩ := mem_parents.1 hp
  have hint := forest_internalOk h hpn hk
  rcases hchild with rfl | rfl
  · exact hint.leftBelow
  · exact hint.rightBelow

/-- The new node becomes the parent of the two nodes merged, and of no other. -/
theorem parents_mergedState {l r : Nat} (i : Nat) :
    parents (mergedState s l r) i = parents s i ++ if i = l ∨ i = r then [s.nn] else [] := by
  have hnn : (mergedState s l r).nn = s.nn + 1 := rfl
  simp only [parents, hnn, List.range_succ, List.filter_append]
  congr 1
  · exact List.filter_congr fun p hp => by rw [mergedState_nodeAt_below (List.mem_range.1 hp)]
  · simp only [List.filter_singleton, mergedState_nodeAt_new, parentOf, true_and, eq_comm (a := i)]
    by_cases hi : l = i ∨ r = i <;> simp [hi]

section Merged

variable {l r : Nat} (h : Forest s) (hlr : Lightest s l r)

include h hlr

theorem internalOk_mergedState {i : Nat} (hi : i < s.nn + 1) (hk : s.ksyms ≤ i) : InternalOk (mergedState s l r) i := by
  by_cases hlt : i < s.nn
  · exact internalOk_congr (fun j hj => mergedState_nodeAt_below (by omega)) (h.internals i hlt hk)
  · obtain rfl : i = s.nn := by omega
    have hln := h.below l hlr.left_mem
    have hrn := h.below r hlr.right_mem
    constructor <;> simp only [mergedState_nodeAt_new, parentOf, mergedState_nodeAt_below hln,
      mergedState_nodeAt_below hrn]
    · exact hln
    · exact hrn
    · exact hlr.ne
    · exact hlr.left_le r hlr.right_mem

theorem parentless_mergedState {i : Nat} (hi : i < s.nn + 1) :
    (parents (mergedState s l r) i).length = if i ∈ (mergedState s l r).pq then 0 else 1 := by
  rw [parents_mergedState, List.length_append]
  simp only [mem_mergedState_pq h.sorted]
  by_cases hlt : i < s.nn
  · rw [h.parentless i hlt]
    have hne : i ≠ s.nn := by omega
    by_cases hl : i = l
    · simp [hl, hlr.left_mem, hl ▸ hne]
    · by_cases hr : i = r
      · simp [hr, hlr.right_mem, hr ▸ hne]
      · simp [hl, hr, hne]
  · obtain rfl : i = s.nn := by omega
    have hnone : parents s s.nn = [] := List.eq_nil_iff_forall_not_mem.2 fun p hp =>
      absurd (forest_lt_of_mem_parents h hp) (Nat.not_lt.2 (Nat.le_of_lt (mem_parents.1 hp).1))
    have hl := h.below l hlr.left_mem
    have hr := h.below r hlr.right_mem
    simp [hnone, show s.nn ≠ l by omega, show s.nn ≠ r by omega]

theorem weightOrder_mergedState {i : Nat} (hk : s.ksyms ≤ i) (hi : i + 1 < s.nn + 1) :
    ((mergedState s l r).nodeAt i).weight ≤ ((mergedState s l r).nodeAt (i + 1)).weight := by
  rw [mergedState_nodeAt_below (by omega)]
  by_cases hlt : i + 1 < s.nn
  · rw [mergedState_nodeAt_below hlt]
    exact h.weightOrder i (by omega) hk hlt
  · rw [show i + 1 = s.nn by omega, mergedState_nodeAt_new, parentOf]
    exact h.lastLightest i hk (by omega) l hlr.left_mem r hlr.right_mem hlr.ne

/-- The node just made is no heavier than any two of the nodes left: two old ones are heavier one by one, and a sum with
the new one is heavier than it. -/
theorem lastLightest_mergedState {j k : Nat} (hj : j ∈ (mergedState s l r).pq) (hk : k ∈ (mergedState s l r).pq)
    (hjk : j ≠ k) : ((mergedState s l r).nodeAt s.nn).weight
      ≤ ((mergedState s l r).nodeAt j).weight + ((mergedState s l r).nodeAt k).weight := by
  rw [mem_mergedState_pq h.sorted] at hj hk
  rcases hj with rfl | ⟨hj, hjl, hjr⟩
  · exact Nat.le_add_right _ _
  · rcases hk with rfl | ⟨hk, hkl, hkr⟩
    · exact Nat.le_add_left _ _
    · rw [mergedState_nodeAt_new, mergedState_nodeAt_below (h.below j hj), mergedState_nodeAt_below (h.below k hk)]
      exact Nat.add_le_add (hlr.left_le j hj) (hlr.right_le k hk hkl)

theorem forest_mergedState : Forest (mergedState s l r) where
  ksymsKeys := h.ksymsKeys
  count := by
    have hlen := mergedState_pq_length h.sorted h.below hlr
    have hcount := h.count
    show s.nn + 1 + _ = 2 * s.ksyms
    omega
  ksyms_le := Nat.le_succ_of_le h.ksyms_le
  sorted := mergedState_pq_sorted h.sorted
  below i hi := by
    show i < s.nn + 1
    rcases (mem_mergedState_pq h.sorted).1 hi with rfl | ⟨hi, -, -⟩
    · omega
    · exact Nat.lt_succ_of_lt (h.below i hi)
  written i hi := by
    show ((s.node.write s.nn _).read i).isSome
    rw [read_write]
    split
    · rfl
    · exact h.written i (by have : i < s.nn + 1 := hi; omega)
  leaves i hi := by rw [mergedState_nodeAt_below (Nat.lt_of_lt_of_le hi h.ksyms_le)]; exact h.leaves i hi
  internals i hi hk := internalOk_mergedState h hlr hi hk
  parentless i hi := parentless_mergedState h hlr hi
  weightOrder i _ hk hi := weightOrder_mergedState h hlr hk hi
  lastLightest i _ hi j hj k hk hjk := by
    obtain rfl : i = s.nn := Nat.succ.inj hi
    exact lastLightest_mergedState h hlr hj hk hjk

end Merged

theorem forest_merge (tie : Config.TieBreak) (h : Forest s) (hlen : 2 ≤ s.pq.length) :
    Forest (merge tie s) ∧ (merge tie s).pq.length + 1 = s.pq.length := by
  have hlr := lightest_extracted tie h.sorted hlen
  rw [merge_eq]
  exact ⟨forest_mergedState h hlr, mergedState_pq_length h.sorted h.below hlr⟩

/-- The loop keeps the forest and takes one root away with each pass (R122). -/
theorem forest_mergeTimes (tie : Config.TieBreak) (n : Nat) (h : Forest s) (hn : n < s.pq.length) :
    Forest (mergeTimes tie n s) ∧ (mergeTimes tie n s).pq.length + n = s.pq.length := by
  induction n generalizing s with
  | zero => exact ⟨h, rfl⟩
  | succ n ih =>
    obtain ⟨hm, hlen⟩ := forest_merge tie h (by omega)
    obtain ⟨hf, hl⟩ := ih hm (by omega)
    exact ⟨hf, by simp only [mergeTimes]; omega⟩

/-! ## SEED (R121) -/

/-- SEED's pushes give the indices from `nn` on, in order. -/
theorem foldl_seedLeaf_pq (l : List Nat) (h : s.pq = List.range s.nn) :
    (l.foldl seedLeaf s).pq = List.range (s.nn + l.length) := by
  induction l generalizing s with
  | nil => exact h
  | cons x l ih =>
    have hpq : (seedLeaf s x).pq = List.range (seedLeaf s x).nn := by
      rw [seedLeaf_pq, seedLeaf_nn, h, pqInsert_above fun j hj => List.mem_range.1 hj, List.range_succ]
    rw [List.foldl_cons, ih hpq, seedLeaf_nn, List.length_cons]
    congr 1
    omega

theorem foldl_seedLeaf_read_below (l : List Nat) {i : Nat} (hi : i < s.nn) :
    (l.foldl seedLeaf s).node.read i = s.node.read i := by
  induction l generalizing s with
  | nil => rfl
  | cons x l ih =>
    rw [List.foldl_cons, ih (Nat.lt_succ_of_lt hi)]
    exact read_write_other _ _ (Nat.ne_of_lt hi)

/-- SEED's i-th allocation is the Leaf of the i-th key. -/
theorem foldl_seedLeaf_read (l : List Nat) {i : Nat} (hi : i < l.length) :
    (l.foldl seedLeaf s).node.read (s.nn + i) = some (leafOf s (l.getD i 0)) := by
  induction l generalizing s i with
  | nil => cases hi
  | cons x l ih =>
    rw [List.foldl_cons]
    cases i with
    | zero =>
      rw [foldl_seedLeaf_read_below l (by simp)]
      exact read_write_same _ _ _
    | succ i =>
      have := ih (s := seedLeaf s x) (Nat.lt_of_succ_lt_succ hi)
      rw [seedLeaf_nn, Nat.add_assoc, Nat.add_comm 1] at this
      exact this

theorem seed_nn (h : s.nn = 0) : (seed s).nn = s.keys.length := by
  simp [seed, foldl_seedLeaf_nn, h]

theorem seed_ksyms (h : s.nn = 0) : (seed s).ksyms = s.keys.length := seed_nn h

theorem seed_pq (h : s.nn = 0) (hpq : s.pq = []) : (seed s).pq = List.range s.keys.length := by
  have := foldl_seedLeaf_pq (s := s) s.keys (by rw [h, hpq]; rfl)
  rwa [h, Nat.zero_add] at this

theorem seed_read (h : s.nn = 0) {i : Nat} (hi : i < s.keys.length) :
    (seed s).node.read i = some (leafOf s (s.keys.getD i 0)) := by
  have := foldl_seedLeaf_read (s := s) s.keys hi
  rwa [h, Nat.zero_add] at this

theorem seed_nodeAt (h : s.nn = 0) {i : Nat} (hi : i < s.keys.length) :
    (seed s).nodeAt i = leafOf s (s.keys.getD i 0) := nodeAt_of_read (seed_read h hi)

theorem seed_keys (s : State) : (seed s).keys = s.keys := keys_congr (seed_freq s) (seed_cfg s) (seed_resets s)

theorem leafOf_congr (hf : t.freq = s.freq) (hc : t.cfg = s.cfg) (hr : t.resets = s.resets) (x : Nat) :
    leafOf t x = leafOf s x := by
  simp only [leafOf, freqAt_congr hf hc hr]

/-- After SEED every node is a Leaf and a root. -/
theorem forest_seed (h : s.nn = 0) (hpq : s.pq = []) : Forest (seed s) := by
  have hnn := seed_nn h
  have hks := seed_ksyms h
  have hq := seed_pq h hpq
  have hvac : ∀ {i : Nat}, i < (seed s).nn → ¬ (seed s).ksyms ≤ i := by
    intro i hi
    omega
  refine ⟨by rw [hks, seed_keys], by rw [hnn, hks, hq, List.length_range]; omega, by omega, ?_, ?_, ?_, ?_,
    fun i hi hk => absurd hk (hvac hi), ?_, fun i hi hk => absurd hk (hvac hi),
    fun i hk hi => absurd hk (hvac (by omega))⟩
  · rw [hq]
    exact List.pairwise_lt_range
  · rw [hq, hnn]
    exact fun i hi => List.mem_range.1 hi
  · intro i hi
    rw [seed_read h (hnn ▸ hi)]
    rfl
  · intro i hi
    rw [seed_nodeAt h (hks ▸ hi), seed_keys, leafOf_congr (seed_freq s) (seed_cfg s) (seed_resets s)]
  · intro i hi
    have hnone : parents (seed s) i = [] := by
      refine List.eq_nil_iff_forall_not_mem.2 fun p hp => ?_
      obtain ⟨hpn, hk, -⟩ := mem_parents.1 hp
      rw [seed_nodeAt h (hnn ▸ hpn)] at hk
      cases hk
    rw [hnone, if_pos (by rw [hq]; exact List.mem_range.2 (hnn ▸ hi))]
    rfl

/-! ## FINISH (R126) -/

/-- The one root left is the node allocated last: no later node could be its parent. -/
theorem forest_sole_root (h : Forest s) (hlen : s.pq.length = 1) : s.pq = [s.nn - 1] := by
  have hcount := h.count
  have hle := h.ksyms_le
  have hlast : s.nn - 1 < s.nn := by omega
  have hmem : s.nn - 1 ∈ s.pq := by
    by_contra hno
    have hone := h.parentless _ hlast
    rw [if_neg hno] at hone
    obtain ⟨p, hp⟩ := List.exists_mem_of_length_pos (hone ▸ Nat.one_pos)
    have := forest_lt_of_mem_parents h hp
    have := (mem_parents.1 hp).1
    omega
  obtain ⟨r, hr⟩ := List.length_eq_one_iff.1 hlen
  rw [hr] at hmem ⊢
  rw [List.mem_singleton.1 hmem]

theorem root_finish_of_pq {r : Nat} (h : s.pq = [r]) : (finish s).root = r := by
  simp [finish, h]

theorem treeOk_finish (h : Forest s) (hlen : s.pq.length = 1) : TreeOk (finish s) where
  ksymsKeys := h.ksymsKeys
  ksymsPos := by
    have := h.count
    rw [finish_ksyms]
    omega
  nodeCount := by
    have := h.count
    rw [finish_nn, finish_ksyms]
    omega
  rootLast := root_finish_of_pq (forest_sole_root h hlen)
  written := h.written
  leaves := h.leaves
  internals i hi hk := internalOk_congr (s := s) (fun _ _ => rfl) (h.internals i hi hk)
  singleParent i hi := by
    have hone := h.parentless i hi
    simp only [forest_sole_root h hlen, List.mem_singleton] at hone
    rw [root_finish_of_pq (forest_sole_root h hlen)]
    exact hone
  weightOrder := h.weightOrder

/-- SEED, the loop and FINISH leave a tree, whatever the tie-break (R120, R127). -/
theorem treeOk_construction (tie : Config.TieBreak) (h : s.nn = 0) (hpq : s.pq = []) (hk : s.keys ≠ []) :
    TreeOk (finish (mergeTimes tie ((seed s).pq.length - 1) (seed s))) := by
  have hlen : 0 < (seed s).pq.length := by
    rw [seed_pq h hpq, List.length_range]
    exact List.length_pos_iff.2 hk
  obtain ⟨hf, hl⟩ := forest_mergeTimes tie ((seed s).pq.length - 1) (forest_seed h hpq) (by omega)
  exact treeOk_finish hf (by omega)

end Sys2Proof.Invariants
end

section
/-! PROOFS for 10_state.md, the code table: what WALK records (42_code_table.md R140, R142), and that CEND's successful
branch builds a codec (41_tree_builder.md R120). -/

namespace Sys2Proof.Invariants

open Sys2Proof Sys2Proof.Machine Sys2Proof.Safety Sys2Proof.Laws

variable {s t : State} {table table' : Memory CodeEntry}

/-! ## What a visit records -/

/-- `table` holds for the symbol `x` a path from `i` to a Leaf of `x`, behind the path `a` that leads to `i`. -/
def Records (s : State) (i : Nat) (a : List Bool) (table : Memory CodeEntry) (x : Nat) : Prop :=
  ∃ p j, descendPath s i p = some j ∧ (s.nodeAt j).kind = .leaf ∧ symbolIndex (s.nodeAt j).sym = x
    ∧ table.read x = some (CodeEntry.ofPath (a ++ p))

theorem records_congr {i x : Nat} {a : List Bool} (hread : table'.read x = table.read x) (h : Records s i a table x) :
    Records s i a table' x := by
  obtain ⟨p, j, hp, hk, hx, ht⟩ := h
  exact ⟨p, j, hp, hk, hx, hread.trans ht⟩

/-- A path from a child is a path from the parent, one edge longer. -/
theorem records_of_child {i x : Nat} {a : List Bool} (b : Bool) (hi : (s.nodeAt i).kind = .internal)
    (h : Records s ((s.nodeAt i).child b) (a ++ [b]) table x) : Records s i a table x := by
  obtain ⟨p, j, hp, hk, hx, ht⟩ := h
  exact ⟨b :: p, j, by rw [descendPath, hi]; exact hp, hk, hx, by rw [ht, List.append_assoc]; rfl⟩

theorem visit_leaf {depth i : Nat} {a : List Bool} (hi : (s.nodeAt i).kind = .leaf) :
    visit s (depth + 1) i a table = table.write (symbolIndex (s.nodeAt i).sym) (CodeEntry.ofPath a) := by
  rw [visit, hi]

/-- The left subtree is visited before the right one. -/
theorem visit_internal {depth i : Nat} {a : List Bool} (hi : (s.nodeAt i).kind = .internal) :
    visit s (depth + 1) i a table
      = visit s depth ((s.nodeAt i).child true) (a ++ [true])
          (visit s depth ((s.nodeAt i).child false) (a ++ [false]) table) := by
  rw [visit, hi]
  rfl

/-- A visit leaves an entry as it was or records a path in it. -/
theorem visit_read (s : State) (depth i : Nat) (a : List Bool) (table : Memory CodeEntry) (x : Nat) :
    (visit s depth i a table).read x = table.read x ∨ Records s i a (visit s depth i a table) x := by
  induction depth generalizing i a table with
  | zero => exact .inl rfl
  | succ depth ih =>
    cases hi : (s.nodeAt i).kind with
    | leaf =>
      rw [visit_leaf hi]
      by_cases hx : x = symbolIndex (s.nodeAt i).sym
      · refine .inr ⟨[], i, rfl, hi, hx.symm, ?_⟩
        rw [hx, read_write_same, List.append_nil]
      · exact .inl (read_write_other _ _ hx)
    | internal =>
      rw [visit_internal hi]
      rcases ih ((s.nodeAt i).child true) (a ++ [true]) (visit s depth ((s.nodeAt i).child false) (a ++ [false]) table)
        with hright | hright
      · rcases ih ((s.nodeAt i).child false) (a ++ [false]) table with hleft | hleft
        · exact .inl (hright.trans hleft)
        · exact .inr (records_of_child false hi (records_congr hright hleft))
      · exact .inr (records_of_child true hi hright)

/-- A visit records a path for every Leaf below the node, as deep as it goes. -/
theorem visit_records {depth i j : Nat} {a p : List Bool} (hp : descendPath s i p = some j)
    (hj : (s.nodeAt j).kind = .leaf) (hdepth : p.length < depth) :
    Records s i a (visit s depth i a table) (symbolIndex (s.nodeAt j).sym) := by
  induction depth generalizing i a p table with
  | zero => cases hdepth
  | succ depth ih =>
    cases p with
    | nil =>
      cases hp
      rw [visit_leaf hj]
      exact ⟨[], j, rfl, hj, rfl, by rw [read_write_same, List.append_nil]⟩
    | cons b p =>
      obtain ⟨hi, hp⟩ := descendPath_cons hp
      have hlt : p.length < depth := Nat.lt_of_succ_lt_succ hdepth
      rw [visit_internal hi]
      cases b with
      | true => exact records_of_child true hi (ih hp hlt)
      | false =>
        have hleft := ih (a := a ++ [false]) (table := table) hp hlt
        rcases visit_read s depth ((s.nodeAt i).child true) (a ++ [true])
          (visit s depth ((s.nodeAt i).child false) (a ++ [false]) table) (symbolIndex (s.nodeAt j).sym) with h | h
        · exact records_of_child false hi (records_congr h hleft)
        · exact records_of_child true hi h

/-! ## The code table after WALK (R45) -/

theorem codeOk_of_absent {x : Nat} (hr : t.code.read x = some CodeEntry.absent) (hf : t.freqAt x = 0) : CodeOk t x where
  written := by rw [hr]; rfl
  absent _ := codeAt_of_read hr
  entry h := absurd hf h
  single h := absurd hf h
  path h := absurd hf h

theorem codeOk_of_path {x : Nat} {p : List Bool} (hr : t.code.read x = some (CodeEntry.ofPath p))
    (hf : t.freqAt x ≠ 0) (hlen : p.length ≤ 255) (hsole : t.ksyms = 1 → p = [false])
    (hpath : t.ksyms ≠ 1 → ∃ i < t.ksyms, descendPath t t.root p = some i ∧ symbolIndex (t.nodeAt i).sym = x) :
    CodeOk t x := by
  have hat := codeAt_of_read hr
  have hp : (t.codeAt x).path = p := by rw [hat, path_ofPath hlen]
  constructor
  · rw [hr]; rfl
  · exact fun h => absurd h hf
  · exact fun _ => by rw [hp, hat]
  · exact fun _ hk => by rw [hp]; exact hsole hk
  · intro _ hk
    obtain ⟨i, hi, hd, hx⟩ := hpath hk
    exact ⟨i, hi, by rw [hp]; exact hd, by rw [← hx, symbolIndex, BitVec.ofNat_toNat, BitVec.setWidth_eq]⟩

theorem walk_code_of_leaf (h : (s.nodeAt s.root).kind = .leaf) :
    (walk s).code = s.code.write (symbolIndex (s.nodeAt s.root).sym) (CodeEntry.ofPath [false]) := by
  simp only [walk, h]

theorem walk_code_of_internal (h : (s.nodeAt s.root).kind = .internal) :
    (walk s).code = visit s Config.nodeMax s.root [] s.code := by
  simp only [walk, h]

theorem descendPath_walk (s : State) (i : Nat) (p : List Bool) : descendPath (walk s) i p = descendPath s i p :=
  descendPath_congr (walk_node s) (walk_cfg s) (walk_resets s) i p

/-- No Leaf holds a symbol that is no key. -/
theorem not_records_of_zero (h : TreeOk s) {a : List Bool} {x : Nat} (hf : s.freqAt x = 0) :
    ¬ Records s s.root a table x := by
  rintro ⟨p, j, hp, hk, hx, -⟩
  have hj := lt_ksyms_of_leaf h (path_length_le h hp).1 hk
  have hpos := (mem_keys.1 (key_of_leaf h hj)).2
  rw [hx, hf] at hpos
  exact Nat.lt_irrefl _ hpos

/-- R142: the sole key's code is "0". -/
theorem codeOk_walk_sole (h : TreeOk s) (hblank : ∀ x < Config.nsym, s.code.read x = some CodeEntry.absent)
    (hk : s.ksyms = 1) {x : Nat} (hx : x < Config.nsym) : CodeOk (walk s) x := by
  have hroot := (root_leaf_iff h).2 hk
  have hlt := lt_ksyms_of_leaf h (root_lt_nn h) hroot
  have hcode := walk_code_of_leaf hroot
  by_cases hf : s.freqAt x = 0
  · have hne : x ≠ symbolIndex (s.nodeAt s.root).sym := by
      intro heq
      have hpos := (mem_keys.1 (key_of_leaf h hlt)).2
      rw [← heq, hf] at hpos
      exact Nat.lt_irrefl _ hpos
    exact codeOk_of_absent (by rw [hcode, read_write_other _ _ hne, hblank x hx]) hf
  · obtain ⟨i, hi, hsym⟩ := leaf_of_key h (mem_keys.2 ⟨hx, Nat.pos_of_ne_zero hf⟩)
    obtain rfl : i = s.root := by omega
    exact codeOk_of_path (by rw [hcode, ← hsym, read_write_same]) hf (by decide) (fun _ => rfl)
      fun hne => absurd hk hne

/-- R140: with two keys or more each key's code is the path to its Leaf. -/
theorem codeOk_walk_many (h : TreeOk s) (hblank : ∀ x < Config.nsym, s.code.read x = some CodeEntry.absent)
    (hk : s.ksyms ≠ 1) {x : Nat} (hx : x < Config.nsym) : CodeOk (walk s) x := by
  have hcode := walk_code_of_internal (root_internal h hk)
  by_cases hf : s.freqAt x = 0
  · have hread := (visit_read s Config.nodeMax s.root [] s.code x).resolve_right (not_records_of_zero h hf)
    exact codeOk_of_absent (by rw [hcode, hread, hblank x hx]) hf
  · obtain ⟨i, hi, hsym⟩ := leaf_of_key h (mem_keys.2 ⟨hx, Nat.pos_of_ne_zero hf⟩)
    obtain ⟨q, hq⟩ := reached_from_root h (Nat.lt_of_lt_of_le hi (ksyms_le_nn h))
    have hqlen := path_length_le h hq
    obtain ⟨p, j, hp, hj, hjx, hread⟩ := visit_records (table := s.code) (a := []) hq (kind_of_lt_ksyms h hi)
      (depth := Config.nodeMax) (by simp only [Config.nodeMax]; omega)
    have hplen := path_length_le h hp
    refine codeOk_of_path (p := p) ?_ hf (by omega) (fun hsole => absurd hsole hk) fun _ => ?_
    · rw [hcode, ← hsym, hread, List.nil_append]
    · exact ⟨j, lt_ksyms_of_leaf h hplen.1 hj, by rw [descendPath_walk]; exact hp, hjx.trans hsym⟩

theorem codeOk_walk (h : TreeOk s) (hblank : ∀ x < Config.nsym, s.code.read x = some CodeEntry.absent) {x : Nat}
    (hx : x < Config.nsym) : CodeOk (walk s) x := by
  by_cases hk : s.ksyms = 1
  · exact codeOk_walk_sole h hblank hk hx
  · exact codeOk_walk_many h hblank hk hx

/-- WALK turns the map and the tree into a codec (R143). -/
theorem codecOk_walk (hmap : MapOk s) (hpos : 1 ≤ s.ntotal) (htree : TreeOk s)
    (hblank : ∀ x < Config.nsym, s.code.read x = some CodeEntry.absent) : CodecOk (walk s) where
  map := mapOk_congr (walk_freq s) (walk_ntotal s) (walk_cfg s) (walk_resets s) hmap
  positive := hpos
  tree := treeOk_congr (walk_freq s) (walk_node s) (walk_nn s) (walk_ksyms s) (walk_root s) (walk_cfg s) (walk_resets s)
    htree
  code _ hx := codeOk_walk htree hblank hx

/-- The state of CEND after FINISH. -/
def construction (tie : Config.TieBreak) (s : State) : State :=
  finish (mergeTimes tie ((seed s).pq.length - 1) (seed s))

theorem buildCodec_eq (tie : Config.TieBreak) (s : State) :
    buildCodec tie s = { walk (construction tie s) with phase := .ready, resp := .ok } := rfl

section Construction

variable (tie : Config.TieBreak) (s : State)

@[simp] theorem construction_freq : (construction tie s).freq = s.freq := by simp [construction]
@[simp] theorem construction_code : (construction tie s).code = s.code := by simp [construction]
@[simp] theorem construction_ntotal : (construction tie s).ntotal = s.ntotal := by simp [construction]
@[simp] theorem construction_cfg : (construction tie s).cfg = s.cfg := by simp [construction]
@[simp] theorem construction_resets : (construction tie s).resets = s.resets := by simp [construction]

end Construction

/-- CEND's successful branch builds a codec, whatever the tie-break (R129). -/
theorem codecOk_buildCodec (tie : Config.TieBreak) (h : Counting s) (hpq : s.pq = []) (hpos : 1 ≤ s.ntotal)
    (hk : s.keys ≠ []) : CodecOk (buildCodec tie s) := by
  have htree : TreeOk (construction tie s) := treeOk_construction tie h.fresh hpq hk
  have hmap : MapOk (construction tie s) :=
    mapOk_congr (construction_freq tie s) (construction_ntotal tie s) (construction_cfg tie s)
      (construction_resets tie s) h.map
  have hcodec := codecOk_walk hmap (by simpa using hpos) htree (by simpa using h.blank)
  rw [buildCodec_eq]
  exact codecOk_congr (s := walk (construction tie s)) ⟨rfl, rfl, rfl, rfl, rfl, rfl, rfl⟩ rfl rfl hcodec

/-- When something was counted there is a key (10_state.md R41). -/
theorem keys_ne_nil (h : MapOk s) (hpos : s.ntotal ≠ 0) : s.keys ≠ [] := by
  intro hnil
  have := h.total
  rw [freqTotal_eq_keys_sum, hnil] at this
  exact hpos this.symm

end Sys2Proof.Invariants
end

section
/-! PROOFS for 10_state.md, the steps: what the data commands can do, said once for each, and what every step keeps of
the RAMs and of the sequencing registers (R24 to R35, R49, R50). -/

namespace Sys2Proof.Invariants

open Sys2Proof Sys2Proof.Machine Sys2Proof.Safety Sys2Proof.Laws

variable {s t : State}

/-! ## The data commands -/

/-- CSYM (40_freq_analyzer.md R111): ignored, the count at its limit, or one symbol counted. -/
theorem csymEffect_cases (data : Byte) (s : State) :
    (s.terr ≠ none ∧ csymEffect data s = { s with resp := .ok })
      ∨ (s.terr = none ∧ s.cfg.nMax = some s.ntotal
          ∧ csymEffect data s = { s with terr := some .capacity, resp := .ok })
      ∨ (s.terr = none ∧ s.cfg.nMax ≠ some s.ntotal
          ∧ csymEffect data s = { s.setFreq (symbolIndex data) (s.freqAt (symbolIndex data) + 1) with
              ntotal := s.ntotal + 1, resp := .ok }) := by
  cases he : s.terr with
  | some e => exact .inl ⟨nofun, by simp only [csymEffect, he, State.respondOk]⟩
  | none =>
    by_cases hmax : s.cfg.nMax = some s.ntotal
    · exact .inr (.inl ⟨rfl, hmax, by simp only [csymEffect, he, if_pos hmax, latch_of_none _ he, State.respondOk]⟩)
    · exact .inr (.inr ⟨rfl, hmax, by simp only [csymEffect, he, if_neg hmax, State.respondOk]⟩)

/-- ESYM (43_encode.md R151): ignored, no key, its code staged whole, or no room for it. -/
theorem esymEffect_cases (data : Byte) (s : State) :
    (s.terr ≠ none ∧ esymEffect data s = { s with resp := .ok })
      ∨ (s.terr = none ∧ (s.codeAt (symbolIndex data)).valid = false
          ∧ esymEffect data s = { s with terr := some .unknownSymbol, resp := .ok })
      ∨ (s.terr = none ∧ (s.codeAt (symbolIndex data)).valid = true
          ∧ Config.within s.cfg.rbufCap (s.wlen + (s.codeAt (symbolIndex data)).len)
          ∧ esymEffect data s = { s.stage ((s.codeAt (symbolIndex data)).path.map chr) with resp := .ok })
      ∨ (s.terr = none ∧ (s.codeAt (symbolIndex data)).valid = true
          ∧ ¬ Config.within s.cfg.rbufCap (s.wlen + (s.codeAt (symbolIndex data)).len)
          ∧ esymEffect data s = { s with terr := some .capacity, resp := .ok }) := by
  cases he : s.terr with
  | some e => exact .inl ⟨nofun, by simp only [esymEffect, he, State.respondOk]⟩
  | none =>
    cases hv : (s.codeAt (symbolIndex data)).valid with
    | false =>
      exact .inr (.inl ⟨rfl, rfl, by simp only [esymEffect, he, hv, if_true, latch_of_none _ he, State.respondOk]⟩)
    | true =>
      by_cases hw : Config.within s.cfg.rbufCap (s.wlen + (s.codeAt (symbolIndex data)).len)
      · exact .inr (.inr (.inl ⟨rfl, rfl, hw, by
          simp only [esymEffect, he, hv, Bool.true_eq_false, if_false, if_pos hw, State.respondOk]⟩))
      · exact .inr (.inr (.inr ⟨rfl, rfl, hw, by
          simp only [esymEffect, he, hv, Bool.true_eq_false, if_false, if_neg hw, latch_of_none _ he,
            State.respondOk]⟩))

/-- DBIT emitted `x` and left the cursor at `cursor`, or latched Capacity (44_decode.md R161). -/
def Emitted (s : State) (x : Byte) (cursor : Nat) (t : State) : Prop :=
  (s.cfg.rbufCap = some s.wlen ∧ t = { s with cur := cursor, terr := some .capacity, resp := .ok })
    ∨ (s.cfg.rbufCap ≠ some s.wlen ∧ Config.within s.cfg.rbufCap (s.wlen + 1)
      ∧ t = { s.stage [x] with cur := cursor, resp := .ok })

/-- What DBIT does with a bit, no error latched: a sole Leaf's symbol emitted, an Internal node passed, or a Leaf's
symbol emitted (44_decode.md R161). -/
def Descended (s : State) (b : Bool) (t : State) : Prop :=
  ((s.nodeAt s.root).kind = .leaf ∧ b = false ∧ Emitted s (s.nodeAt s.root).sym s.cur t)
    ∨ ((s.nodeAt s.root).kind = .internal ∧ (s.nodeAt ((s.nodeAt s.cur).child b)).kind = .internal
        ∧ t = { s with cur := (s.nodeAt s.cur).child b, resp := .ok })
    ∨ ((s.nodeAt s.root).kind = .internal ∧ (s.nodeAt ((s.nodeAt s.cur).child b)).kind = .leaf
        ∧ Emitted s (s.nodeAt ((s.nodeAt s.cur).child b)).sym s.root t)

/-- `emit` with no error latched, going on with `k`. -/
theorem emit_cases {x : Byte} {k : State → State} (he : s.terr = none) (h : emit x s (fun u => .next (k u)) = .next t) :
    (s.cfg.rbufCap = some s.wlen ∧ t = k { s with terr := some .capacity })
      ∨ (s.cfg.rbufCap ≠ some s.wlen ∧ Config.within s.cfg.rbufCap (s.wlen + 1) ∧ t = k (s.stage [x])) := by
  rcases emit_next h with ⟨hcap, h⟩ | ⟨hcap, hw, h⟩
  · exact .inl ⟨hcap, by rw [← latch_of_none _ he]; exact (Host.Outcome.next.inj h).symm⟩
  · exact .inr ⟨hcap, hw, (Host.Outcome.next.inj h).symm⟩

/-- DBIT (44_decode.md R161): ignored, a bad bit latched, or a bit taken. -/
theorem dbitEffect_cases {data : Byte} (h : dbitEffect data s = .next t) :
    (s.terr ≠ none ∧ t = { s with resp := .ok })
      ∨ (s.terr = none ∧ t = { s with terr := some .invalidBit, resp := .ok })
      ∨ (s.terr = none ∧ ∃ b, bitOfChar data = some b ∧ Descended s b t) := by
  rcases Option.eq_none_or_eq_some s.terr with he | ⟨e, he⟩
  · have hinvalid : (s.latch .invalidBit).respondOk = { s with terr := some .invalidBit, resp := .ok } := by
      rw [latch_of_none _ he, State.respondOk]
    refine .inr ?_
    cases hb : bitOfChar data with
    | none =>
      simp only [dbitEffect, he, hb] at h
      exact .inl ⟨he, (Host.Outcome.next.inj h).symm.trans hinvalid⟩
    | some b =>
      simp only [dbitEffect, he, hb] at h
      rcases descend_next h with ⟨_, _, _, rfl⟩ | ⟨_, hroot, hbit, h⟩ | ⟨_, hroot, _, _, ⟨hc, rfl⟩ | ⟨hc, h⟩⟩
      · exact .inl ⟨he, hinvalid⟩
      · exact .inr ⟨he, b, rfl, .inl ⟨hroot, hbit, emit_cases (k := fun u => u.respondOk) he h⟩⟩
      · exact .inr ⟨he, b, rfl, .inr (.inl ⟨hroot, hc, rfl⟩)⟩
      · exact .inr ⟨he, b, rfl, .inr (.inr ⟨hroot, hc,
          emit_cases (s := { s with cur := (s.nodeAt s.cur).child b })
            (k := fun u => State.respondOk { u with cur := u.root }) he h⟩)⟩
  · simp only [dbitEffect, he] at h
    exact .inl ⟨he ▸ nofun, (Host.Outcome.next.inj h).symm⟩

/-! ## From commands to steps -/

/-- A step keeps what looks neither at the command port nor at `resp` and what every command and a reset keep. -/
theorem step_keeps {P : State → Prop} (hport : ∀ s ps r, P s → P { s with port := ps, resp := r })
    (hreset : ∀ s, P s → P (resetBlock s)) (hexec : ∀ i s t, P s → exec i s = .next t → P t) (h : P s)
    (hs : step s = .next t) : P t := by
  rcases step_next hs with ⟨_, rfl⟩ | ⟨rest, _, rfl⟩ | ⟨_, rest, _, _, _, rfl⟩ | ⟨_, rest, i, _, _, he⟩
  · exact h
  · exact hreset _ (hport s rest s.resp h)
  · exact hport s rest _ h
  · exact hexec i _ t (hport s rest s.resp h) he

/-! ## The RAMs (R31 to R35) -/

section Listed

variable {α : Type} {P : Nat → Prop} {m : Memory α}

/-- The memory is in canonical form and lists only indices with the property. -/
def Listed (P : Nat → Prop) (m : Memory α) : Prop := m.wf ∧ ∀ e ∈ m, P e.1

theorem listed_nil (P : Nat → Prop) : Listed P ([] : Memory α) := ⟨List.Pairwise.nil, nofun⟩

theorem listed_write (h : Listed P m) {i : Nat} (hi : P i) (v : α) : Listed P (m.write i v) := by
  refine ⟨write_wf h.1 i v, fun e he => ?_⟩
  rcases mem_write he with rfl | he
  · exact hi
  · exact h.2 e he

theorem listed_writeFrom (h : Listed P m) {a : Nat} {vs : List α} (hvs : ∀ i < a + vs.length, P i) :
    Listed P (m.writeFrom a vs) := by
  refine ⟨writeFrom_wf h.1 a vs, fun e he => ?_⟩
  rcases mem_writeFrom he with he | ⟨_, hlt⟩
  · exact h.2 e he
  · exact hvs _ hlt

theorem listed_fill {n : Nat} (v : α) : Listed (· < n) (Memory.fill n v) :=
  ⟨fill_wf n v, fun _ he => (mem_fill he).1⟩

end Listed

/-- The four RAMs are canonical and list no index their space does not have. -/
structure Rams (s : State) : Prop where
  freq : Listed (· < Config.nsym) s.freq
  node : Listed (· < Config.nodeMax) s.node
  code : Listed (· < Config.nsym) s.code
  rbuf : Listed (fun a => ∀ c ∈ s.cfg.rbufCap, a < c) s.rbuf

theorem rams_iff : Rams s ↔ Canonical s ∧ InRange s := by
  constructor
  · rintro ⟨⟨f, f'⟩, ⟨n, n'⟩, ⟨c, c'⟩, ⟨r, r'⟩⟩
    exact ⟨⟨f, n, c, r⟩, f', n', c', fun cap hcap e he => r' e he cap hcap⟩
  · rintro ⟨⟨f, n, c, r⟩, f', n', c', r'⟩
    exact ⟨⟨f, f'⟩, ⟨n, n'⟩, ⟨c, c'⟩, ⟨r, fun e he cap hcap => r' cap hcap e he⟩⟩

theorem symbolIndex_lt (data : Byte) : symbolIndex data < Config.nsym := data.isLt

theorem listed_foldl_seedLeaf {P : Nat → Prop} (l : List Nat) (h : Listed P s.node)
    (hP : ∀ i < s.nn + l.length, P i) : Listed P (l.foldl seedLeaf s).node := by
  induction l generalizing s with
  | nil => exact h
  | cons x l ih =>
    rw [List.length_cons] at hP
    exact ih (listed_write h (hP _ (by omega)) _) fun i hi => hP i (by rw [seedLeaf_nn] at hi; omega)

theorem listed_mergeTimes {P : Nat → Prop} (tie : Config.TieBreak) (n : Nat) (h : Listed P s.node)
    (hP : ∀ i < s.nn + n, P i) : Listed P (mergeTimes tie n s).node := by
  induction n generalizing s with
  | zero => exact h
  | succ n ih =>
    have hmerge : Listed P (merge tie s).node := listed_write h (hP s.nn (by omega)) _
    exact ih hmerge fun i hi => hP i (by rw [merge_nn] at hi; omega)

/-- CEND writes NODE below index 2K − 1 (R43). -/
theorem listed_buildCodec_node (tie : Config.TieBreak) (hn : s.nn = 0) (hpq : s.pq = [])
    (h : Listed (· < Config.nodeMax) s.node) : Listed (· < Config.nodeMax) (buildCodec tie s).node := by
  have hk := keys_length_le s
  simp only [Config.nsym] at hk
  have hseed : Listed (· < Config.nodeMax) (seed s).node :=
    listed_foldl_seedLeaf s.keys h fun i hi => by simp only [Config.nodeMax]; omega
  refine listed_mergeTimes tie ((seed s).pq.length - 1) hseed fun i hi => ?_
  rw [seed_nn hn, seed_pq hn hpq, List.length_range] at hi
  simp only [Config.nodeMax]
  omega

theorem listed_visit (depth i : Nat) (a : List Bool) {table : Memory CodeEntry} (h : Listed (· < Config.nsym) table) :
    Listed (· < Config.nsym) (visit s depth i a table) := by
  induction depth generalizing i a table with
  | zero => exact h
  | succ depth ih =>
    cases hi : (s.nodeAt i).kind with
    | leaf => rw [visit_leaf hi]; exact listed_write h (symbolIndex_lt _) _
    | internal => rw [visit_internal hi]; exact ih _ _ (ih _ _ h)

theorem listed_walk_code (h : Listed (· < Config.nsym) s.code) : Listed (· < Config.nsym) (walk s).code := by
  cases hk : (s.nodeAt s.root).kind with
  | leaf => rw [walk_code_of_leaf hk]; exact listed_write h (symbolIndex_lt _) _
  | internal => rw [walk_code_of_internal hk]; exact listed_visit _ _ _ h

theorem rams_buildCodec (tie : Config.TieBreak) (hn : s.nn = 0) (hpq : s.pq = []) (h : Rams s) :
    Rams (buildCodec tie s) where
  freq := by rw [buildCodec_freq]; exact h.freq
  node := listed_buildCodec_node tie hn hpq h.node
  code := listed_walk_code (s := construction tie s) (by rw [construction_code]; exact h.code)
  rbuf := by rw [buildCodec_rbuf, buildCodec_cfg]; exact h.rbuf

/-- Staged bytes stay within the result buffer. -/
theorem rams_stage (h : Rams s) {bs : List Byte} (hw : Config.within s.cfg.rbufCap (s.wlen + bs.length)) :
    Rams (s.stage bs) :=
  ⟨h.freq, h.node, h.code, listed_writeFrom h.rbuf fun _ hi c hc => Nat.lt_of_lt_of_le hi (hw c hc)⟩

theorem rams_closeResult (h : Rams s) (kind : RKind) : Rams (s.closeResult kind) where
  freq := by rw [closeResult_freq]; exact h.freq
  node := by rw [closeResult_node]; exact h.node
  code := by rw [closeResult_code]; exact h.code
  rbuf := by rw [closeResult_rbuf, closeResult_cfg]; exact h.rbuf

theorem rams_latchTruncated (h : Rams s) : Rams s.latchTruncated where
  freq := by rw [latchTruncated_freq]; exact h.freq
  node := by rw [latchTruncated_node]; exact h.node
  code := by rw [latchTruncated_code]; exact h.code
  rbuf := by rw [latchTruncated_rbuf, latchTruncated_cfg]; exact h.rbuf

theorem rams_emitted {x : Byte} {cursor : Nat} (h : Rams s) (ht : Emitted s x cursor t) : Rams t := by
  rcases ht with ⟨_, rfl⟩ | ⟨_, hw, rfl⟩
  · exact ⟨h.freq, h.node, h.code, h.rbuf⟩
  · have hst := rams_stage h (bs := [x]) hw
    exact ⟨hst.freq, hst.node, hst.code, hst.rbuf⟩

theorem rams_dbitEffect {data : Byte} (h : Rams s) (ht : dbitEffect data s = .next t) : Rams t := by
  rcases dbitEffect_cases ht with ⟨_, rfl⟩ | ⟨_, rfl⟩ | ⟨_, _, _, ⟨_, _, ht⟩ | ⟨_, _, rfl⟩ | ⟨_, _, ht⟩⟩
  · exact ⟨h.freq, h.node, h.code, h.rbuf⟩
  · exact ⟨h.freq, h.node, h.code, h.rbuf⟩
  · exact rams_emitted h ht
  · exact ⟨h.freq, h.node, h.code, h.rbuf⟩
  · exact rams_emitted h ht

theorem rams_csymEffect (data : Byte) (h : Rams s) : Rams (csymEffect data s) := by
  rcases csymEffect_cases data s with ⟨_, heq⟩ | ⟨_, _, heq⟩ | ⟨_, _, heq⟩ <;> rw [heq]
  · exact ⟨h.freq, h.node, h.code, h.rbuf⟩
  · exact ⟨h.freq, h.node, h.code, h.rbuf⟩
  · exact ⟨listed_write h.freq (symbolIndex_lt data) _, h.node, h.code, h.rbuf⟩

theorem rams_esymEffect (data : Byte) (h : Rams s) : Rams (esymEffect data s) := by
  rcases esymEffect_cases data s with ⟨_, heq⟩ | ⟨_, _, heq⟩ | ⟨_, _, hw, heq⟩ | ⟨_, _, _, heq⟩ <;> rw [heq]
  · exact ⟨h.freq, h.node, h.code, h.rbuf⟩
  · exact ⟨h.freq, h.node, h.code, h.rbuf⟩
  · have hst := rams_stage h (bs := (s.codeAt (symbolIndex data)).path.map chr) (by simpa using hw)
    exact ⟨hst.freq, hst.node, hst.code, hst.rbuf⟩
  · exact ⟨h.freq, h.node, h.code, h.rbuf⟩

theorem rams_cendWith {tie : Config.TieBreak} (h : Rams s) (ht : cendWith tie s = .next t) : Rams t := by
  rcases cendWith_next ht with ⟨_, _, rfl⟩ | ⟨_, _, rfl⟩ | ⟨_, _, hn, hpq, _, rfl⟩
  · exact ⟨h.freq, h.node, h.code, h.rbuf⟩
  · exact ⟨h.freq, h.node, h.code, h.rbuf⟩
  · exact rams_buildCodec tie hn hpq h

/-- A command out of its phases keeps whatever does not look at `resp`; in its phases its effect has to. -/
theorem whenLegal_keeps {P : State → Prop} {i : Instr} {o : Outcome} (hresp : P (s.raise .badSequence))
    (ho : s.phase ∈ legalPhases i → o = .next t → P t) (ht : whenLegal i s o = .next t) : P t := by
  obtain ⟨hp, ht⟩ | ⟨_, ht⟩ := whenLegal_cases ht
  · exact ho hp ht
  · cases ht
    exact hresp

/-- The same for a command whose effect always answers a next state. -/
theorem whenLegal_next_keeps {P : State → Prop} {i : Instr} {u : State} (hresp : P (s.raise .badSequence))
    (ht : whenLegal i s (.next u) = .next t) (hu : s.phase ∈ legalPhases i → P u) : P t :=
  whenLegal_keeps hresp (fun hp e => Host.Outcome.next.inj e ▸ hu hp) ht

theorem exec_keeps_rams (i : Instr) (h : Rams s) (ht : exec i s = .next t) : Rams t := by
  have hresp : Rams (s.raise .badSequence) := ⟨h.freq, h.node, h.code, h.rbuf⟩
  cases i with
  | clr => exact whenLegal_next_keeps hresp ht fun _ => ⟨h.freq, h.node, h.code, h.rbuf⟩
  | cbegin => exact whenLegal_next_keeps hresp ht fun _ => ⟨listed_fill _, h.node, listed_fill _, h.rbuf⟩
  | csym data => exact whenLegal_next_keeps hresp ht fun _ => rams_csymEffect data h
  | cend => exact whenLegal_keeps hresp (fun _ ht => rams_cendWith h ht) ht
  | ebegin => exact whenLegal_next_keeps hresp ht fun _ => ⟨h.freq, h.node, h.code, h.rbuf⟩
  | esym data => exact whenLegal_next_keeps hresp ht fun _ => rams_esymEffect data h
  | eend => exact whenLegal_next_keeps hresp ht fun _ => rams_closeResult h .bits
  | dbegin => exact whenLegal_next_keeps hresp ht fun _ => ⟨h.freq, h.node, h.code, h.rbuf⟩
  | dbit data => exact whenLegal_keeps hresp (fun _ ht => rams_dbitEffect h ht) ht
  | dend => exact whenLegal_next_keeps hresp ht fun _ => rams_closeResult (rams_latchTruncated h) .syms

/-! ## The sequencing registers (R26, R27, R30, R33, R49) -/

theorem within_zero (b : Option Nat) : Config.within b 0 := fun _ _ => Nat.zero_le _

/-- Without a result and a latched error only `pq` and `wlen` are left to look at. -/
theorem sequencing_of_no_result (hpq : s.pq = []) (hkind : s.rkind = .none) (hlen : s.rlen = 0) (hterr : s.terr = none)
    (hw : Config.within s.cfg.rbufCap s.wlen) : Sequencing s where
  pqEmpty := hpq
  rlenWithin := by rw [hlen]; exact within_zero _
  wlenWithin := hw
  noneEmpty _ := hlen
  resultOnlyReady _ := hkind
  latchFits e he := by rw [hterr] at he; cases he

/-- A data command keeps the rules when it latches what its operation can latch and stages what fits. -/
theorem sequencing_of_data (h : Sequencing s) (hpq : t.pq = s.pq) (hcfg : t.cfg = s.cfg) (hlen : t.rlen = s.rlen)
    (hkind : t.rkind = s.rkind) (hphase : t.phase = s.phase) (hw : Config.within s.cfg.rbufCap t.wlen)
    (hterr : t.terr = s.terr ∨ ∃ k ∈ latchable s.phase, t.terr = some k) : Sequencing t where
  pqEmpty := hpq.trans h.pqEmpty
  rlenWithin := by rw [hcfg, hlen]; exact h.rlenWithin
  wlenWithin := by rw [hcfg]; exact hw
  noneEmpty hk := by rw [hlen]; exact h.noneEmpty (hkind ▸ hk)
  resultOnlyReady hp := by rw [hkind]; exact h.resultOnlyReady (hphase ▸ hp)
  latchFits e he := by
    rw [hphase]
    rcases hterr with hterr | ⟨k, hk, hterr⟩
    · exact h.latchFits e (hterr ▸ he)
    · rw [hterr] at he
      cases he
      exact hk

theorem sequencing_raise (h : Sequencing s) (r : Resp) : Sequencing (s.raise r) :=
  sequencing_of_data h rfl rfl rfl rfl rfl h.wlenWithin (.inl rfl)

theorem sequencing_latchTruncated_fields (h : Sequencing s) : s.latchTruncated.pq = []
    ∧ Config.within s.latchTruncated.cfg.rbufCap s.latchTruncated.wlen := by
  rw [latchTruncated_pq, latchTruncated_cfg, latchTruncated_wlen]
  exact ⟨h.pqEmpty, h.wlenWithin⟩

/-- The END of an operation commits the staged bytes, or nothing (R49). -/
theorem sequencing_closeResult {kind : RKind} (hkind : kind ≠ .none) (hpq : s.pq = [])
    (hw : Config.within s.cfg.rbufCap s.wlen) : Sequencing (s.closeResult kind) := by
  cases he : s.terr with
  | none =>
    rw [closeResult_of_none kind he]
    exact ⟨hpq, hw, hw, fun hk => absurd hk hkind, fun hp => absurd rfl hp, fun e h => by rw [he] at h; cases h⟩
  | some e =>
    rw [closeResult_of_some kind he]
    exact sequencing_of_no_result hpq rfl rfl rfl hw

theorem sequencing_csymEffect (data : Byte) (h : Sequencing s) (hp : s.phase = .count) :
    Sequencing (csymEffect data s) := by
  rcases csymEffect_cases data s with ⟨_, heq⟩ | ⟨_, _, heq⟩ | ⟨_, _, heq⟩ <;> rw [heq]
  · exact sequencing_of_data h rfl rfl rfl rfl rfl h.wlenWithin (.inl rfl)
  · exact sequencing_of_data h rfl rfl rfl rfl rfl h.wlenWithin (.inr ⟨.capacity, by rw [hp]; decide, rfl⟩)
  · exact sequencing_of_data h rfl rfl rfl rfl rfl h.wlenWithin (.inl rfl)

theorem sequencing_esymEffect (data : Byte) (h : Sequencing s) (hp : s.phase = .enc) :
    Sequencing (esymEffect data s) := by
  rcases esymEffect_cases data s with ⟨_, heq⟩ | ⟨_, _, heq⟩ | ⟨_, _, hw, heq⟩ | ⟨_, _, _, heq⟩ <;> rw [heq]
  · exact sequencing_of_data h rfl rfl rfl rfl rfl h.wlenWithin (.inl rfl)
  · exact sequencing_of_data h rfl rfl rfl rfl rfl h.wlenWithin (.inr ⟨.unknownSymbol, by rw [hp]; decide, rfl⟩)
  · exact sequencing_of_data h rfl rfl rfl rfl rfl (by simpa using hw) (.inl rfl)
  · exact sequencing_of_data h rfl rfl rfl rfl rfl h.wlenWithin (.inr ⟨.capacity, by rw [hp]; decide, rfl⟩)

theorem sequencing_emitted {x : Byte} {cursor : Nat} (h : Sequencing s) (hp : s.phase = .dec)
    (ht : Emitted s x cursor t) : Sequencing t := by
  rcases ht with ⟨_, rfl⟩ | ⟨_, hw, rfl⟩
  · exact sequencing_of_data h rfl rfl rfl rfl rfl h.wlenWithin (.inr ⟨.capacity, by rw [hp]; decide, rfl⟩)
  · exact sequencing_of_data h rfl rfl rfl rfl rfl hw (.inl rfl)

theorem sequencing_dbitEffect {data : Byte} (h : Sequencing s) (hp : s.phase = .dec)
    (ht : dbitEffect data s = .next t) : Sequencing t := by
  rcases dbitEffect_cases ht with ⟨_, rfl⟩ | ⟨_, rfl⟩ | ⟨_, _, _, ⟨_, _, ht⟩ | ⟨_, _, rfl⟩ | ⟨_, _, ht⟩⟩
  · exact sequencing_of_data h rfl rfl rfl rfl rfl h.wlenWithin (.inl rfl)
  · exact sequencing_of_data h rfl rfl rfl rfl rfl h.wlenWithin (.inr ⟨.invalidBit, by rw [hp]; decide, rfl⟩)
  · exact sequencing_emitted h hp ht
  · exact sequencing_of_data h rfl rfl rfl rfl rfl h.wlenWithin (.inl rfl)
  · exact sequencing_emitted h hp ht

/-- No result is left while a construction is open. -/
theorem no_result_of_not_ready (h : Sequencing s) (hp : s.phase ≠ .ready) : s.rkind = .none ∧ s.rlen = 0 :=
  ⟨h.resultOnlyReady hp, h.noneEmpty (h.resultOnlyReady hp)⟩

theorem sequencing_cendWith {tie : Config.TieBreak} (h : Sequencing s) (hp : s.phase = .count)
    (ht : cendWith tie s = .next t) : Sequencing t := by
  obtain ⟨hkind, hlen⟩ := no_result_of_not_ready h (by rw [hp]; nofun)
  rcases cendWith_next ht with ⟨_, _, rfl⟩ | ⟨he, _, rfl⟩ | ⟨he, _, _, _, _, rfl⟩
  · exact sequencing_of_no_result h.pqEmpty hkind hlen rfl h.wlenWithin
  · exact sequencing_of_no_result h.pqEmpty hkind hlen he h.wlenWithin
  · exact sequencing_of_no_result rfl (by simpa using hkind) (by simpa using hlen) (by simpa using he)
      (by simpa using h.wlenWithin)

theorem exec_keeps_sequencing (i : Instr) (h : Sequencing s) (ht : exec i s = .next t) : Sequencing t := by
  have hresp := sequencing_raise h .badSequence
  have hzero := within_zero s.cfg.rbufCap
  cases i with
  | clr => exact whenLegal_next_keeps hresp ht fun _ => sequencing_of_no_result rfl rfl rfl rfl hzero
  | cbegin => exact whenLegal_next_keeps hresp ht fun _ => sequencing_of_no_result h.pqEmpty rfl rfl rfl hzero
  | csym data => exact whenLegal_next_keeps hresp ht fun hp => sequencing_csymEffect data h (List.mem_singleton.1 hp)
  | cend => exact whenLegal_keeps (i := .cend) hresp (fun hp => sequencing_cendWith h (List.mem_singleton.1 hp)) ht
  | ebegin => exact whenLegal_next_keeps hresp ht fun _ => sequencing_of_no_result h.pqEmpty rfl rfl rfl hzero
  | esym data => exact whenLegal_next_keeps hresp ht fun hp => sequencing_esymEffect data h (List.mem_singleton.1 hp)
  | eend => exact whenLegal_next_keeps hresp ht fun _ => sequencing_closeResult nofun h.pqEmpty h.wlenWithin
  | dbegin => exact whenLegal_next_keeps hresp ht fun _ => sequencing_of_no_result h.pqEmpty rfl rfl rfl hzero
  | dbit data =>
    exact whenLegal_keeps (i := .dbit data) hresp (fun hp => sequencing_dbitEffect h (List.mem_singleton.1 hp)) ht
  | dend =>
    obtain ⟨hpq, hw⟩ := sequencing_latchTruncated_fields h
    exact whenLegal_next_keeps hresp ht fun _ => sequencing_closeResult nofun hpq hw

/-- Settles O43: each command keeps the rules, by what its effect does to the registers they speak of. -/
theorem stepKeepsTheSequencingRegisters : Obligations.StepKeepsTheSequencingRegisters := by
  intro s t h hs
  refine step_keeps (P := Sequencing) (fun s ps r h => ?_) (fun s _ => ?_) (fun i _ _ => exec_keeps_sequencing i) h hs
  · exact sequencing_of_data h rfl rfl rfl rfl rfl h.wlenWithin (.inl rfl)
  · exact sequencing_of_no_result rfl rfl rfl rfl (within_zero _)

end Sys2Proof.Invariants
end

section
/-! PROOFS for 10_state.md, the codec: which commands leave it alone (R50), and what the invariants say of its codes
(R44, R46, R47). -/

namespace Sys2Proof.Invariants

open Sys2Proof Sys2Proof.Machine Sys2Proof.Safety Sys2Proof.Laws

variable {s t : State}

/-! ## Words and their commands (30_encoding.md R91, R93) -/

/-- The three fields make up the word. -/
theorem toWord_ofWord (w : Word) : (Command.ofWord w).toWord = w := by
  apply BitVec.eq_of_getLsbD_eq
  intro i hi
  simp only [Command.toWord, Command.ofWord, BitVec.getLsbD_append, BitVec.getLsbD_extractLsb']
  by_cases h8 : i < 8
  · simp [h8]
  · by_cases h12 : i - 8 < 4
    · simp [h8, h12, show 8 + (i - 8) = i by omega]
    · have : i - 8 - 4 < 4 := by omega
      simp [h8, h12, this, show 12 + (i - 8 - 4) = i by omega]

theorem commandOf_fields {op : BitVec 4} {data : Byte} {i : Instr} (h : commandOf op data = some i) :
    i.opcode = op ∧ i.operand = if op = 0x3 ∨ op = 0x6 ∨ op = 0x9 then data else 0 := by
  have hop : op = BitVec.ofNat 4 op.toNat := by rw [BitVec.ofNat_toNat, BitVec.setWidth_eq]
  unfold commandOf at h
  split at h
  all_goals cases h
  all_goals
    rename_i hnum
    rw [hnum] at hop
    subst hop
    exact ⟨rfl, rfl⟩

theorem toCommand_of_decodeCommand {c : Command} {i : Instr} (h : decodeCommand c = .ok i) : i.toCommand = c := by
  unfold decodeCommand at h
  split at h
  · cases h
  · rename_i hc
    split at h
    · cases h
    · split at h
      · cases h
      · rename_i hr hd
        cases h
        obtain ⟨op, rsv, data⟩ := c
        obtain ⟨hop, hdata⟩ := commandOf_fields hc
        have hrsv : rsv = 0 := by simpa [Command.reservedZero] using hr
        have hzero : ¬ (op = 0x3 ∨ op = 0x6 ∨ op = 0x9) → data = 0 := by
          simpa [Command.dataAllowed, Command.takesData] using hd
        simp only [Instr.toCommand, hop, hdata, hrsv]
        split
        · rfl
        · rw [hzero ‹_›]

/-- A word that decodes is the word of its command. -/
theorem encode_of_decode {w : Word} {i : Instr} (h : decode w = .ok i) : encode i = w := by
  rw [encode, toCommand_of_decodeCommand h, toWord_ofWord]

/-! ## The commands that leave the codec alone (R50) -/

theorem sameCodec_refl (s : State) : SameCodec s s := ⟨rfl, rfl, rfl, rfl, rfl, rfl, rfl⟩

theorem sameCodec_esymEffect (data : Byte) (s : State) : SameCodec s (esymEffect data s) := by
  rcases esymEffect_cases data s with ⟨_, heq⟩ | ⟨_, _, heq⟩ | ⟨_, _, _, heq⟩ | ⟨_, _, _, heq⟩ <;> rw [heq] <;>
    exact sameCodec_refl s

theorem sameCodec_emitted {x : Byte} {cursor : Nat} (h : Emitted s x cursor t) : SameCodec s t := by
  rcases h with ⟨_, rfl⟩ | ⟨_, _, rfl⟩ <;> exact sameCodec_refl s

theorem sameCodec_dbitEffect {data : Byte} (h : dbitEffect data s = .next t) : SameCodec s t := by
  rcases dbitEffect_cases h with ⟨_, rfl⟩ | ⟨_, rfl⟩ | ⟨_, _, _, ⟨_, _, h⟩ | ⟨_, _, rfl⟩ | ⟨_, _, h⟩⟩
  · exact sameCodec_refl s
  · exact sameCodec_refl s
  · exact sameCodec_emitted h
  · exact sameCodec_refl s
  · exact sameCodec_emitted h

theorem sameCodec_closeResult (s : State) (kind : RKind) : SameCodec s (s.closeResult kind) := by
  simp [SameCodec]

theorem sameCodec_dend (s : State) : SameCodec s (s.latchTruncated.closeResult .syms) := by
  simp [SameCodec]

/-- With a codec, no command but CLR, and CBEGIN in READY, changes it: the construction commands are refused. -/
theorem exec_keeps_codec {i : Instr} (h : HasCodec s) (hclr : i ≠ .clr) (hbegin : s.phase = .ready → i ≠ .cbegin)
    (ht : exec i s = .next t) : SameCodec s t := by
  have hresp : SameCodec s (s.raise .badSequence) := sameCodec_refl s
  have hcount : s.phase ≠ .count := by rintro hp; rw [HasCodec, hp] at h; simp at h
  have hempty : s.phase ≠ .empty := by rintro hp; rw [HasCodec, hp] at h; simp at h
  cases i with
  | clr => exact absurd rfl hclr
  | cbegin =>
    refine whenLegal_next_keeps hresp ht fun hp => ?_
    rcases List.mem_pair.1 hp with hp | hp
    · exact absurd hp hempty
    · exact absurd rfl (hbegin hp)
  | csym data => exact whenLegal_next_keeps hresp ht fun hp => absurd (List.mem_singleton.1 hp) hcount
  | cend => exact whenLegal_keeps (i := .cend) hresp (fun hp _ => absurd (List.mem_singleton.1 hp) hcount) ht
  | ebegin => exact whenLegal_next_keeps hresp ht fun _ => sameCodec_refl s
  | esym data => exact whenLegal_next_keeps hresp ht fun _ => sameCodec_esymEffect data s
  | eend => exact whenLegal_next_keeps hresp ht fun _ => sameCodec_closeResult s .bits
  | dbegin => exact whenLegal_next_keeps hresp ht fun _ => sameCodec_refl s
  | dbit data => exact whenLegal_keeps (i := .dbit data) hresp (fun _ ht => sameCodec_dbitEffect ht) ht
  | dend => exact whenLegal_next_keeps hresp ht fun _ => sameCodec_dend s

/-- Settles O44: the step is idle, refused, or a command that leaves the codec alone, since the word of CLR and, in
READY, that of CBEGIN are excluded. -/
theorem codecIsImmutable : Obligations.CodecIsImmutable := by
  intro s t h hs hport
  rcases step_next hs with ⟨_, rfl⟩ | ⟨rest, hp, _⟩ | ⟨_, rest, _, _, _, rfl⟩ | ⟨w, rest, i, hp, hd, ht⟩
  · exact sameCodec_refl t
  · exact absurd hp (hport rest).1
  · exact sameCodec_refl s
  · obtain ⟨_, hclr, hbegin⟩ := hport rest
    have hw := encode_of_decode hd
    refine exec_keeps_codec (s := { s with port := rest }) h ?_ ?_ ht
    · rintro rfl
      exact hclr (by rw [hp, ← hw]; rfl)
    · rintro hready rfl
      exact hbegin hready (by rw [hp, ← hw]; rfl)

/-! ## Keys and their codes -/

theorem isKey_iff (h : CodecOk s) (x : Byte) : IsKey s x ↔ s.freqAt x.toNat ≠ 0 := by
  have hcode := h.code x.toNat x.isLt
  constructor
  · intro hv hf
    rw [IsKey, hcode.absent hf] at hv
    cases hv
  · intro hf
    rw [IsKey, hcode.entry hf]
    rfl

/-- The symbol of a Leaf is a key. -/
theorem isKey_of_leaf (h : CodecOk s) {i : Nat} (hi : i < s.nn) (hk : (s.nodeAt i).kind = .leaf) :
    IsKey s (s.nodeAt i).sym := by
  have hpos := (mem_keys.1 (key_of_leaf h.tree (lt_ksyms_of_leaf h.tree hi hk))).2
  exact (isKey_iff h _).2 (Nat.ne_of_gt hpos)

theorem key_code_sole (h : CodecOk s) {x : Byte} (hx : IsKey s x) (hk : s.ksyms = 1) : codeOf s x = [false] :=
  (h.code x.toNat x.isLt).single ((isKey_iff h x).1 hx) hk

/-- With two keys or more a key's code leads to the Leaf of the key. -/
theorem key_code_path (h : CodecOk s) {x : Byte} (hx : IsKey s x) (hk : s.ksyms ≠ 1) :
    ∃ i < s.ksyms, descendPath s s.root (codeOf s x) = some i ∧ (s.nodeAt i).sym = x := by
  obtain ⟨i, hi, hp, hsym⟩ := (h.code x.toNat x.isLt).path ((isKey_iff h x).1 hx) hk
  exact ⟨i, hi, hp, by rw [hsym, BitVec.ofNat_toNat, BitVec.setWidth_eq]⟩

/-- There is only one key when K = 1. -/
theorem key_unique (h : CodecOk s) (hk : s.ksyms = 1) {x y : Byte} (hx : IsKey s x) (hy : IsKey s y) : x = y := by
  have hkeys : s.keys.length = 1 := h.tree.ksymsKeys ▸ hk
  obtain ⟨z, hz⟩ := List.length_eq_one_iff.1 hkeys
  have hmem : ∀ {w : Byte}, IsKey s w → w.toNat = z := fun {w} hw =>
    List.mem_singleton.1 (hz ▸ mem_keys.2 ⟨w.isLt, Nat.pos_of_ne_zero ((isKey_iff h w).1 hw)⟩)
  exact BitVec.eq_of_toNat_eq ((hmem hx).trans (hmem hy).symm)

/-- Settles O46: a code that continues another would pass through a Leaf. -/
theorem codesArePrefixFree : Obligations.CodesArePrefixFree := by
  rintro s x y hinv hcodec hx hy hne ⟨rest, hrest⟩
  have h := hinv.codec hcodec
  by_cases hk : s.ksyms = 1
  · exact hne (key_unique h hk hx hy)
  · obtain ⟨i, hi, hpx, hsx⟩ := key_code_path h hx hk
    obtain ⟨j, hj, hpy, hsy⟩ := key_code_path h hy hk
    rw [← hrest, descendPath_append, hpx, Option.bind_some] at hpy
    obtain ⟨-, rfl⟩ := descendPath_of_leaf (kind_of_lt_ksyms h.tree hi) hpy
    exact hne (hsx.symm.trans hsy)

/-- Settles O47: the path to a Leaf passes an Internal node for each label, and starts at one unless K = 1. -/
theorem codeLengthIsBounded : Obligations.CodeLengthIsBounded := by
  intro s x hinv hcodec hx
  have h := hinv.codec hcodec
  have hlen : (s.codeAt x.toNat).len = (codeOf s x).length := (path_length _).symm
  rw [hlen]
  constructor
  · intro hk
    rw [key_code_sole h hx hk]
    rfl
  · intro hk
    obtain ⟨i, hi, hp, -⟩ := key_code_path h hx (by omega)
    obtain ⟨-, hle, hmax⟩ := path_length_le h.tree hp
    have hpos : codeOf s x ≠ [] := by
      intro hnil
      rw [hnil] at hp
      have hleaf := kind_of_lt_ksyms h.tree hi
      rw [← Option.some.inj hp, root_internal h.tree (by omega)] at hleaf
      cases hleaf
    exact ⟨List.length_pos_iff.2 hpos, hle, hmax⟩

/-- Settles O48: the root weighs what the Leaves weigh, and they weigh the input. -/
theorem rootWeightIsTheInputLength : Obligations.RootWeightIsTheInputLength := by
  intro s hinv hcodec
  have h := hinv.codec hcodec
  rw [root_weight h.tree, h.map.total]

end Sys2Proof.Invariants
end

section
/-! PROOFS for 10_state.md, the invariants: every step keeps R40 to R49. -/

namespace Sys2Proof.Invariants

open Sys2Proof Sys2Proof.Machine Sys2Proof.Safety Sys2Proof.Laws

variable {s t : State}

/-! ## What the invariants say of each phase -/

/-- The clauses of the invariants about what the RAMs and the codec registers hold (R40 to R49). -/
structure Contents (s : State) : Prop where
  counting : s.phase = .count → Counting s
  codec : HasCodec s → CodecOk s
  staged : s.phase = .enc → BitsBelow s s.wlen
  emitted : s.phase = .dec → SymsBelow s s.wlen
  cursor : s.phase = .dec → CursorOk s
  bits : s.rkind = .bits → BitsBelow s s.rlen
  syms : s.rkind = .syms → SymsBelow s s.rlen

theorem inv_iff : Inv s ↔ s.cfg.wf ∧ Rams s ∧ Sequencing s ∧ Contents s := by
  rw [rams_iff]
  constructor
  · intro h
    exact ⟨h.cfg, ⟨h.canonical, h.inRange⟩, h.sequencing, h.counting, h.codec, h.staged, h.emitted, h.cursor, h.bits,
      h.syms⟩
  · rintro ⟨hcfg, ⟨hcan, hrange⟩, hseq, h⟩
    exact ⟨hcfg, hcan, hrange, hseq, h.counting, h.codec, h.staged, h.emitted, h.cursor, h.bits, h.syms⟩

section ByPhase

variable (hkind : s.rkind = .none)

include hkind

theorem contents_of_empty (hp : s.phase = .empty) : Contents s := by
  constructor <;> simp [hp, hkind, HasCodec]

theorem contents_of_count (hp : s.phase = .count) (h : Counting s) : Contents s := by
  constructor <;> simp [hp, hkind, HasCodec, h]

theorem contents_of_enc (hp : s.phase = .enc) (h : CodecOk s) (hb : BitsBelow s s.wlen) : Contents s := by
  refine ⟨?_, fun _ => h, fun _ => hb, ?_, ?_, ?_, ?_⟩ <;> simp [hp, hkind]

theorem contents_of_dec (hp : s.phase = .dec) (h : CodecOk s) (hs : SymsBelow s s.wlen) (hc : CursorOk s) :
    Contents s := by
  refine ⟨?_, fun _ => h, ?_, fun _ => hs, fun _ => hc, ?_, ?_⟩ <;> simp [hp, hkind]

end ByPhase

theorem contents_of_ready (hp : s.phase = .ready) (h : CodecOk s) (hb : s.rkind = .bits → BitsBelow s s.rlen)
    (hs : s.rkind = .syms → SymsBelow s s.rlen) : Contents s := by
  refine ⟨?_, fun _ => h, ?_, ?_, ?_, hb, hs⟩ <;> simp [hp]

/-- The contents do not look at the command port, nor at `resp`. -/
theorem contents_port_resp (h : Contents s) (ps : List PortEvent) (r : Resp) :
    Contents { s with port := ps, resp := r } where
  counting hp := counting_congr (s := s) (sameCodec_refl s) rfl rfl (h.counting hp)
  codec hp := codecOk_congr (s := s) (sameCodec_refl s) rfl rfl (h.codec hp)
  staged := h.staged
  emitted := h.emitted
  cursor := h.cursor
  bits := h.bits
  syms := h.syms

/-! ## COUNT -/

theorem counting_cbeginEffect (s : State) : Counting (cbeginEffect s) := by
  have hread : ∀ x < Config.nsym, (cbeginEffect s).freq.read x = some 0 := fun _ hx => read_fill 0 hx
  refine ⟨⟨fun x hx => by rw [hread x hx]; rfl, ?_, within_zero _⟩, rfl, fun _ hx => read_fill _ hx⟩
  exact (freqTotal_eq_sum _).trans (Finset.sum_eq_zero fun x hx => freqAt_of_read (hread x (Finset.mem_range.1 hx)))

/-- Counting a symbol adds one to the sum of the counts (R41). -/
theorem freqTotal_setFreq_succ (s : State) {x : Nat} (hx : x < Config.nsym) :
    freqTotal (s.setFreq x (s.freqAt x + 1)) = freqTotal s + 1 := by
  have hat : ∀ y, (s.setFreq x (s.freqAt x + 1)).freqAt y = s.freqAt y + if y = x then 1 else 0 := by
    intro y
    rw [freqAt_setFreq]
    split_ifs with hy
    · rw [hy]
    · rfl
  rw [freqTotal_eq_sum, freqTotal_eq_sum, Finset.sum_congr rfl fun y _ => hat y, Finset.sum_add_distrib,
    Finset.sum_ite_eq', if_pos (Finset.mem_range.2 hx)]

theorem mapOk_counted (h : MapOk s) (hmax : s.cfg.nMax ≠ some s.ntotal) {x : Nat} (hx : x < Config.nsym) :
    MapOk { s.setFreq x (s.freqAt x + 1) with ntotal := s.ntotal + 1 } where
  written y hy := by
    show ((s.freq.write x _).read y).isSome
    rw [read_write]
    split
    · rfl
    · exact h.written y hy
  total := (freqTotal_setFreq_succ s hx).trans (congrArg (· + 1) h.total)
  bounded c hc := by
    have hle : s.ntotal ≤ c := h.bounded c hc
    have hne : c ≠ s.ntotal := fun heq => hmax (heq ▸ hc)
    exact Nat.lt_of_le_of_ne hle hne.symm

theorem counting_csymEffect (data : Byte) (h : Counting s) : Counting (csymEffect data s) := by
  rcases csymEffect_cases data s with ⟨_, heq⟩ | ⟨_, _, heq⟩ | ⟨_, hmax, heq⟩ <;> rw [heq]
  · exact counting_congr (s := s) (sameCodec_refl s) rfl rfl h
  · exact counting_congr (s := s) (sameCodec_refl s) rfl rfl h
  · have hmap := mapOk_counted h.map hmax (symbolIndex_lt data)
    exact ⟨⟨hmap.written, hmap.total, hmap.bounded⟩, h.fresh, h.blank⟩

theorem contents_csymEffect (data : Byte) (hseq : Sequencing s) (h : Contents s) (hp : s.phase = .count) :
    Contents (csymEffect data s) := by
  have hkind := hseq.resultOnlyReady (by rw [hp]; nofun)
  have hc := counting_csymEffect data (h.counting hp)
  rcases csymEffect_cases data s with ⟨_, heq⟩ | ⟨_, _, heq⟩ | ⟨_, _, heq⟩ <;> rw [heq] at hc ⊢ <;>
    exact contents_of_count hkind hp hc

theorem contents_cendWith {tie : Config.TieBreak} (hseq : Sequencing s) (h : Contents s) (hp : s.phase = .count)
    (ht : cendWith tie s = .next t) : Contents t := by
  have hkind := hseq.resultOnlyReady (by rw [hp]; nofun)
  rcases cendWith_next ht with ⟨_, _, rfl⟩ | ⟨_, _, rfl⟩ | ⟨_, hpos, _, hpq, hk, rfl⟩
  · exact contents_of_empty hkind rfl
  · exact contents_of_empty hkind rfl
  · have hnone : (buildCodec tie s).rkind = .none := by rw [buildCodec_rkind, hkind]
    refine contents_of_ready rfl (codecOk_buildCodec tie (h.counting hp) hpq (Nat.pos_of_ne_zero hpos) hk) ?_ ?_
    · rw [hnone]; nofun
    · rw [hnone]; nofun

/-! ## Staged bytes (R49) -/

/-- Staging keeps what holds of the bytes staged before, if it holds of the new ones too. -/
theorem stage_bytes {P : Byte → Prop} {bs : List Byte}
    (h : ∀ a < s.wlen, (Memory.read s.rbuf a).isSome ∧ P (s.rbufAt a)) (hbs : ∀ b ∈ bs, P b) :
    ∀ a < s.wlen + bs.length, (Memory.read (s.stage bs).rbuf a).isSome ∧ P ((s.stage bs).rbufAt a) := by
  intro a ha
  by_cases hlt : a < s.wlen
  · rw [rbufAt_stage_outside s (.inl hlt), stage_rbuf, read_writeFrom_outside _ _ (.inl hlt)]
    exact h a hlt
  · obtain ⟨j, rfl⟩ := Nat.exists_eq_add_of_le (Nat.le_of_not_lt hlt)
    have hj : j < bs.length := by omega
    rw [rbufAt_stage_inside s hj, stage_rbuf, read_writeFrom_inside _ _ _ hj, List.getElem?_eq_getElem hj]
    exact ⟨rfl, hbs _ (List.getElem_mem hj)⟩

theorem bitsBelow_esymEffect (data : Byte) (h : BitsBelow s s.wlen) :
    BitsBelow (esymEffect data s) (esymEffect data s).wlen := by
  rcases esymEffect_cases data s with ⟨_, heq⟩ | ⟨_, _, heq⟩ | ⟨_, _, _, heq⟩ | ⟨_, _, _, heq⟩ <;> rw [heq]
  · exact h
  · exact h
  · refine stage_bytes (P := fun b => b = Config.ch0 ∨ b = Config.ch1) h fun b hb => ?_
    obtain ⟨bit, -, rfl⟩ := List.mem_map.1 hb
    exact chr_eq_ch bit
  · exact h

/-- ESYM leaves the phase and the result registers alone. -/
theorem esymEffect_result (data : Byte) (s : State) :
    (esymEffect data s).phase = s.phase ∧ (esymEffect data s).rkind = s.rkind := by
  rcases esymEffect_cases data s with ⟨_, heq⟩ | ⟨_, _, heq⟩ | ⟨_, _, _, heq⟩ | ⟨_, _, _, heq⟩ <;> rw [heq] <;>
    exact ⟨rfl, rfl⟩

theorem contents_esymEffect (data : Byte) (hseq : Sequencing s) (h : Contents s) (hp : s.phase = .enc)
    (hcodec : CodecOk (esymEffect data s)) : Contents (esymEffect data s) := by
  obtain ⟨hphase, hkind⟩ := esymEffect_result data s
  exact contents_of_enc (hkind.trans (hseq.resultOnlyReady (by rw [hp]; nofun))) (hphase.trans hp) hcodec
    (bitsBelow_esymEffect data (h.staged hp))

/-! ## The cursor and the symbols emitted (R48, R49) -/

theorem cursorOk_root (h : TreeOk s) (hcur : s.cur = s.root) : CursorOk s :=
  ⟨hcur ▸ root_lt_nn h, fun _ => hcur, fun hk => hcur ▸ root_internal h hk⟩

/-- With an Internal root, a step down from the cursor reaches an allocated node. -/
theorem cursor_child (h : TreeOk s) (hc : CursorOk s) (hroot : (s.nodeAt s.root).kind = .internal) (b : Bool) :
    s.ksyms ≠ 1 ∧ (s.nodeAt s.cur).child b < s.nn := by
  obtain ⟨hlt, -, hkind⟩ := hc
  have hk : s.ksyms ≠ 1 := by
    intro hk
    rw [(root_leaf_iff h).2 hk] at hroot
    cases hroot
  exact ⟨hk, Nat.lt_trans (child_lt (internalOk_of_kind h hlt (hkind hk)).2 b) hlt⟩

/-- Emitting a key keeps the emitted symbols keys. -/
theorem contents_emitted {x : Byte} {cursor : Nat} (hp : s.phase = .dec) (hkind : s.rkind = .none) (hcodec : CodecOk t)
    (hsyms : SymsBelow s s.wlen) (hx : IsKey s x) (hc : CursorOk { s with cur := cursor }) (ht : Emitted s x cursor t) :
    Contents t := by
  rcases ht with ⟨_, rfl⟩ | ⟨_, _, rfl⟩
  · exact contents_of_dec hkind hp hcodec hsyms hc
  · refine contents_of_dec hkind hp hcodec ?_ hc
    exact stage_bytes (P := fun b => IsKey s b) hsyms fun b hb => List.mem_singleton.1 hb ▸ hx

theorem contents_dbitEffect {data : Byte} (hseq : Sequencing s) (h : Contents s) (hp : s.phase = .dec)
    (hkept : CodecOk t) (ht : dbitEffect data s = .next t) : Contents t := by
  have hkind := hseq.resultOnlyReady (by rw [hp]; nofun)
  have hcodec := h.codec (.inr (.inr hp))
  have htree := hcodec.tree
  have hsyms := h.emitted hp
  have hcur := h.cursor hp
  rcases dbitEffect_cases ht with ⟨_, rfl⟩ | ⟨_, rfl⟩ | ⟨_, b, _, ⟨hroot, _, ht⟩ | ⟨hroot, hc, rfl⟩ | ⟨hroot, hc, ht⟩⟩
  · exact contents_of_dec hkind hp hkept hsyms hcur
  · exact contents_of_dec hkind hp hkept hsyms hcur
  · exact contents_emitted hp hkind hkept hsyms (isKey_of_leaf hcodec (root_lt_nn htree) hroot) hcur ht
  · obtain ⟨hk, hlt⟩ := cursor_child htree hcur hroot b
    exact contents_of_dec hkind hp hkept hsyms ⟨hlt, fun h1 => absurd h1 hk, fun _ => hc⟩
  · obtain ⟨-, hlt⟩ := cursor_child htree hcur hroot b
    have hback : CursorOk { s with cur := s.root } := ⟨root_lt_nn htree, fun _ => rfl, fun _ => hroot⟩
    exact contents_emitted hp hkind hkept hsyms (isKey_of_leaf hcodec hlt hc) hback ht

/-! ## The END of an operation (R49) -/

/-- A result left by the END of an operation is the staged one, of the operation's kind. -/
theorem closeResult_result {kind k : RKind} (hk : (s.closeResult kind).rkind = k) (hne : k ≠ .none) :
    kind = k ∧ (s.closeResult kind).rlen = s.wlen := by
  rcases Option.eq_none_or_eq_some s.terr with he | ⟨e, he⟩
  · rw [closeResult_of_none kind he] at hk ⊢
    exact ⟨hk, rfl⟩
  · rw [closeResult_of_some kind he] at hk
    exact absurd hk.symm hne

theorem contents_closeResult {kind : RKind} (hcodec : CodecOk (s.closeResult kind))
    (hb : kind = .bits → BitsBelow s s.wlen) (hs : kind = .syms → SymsBelow s s.wlen) : Contents (s.closeResult kind) := by
  refine contents_of_ready (closeResult_phase s kind) hcodec ?_ ?_
  · intro hk
    obtain ⟨hk, hlen⟩ := closeResult_result hk nofun
    rw [hlen, BitsBelow, closeResult_rbuf]
    intro a ha
    rw [rbufAt_congr (closeResult_rbuf s kind) (closeResult_resets s kind)]
    exact hb hk a ha
  · intro hk
    obtain ⟨hk, hlen⟩ := closeResult_result hk nofun
    rw [hlen, SymsBelow, closeResult_rbuf]
    intro a ha
    rw [rbufAt_congr (closeResult_rbuf s kind) (closeResult_resets s kind),
      codeAt_congr (closeResult_code s kind) (closeResult_resets s kind)]
    exact hs hk a ha

/-- What DEND closes is the state of the decode, its latch aside. -/
theorem symsBelow_latchTruncated {n : Nat} (h : SymsBelow s n) : SymsBelow s.latchTruncated n := by
  intro a ha
  rw [latchTruncated_rbuf, rbufAt_congr (latchTruncated_rbuf s) (latchTruncated_resets s),
    codeAt_congr (latchTruncated_code s) (latchTruncated_resets s)]
  exact h a ha

/-! ## Every command and every step -/

theorem exec_keeps_codecOk {i : Instr} (hc : HasCodec s) (hclr : i ≠ .clr) (hbegin : s.phase = .ready → i ≠ .cbegin)
    (h : CodecOk s) (ht : exec i s = .next t) : CodecOk t := by
  obtain ⟨hcfg, -, hresets⟩ := exec_keeps_model ht
  exact codecOk_congr (exec_keeps_codec hc hclr hbegin ht) hcfg hresets h

theorem exec_keeps_contents (i : Instr) (hseq : Sequencing s) (h : Contents s) (ht : exec i s = .next t) :
    Contents t := by
  have hresp : Contents (s.raise .badSequence) := contents_port_resp h s.port .badSequence
  have hcodec : HasCodec s → i ≠ .clr → i ≠ .cbegin → CodecOk t := fun hc hclr hbegin =>
    exec_keeps_codecOk hc hclr (fun _ => hbegin) (h.codec hc) ht
  cases i with
  | clr => exact whenLegal_next_keeps hresp ht fun _ => contents_of_empty rfl rfl
  | cbegin => exact whenLegal_next_keeps hresp ht fun _ => contents_of_count rfl rfl (counting_cbeginEffect s)
  | csym data => exact whenLegal_next_keeps hresp ht fun hp => contents_csymEffect data hseq h (List.mem_singleton.1 hp)
  | cend => exact whenLegal_keeps (i := .cend) hresp (fun hp => contents_cendWith hseq h (List.mem_singleton.1 hp)) ht
  | ebegin =>
    refine whenLegal_keeps (i := .ebegin) hresp (fun hp he => ?_) ht
    have hc := hcodec (.inl (List.mem_singleton.1 hp)) nofun nofun
    cases he
    exact contents_of_enc rfl rfl hc nofun
  | esym data =>
    refine whenLegal_keeps (i := .esym data) hresp (fun hp he => ?_) ht
    have henc := List.mem_singleton.1 hp
    have hc := hcodec (.inr (.inl henc)) nofun nofun
    cases he
    exact contents_esymEffect data hseq h henc hc
  | eend =>
    refine whenLegal_keeps (i := .eend) hresp (fun hp he => ?_) ht
    have henc := List.mem_singleton.1 hp
    have hc := hcodec (.inr (.inl henc)) nofun nofun
    cases he
    exact contents_closeResult hc (fun _ => h.staged henc) nofun
  | dbegin =>
    refine whenLegal_keeps (i := .dbegin) hresp (fun hp he => ?_) ht
    have hc := hcodec (.inl (List.mem_singleton.1 hp)) nofun nofun
    cases he
    exact contents_of_dec rfl rfl hc nofun (cursorOk_root hc.tree rfl)
  | dbit data =>
    refine whenLegal_keeps (i := .dbit data) hresp (fun hp he => ?_) ht
    have hdec := List.mem_singleton.1 hp
    exact contents_dbitEffect hseq h hdec (hcodec (.inr (.inr hdec)) nofun nofun) he
  | dend =>
    refine whenLegal_keeps (i := .dend) hresp (fun hp he => ?_) ht
    have hdec := List.mem_singleton.1 hp
    have hc := hcodec (.inr (.inr hdec)) nofun nofun
    cases he
    refine contents_closeResult hc nofun fun _ => symsBelow_latchTruncated ?_
    rw [latchTruncated_wlen]
    exact h.emitted hdec

theorem exec_keeps_inv (i : Instr) (h : Inv s) (ht : exec i s = .next t) : Inv t := by
  obtain ⟨hcfg, hrams, hseq, hcon⟩ := inv_iff.1 h
  have hsame := (exec_keeps_model ht).1
  exact inv_iff.2 ⟨by rw [hsame]; exact hcfg, exec_keeps_rams i hrams ht, exec_keeps_sequencing i hseq ht,
    exec_keeps_contents i hseq hcon ht⟩

/-- A reset leaves nothing for the invariants to speak of but the parameters. -/
theorem inv_resetBlock (h : Inv s) : Inv (resetBlock s) :=
  inv_iff.2 ⟨h.cfg, ⟨listed_nil _, listed_nil _, listed_nil _, listed_nil _⟩,
    sequencing_of_no_result rfl rfl rfl rfl (within_zero _), contents_of_empty rfl rfl⟩

/-- Settles O40: each command keeps the RAMs, the registers and their contents as the invariants want them. -/
theorem stepKeepsTheInvariant : Obligations.StepKeepsTheInvariant := by
  intro s t h hs
  exact step_keeps (P := Inv) (fun _ ps r h => inv_port_resp h ps r) (fun _ => inv_resetBlock)
    (fun i _ _ => exec_keeps_inv i) h hs

/-! ## Reset and the status port -/

/-- Settles O11: a reset event answers the block's reset state. -/
theorem resetGivesEveryRegisterItsResetValue : Obligations.ResetGivesEveryRegisterItsResetValue := by
  intro s rest hp
  have hstep : step s = .next (resetBlock { s with port := rest }) := by
    simp only [step, State.takeInput, hp]
  exact ⟨_, hstep, rfl, rfl, rfl, rfl, rfl, rfl, rfl, rfl, rfl, rfl, rfl, rfl, rfl, rfl,
    fun _ => ⟨rfl, rfl, rfl, rfl⟩, rfl, rfl⟩

/-- Settles O38: the codes by their tables; a length below 2^32 survives its 32 bits. -/
theorem statusPortDrivesTheCodes : Obligations.StatusPortDrivesTheCodes := by
  refine ⟨by decide, by decide, by decide, fun s => ⟨rfl, rfl, rfl, fun h => ?_⟩⟩
  exact (BitVec.toNat_ofNat _ _).trans (Nat.mod_eq_of_lt h)

end Sys2Proof.Invariants
end

section
/-! PROOFS for 10_state.md, R40 and R51: what EMPTY leaves behind is never read before it is rewritten. Two blocks that
differ only in it are run side by side: in EMPTY they may differ in everything stale; from CBEGIN on they differ only in
what the open codec and the open result do not reach. -/

namespace Sys2Proof.Invariants

open Sys2Proof Sys2Proof.Machine Sys2Proof.Safety Sys2Proof.Laws

variable {s t : State}

/-! ## Twins: two blocks outside EMPTY -/

/-- What two blocks outside EMPTY may differ in: NODE, RBUF and the free RAM contents, the cursor, the walker. -/
structure Hidden where
  node : Memory NodeEntry
  rbuf : List Host.Cell
  resets : Nat
  cur : Nat
  acc : BitVec 255
  accLen : BitVec 8

/-- The second block, from the first. -/
def Hidden.put (d : Hidden) (s : State) : State :=
  { s with node := d.node, rbuf := d.rbuf, resets := d.resets, cur := d.cur, acc := d.acc, accLen := d.accLen }

/-- The two blocks agree on the allocated nodes, on the bytes staged or committed, and on the cursor of a decode. -/
structure Twin (d : Hidden) (s : State) : Prop where
  nodes : ∀ i < s.nn, (d.put s).nodeAt i = s.nodeAt i
  staged : ∀ a < s.wlen, (d.put s).rbufAt a = s.rbufAt a
  result : ∀ a < s.rlen, (d.put s).rbufAt a = s.rbufAt a
  cursor : s.phase = .dec → d.cur = s.cur

/-- Both blocks answer a next state, and the two are twins again. -/
def Follows (o o' : Outcome) : Prop := ∃ s d, o = .next s ∧ o' = .next (d.put s) ∧ Twin d s

theorem follows_next {d : Hidden} (h : Twin d s) (ht : t = d.put s) : Follows (.next s) (.next t) :=
  ⟨s, d, rfl, ht ▸ rfl, h⟩

section Operations

variable {d : Hidden} (h : Twin d s)

include h

theorem twin_respondOk : Twin d s.respondOk := ⟨h.nodes, h.staged, h.result, h.cursor⟩

theorem twin_raise (r : Resp) : Twin d (s.raise r) := ⟨h.nodes, h.staged, h.result, h.cursor⟩

theorem twin_latch (k : Latched) : (d.put s).latch k = d.put (s.latch k) ∧ Twin d (s.latch k) := by
  refine ⟨Scope.latch_comm rfl rfl, ?_⟩
  unfold State.latch
  split
  · exact ⟨h.nodes, h.staged, h.result, h.cursor⟩
  · exact h

/-- A beat that latches an error answers OK in both blocks. -/
theorem follows_latch (k : Latched) : Follows (.next (s.latch k).respondOk) (.next ((d.put s).latch k).respondOk) := by
  obtain ⟨heq, ht⟩ := twin_latch h k
  exact follows_next (twin_respondOk ht) (congrArg State.respondOk heq)

theorem follows_whenLegal {i : Instr} {o o' : Outcome} (ho : s.phase ∈ legalPhases i → Follows o o') :
    Follows (whenLegal i s o) (whenLegal i (d.put s) o') := by
  by_cases hp : s.phase ∈ legalPhases i
  · rw [whenLegal_of_mem _ hp, whenLegal_of_mem (s := d.put s) _ hp]
    exact ho hp
  · rw [whenLegal_of_not_mem _ hp, whenLegal_of_not_mem (s := d.put s) _ hp]
    exact follows_next (twin_raise h _) rfl

/-- Two buffers that read alike at an index do so after the same bytes have been staged. -/
theorem rbufAt_stage_put {bs : List Byte} {a : Nat}
    (ha : a < s.wlen + bs.length ∨ (d.put s).rbufAt a = s.rbufAt a) :
    ((d.put s).stage bs).rbufAt a = (s.stage bs).rbufAt a := by
  have hwlen : (d.put s).wlen = s.wlen := rfl
  by_cases hlt : a < s.wlen
  · rw [rbufAt_stage_outside s (.inl hlt), rbufAt_stage_outside (d.put s) (.inl hlt)]
    exact h.staged a hlt
  · by_cases hin : a < s.wlen + bs.length
    · obtain ⟨j, rfl⟩ := Nat.exists_eq_add_of_le (Nat.le_of_not_lt hlt)
      have hj : j < bs.length := by omega
      rw [rbufAt_stage_inside s hj]
      exact rbufAt_stage_inside (d.put s) hj
    · rw [rbufAt_stage_outside s (.inr (by omega)), rbufAt_stage_outside (d.put s) (.inr (by omega))]
      exact ha.resolve_left hin

theorem twin_stage (bs : List Byte) :
    ∃ d', (d.put s).stage bs = d'.put (s.stage bs) ∧ Twin d' (s.stage bs) :=
  ⟨{ d with rbuf := Memory.writeFrom d.rbuf s.wlen bs }, rfl,
    ⟨h.nodes, fun _ ha => rbufAt_stage_put h (.inl ha), fun a ha => rbufAt_stage_put h (.inr (h.result a ha)),
      h.cursor⟩⟩

theorem twin_closeResult (kind : RKind) :
    (d.put s).closeResult kind = d.put (s.closeResult kind) ∧ Twin d (s.closeResult kind) := by
  refine ⟨Scope.closeResult_comm rfl rfl fun _ => rfl, ?_⟩
  rcases Option.eq_none_or_eq_some s.terr with he | ⟨e, he⟩
  · rw [closeResult_of_none kind he]
    exact ⟨h.nodes, h.staged, h.staged, nofun⟩
  · rw [closeResult_of_some kind he]
    exact ⟨h.nodes, h.staged, nofun, nofun⟩

theorem follows_closeResult (kind : RKind) :
    Follows (.next (s.closeResult kind)) (.next ((d.put s).closeResult kind)) := by
  obtain ⟨heq, ht⟩ := twin_closeResult h kind
  exact follows_next ht heq

end Operations

/-! ## The data commands of twins -/

/-- A written count reads alike in twins. -/
theorem freqAt_put (d : Hidden) {x : Nat} (h : (s.freq.read x).isSome) : (d.put s).freqAt x = s.freqAt x := by
  obtain ⟨n, hn⟩ := Option.isSome_iff_exists.1 h
  rw [freqAt_of_read hn]
  exact freqAt_of_read (s := d.put s) hn

theorem codeAt_put (d : Hidden) {x : Nat} (h : (s.code.read x).isSome) : (d.put s).codeAt x = s.codeAt x := by
  obtain ⟨e, he⟩ := Option.isSome_iff_exists.1 h
  rw [codeAt_of_read he]
  exact codeAt_of_read (s := d.put s) he

section Data

variable {d : Hidden} (h : Twin d s)

include h

theorem follows_csymEffect (data : Byte) (hmap : MapOk s) :
    Follows (.next (csymEffect data s)) (.next (csymEffect data (d.put s))) := by
  have hat := freqAt_put d (hmap.written _ (symbolIndex_lt data))
  have hterr : (d.put s).terr = s.terr := rfl
  have hcfg : (d.put s).cfg = s.cfg := rfl
  have htotal : (d.put s).ntotal = s.ntotal := rfl
  simp only [csymEffect, hat, hterr, hcfg, htotal]
  split
  · exact follows_next (twin_respondOk h) rfl
  · split_ifs
    · exact follows_latch h .capacity
    · exact follows_next ⟨h.nodes, h.staged, h.result, h.cursor⟩ rfl

theorem follows_esymEffect (data : Byte) (hcodec : CodecOk s) :
    Follows (.next (esymEffect data s)) (.next (esymEffect data (d.put s))) := by
  have hat := codeAt_put d (hcodec.code _ (symbolIndex_lt data)).written
  have hterr : (d.put s).terr = s.terr := rfl
  have hcfg : (d.put s).cfg = s.cfg := rfl
  have hwlen : (d.put s).wlen = s.wlen := rfl
  simp only [esymEffect, hat, hterr, hcfg, hwlen]
  split
  · exact follows_next (twin_respondOk h) rfl
  · split_ifs
    · exact follows_latch h .unknownSymbol
    · obtain ⟨d', heq, ht⟩ := twin_stage h ((s.codeAt (symbolIndex data)).path.map chr)
      exact follows_next (twin_respondOk ht) (congrArg State.respondOk heq)
    · exact follows_latch h .capacity

/-- An allocated node exists in both blocks and is the same in both. -/
theorem follows_withNode {i : Nat} {k k' : NodeEntry → Outcome} (hi : i < s.nn) (hn : s.nn ≤ Config.nodeMax)
    (hk : Follows (k (s.nodeAt i)) (k' (s.nodeAt i))) : Follows (withNode s i k) (withNode (d.put s) i k') := by
  have hlt : i < Config.nodeMax := Nat.lt_of_lt_of_le hi hn
  rw [withNode_of_lt k hlt, withNode_of_lt k' hlt, h.nodes i hi]
  exact hk

/-- Within the buffer `emit` goes on in both blocks, with the error latched or the symbol staged. -/
theorem follows_emit {x : Byte} {k : State → State} (hw : Config.within s.cfg.rbufCap s.wlen)
    (hk : ∀ u d', Twin d' u → u.root = s.root → Follows (.next (k u)) (.next (k (d'.put u)))) :
    Follows (emit x s fun u => .next (k u)) (emit x (d.put s) fun u => .next (k u)) := by
  have hcfg : (d.put s).cfg = s.cfg := rfl
  have hwlen : (d.put s).wlen = s.wlen := rfl
  have hroom : s.cfg.rbufCap ≠ some s.wlen → Config.within s.cfg.rbufCap (s.wlen + 1) := fun hne c hc =>
    Nat.lt_of_le_of_ne (hw c hc) fun heq => hne (heq ▸ hc)
  simp only [emit, hcfg, hwlen]
  split_ifs with hfull hfits
  · obtain ⟨heq, ht⟩ := twin_latch h .capacity
    rw [heq]
    exact hk _ d ht (latch_root s _)
  · obtain ⟨d', heq, ht⟩ := twin_stage h [x]
    rw [heq]
    exact hk _ d' ht rfl
  · exact absurd (hroom hfull) hfits

/-- Moving the cursor of both blocks to one place. -/
theorem twin_setCur (c : Nat) : Twin { d with cur := c } { s with cur := c } :=
  ⟨h.nodes, h.staged, h.result, fun _ => rfl⟩

theorem follows_descend (b : Bool) (hseq : Sequencing s) (hcodec : CodecOk s) (hcur : CursorOk s)
    (hp : s.phase = .dec) : Follows (descend b s) (descend b (d.put s)) := by
  have htree := hcodec.tree
  have hn := nn_le_nodeMax htree
  refine follows_withNode h (root_lt_nn htree) hn ?_
  cases hroot : (s.nodeAt s.root).kind with
  | leaf =>
    cases b with
    | true => exact follows_latch h .invalidBit
    | false =>
      exact follows_emit h (k := State.respondOk) hseq.wlenWithin fun u d' ht _ => follows_next (twin_respondOk ht) rfl
  | internal =>
    obtain ⟨-, hchild⟩ := cursor_child htree hcur hroot b
    have hsame : (d.put s).cur = s.cur := h.cursor hp
    rw [hsame]
    refine follows_withNode h hcur.1 hn (follows_withNode h hchild hn ?_)
    have hmoved := twin_setCur h ((s.nodeAt s.cur).child b)
    cases hk : (s.nodeAt ((s.nodeAt s.cur).child b)).kind with
    | leaf =>
      exact follows_emit hmoved (k := fun u => State.respondOk { u with cur := u.root }) hseq.wlenWithin
        fun u d' ht _ => follows_next (twin_respondOk (twin_setCur ht u.root)) rfl
    | internal =>
      exact follows_next (twin_respondOk hmoved) rfl

theorem follows_dbitEffect (data : Byte) (hseq : Sequencing s) (hcodec : CodecOk s) (hcur : CursorOk s)
    (hp : s.phase = .dec) : Follows (dbitEffect data s) (dbitEffect data (d.put s)) := by
  have hterr : (d.put s).terr = s.terr := rfl
  simp only [dbitEffect, hterr]
  split
  · exact follows_next (twin_respondOk h) rfl
  · split
    · exact follows_latch h .invalidBit
    · exact follows_descend h _ hseq hcodec hcur hp

theorem follows_dend (hp : s.phase = .dec) :
    Follows (.next (s.latchTruncated.closeResult .syms)) (.next ((d.put s).latchTruncated.closeResult .syms)) := by
  have hcur : (d.put s).cur = s.cur := h.cursor hp
  have hroot : (d.put s).root = s.root := rfl
  simp only [State.latchTruncated, hcur, hroot]
  split
  · exact follows_closeResult h .syms
  · obtain ⟨heq, ht⟩ := twin_latch h .truncatedCode
    rw [heq]
    exact follows_closeResult ht .syms

end Data

/-! ## CEND of twins: both build the same tree and the same code table -/

section Build

variable {d : Hidden}

/-- The entry allocated next is the same in both blocks. -/
theorem nodeAt_setNode_put (h : Twin d s) (e : NodeEntry) {i : Nat} (hi : i < s.nn + 1) :
    ((d.put s).setNode s.nn e).nodeAt i = (s.setNode s.nn e).nodeAt i := by
  rw [nodeAt_setNode, nodeAt_setNode]
  split_ifs with hnew
  · rfl
  · exact h.nodes i (by omega)

theorem twin_seedLeaf (h : Twin d s) {x : Nat} (hx : (s.freq.read x).isSome) :
    ∃ d', seedLeaf (d.put s) x = d'.put (seedLeaf s x) ∧ Twin d' (seedLeaf s x) := by
  refine ⟨{ d with node := d.node.write s.nn (leafOf s x) }, ?_,
    ⟨fun i hi => nodeAt_setNode_put h _ hi, h.staged, h.result, h.cursor⟩⟩
  simp only [seedLeaf, freqAt_put d hx]
  rfl

theorem twin_foldl_seedLeaf (l : List Nat) (h : Twin d s) (hl : ∀ x ∈ l, (s.freq.read x).isSome) :
    ∃ d', l.foldl seedLeaf (d.put s) = d'.put (l.foldl seedLeaf s) ∧ Twin d' (l.foldl seedLeaf s) := by
  induction l generalizing s d with
  | nil => exact ⟨d, rfl, h⟩
  | cons x l ih =>
    obtain ⟨d', heq, ht⟩ := twin_seedLeaf h (hl x List.mem_cons_self)
    simp only [List.foldl_cons, heq]
    exact ih ht fun y hy => hl y (List.mem_cons_of_mem x hy)

theorem keys_put (d : Hidden) (hmap : MapOk s) : (d.put s).keys = s.keys :=
  List.filter_congr fun x hx => by rw [freqAt_put d (hmap.written x (List.mem_range.1 hx))]

theorem twin_seed (h : Twin d s) (hmap : MapOk s) : ∃ d', seed (d.put s) = d'.put (seed s) ∧ Twin d' (seed s) := by
  obtain ⟨d', heq, ht⟩ := twin_foldl_seedLeaf s.keys h fun x hx => hmap.written x (mem_keys.1 hx).1
  refine ⟨d', ?_, ⟨ht.nodes, ht.staged, ht.result, ht.cursor⟩⟩
  simp only [seed, keys_put d hmap, heq]
  rfl

theorem leastWeight_congr {l : List Nat} (h : ∀ i ∈ l, t.nodeAt i = s.nodeAt i) :
    leastWeight t l = leastWeight s l := by
  induction l with
  | nil => rfl
  | cons i l ih =>
    have hi := h i List.mem_cons_self
    cases l with
    | nil => simp only [leastWeight, hi]
    | cons j l => simp only [leastWeight, hi, ih fun k hk => h k (List.mem_cons_of_mem i hk)]

/-- An extraction looks only at `pq`, at the weights in it and at the draw. -/
theorem extractMin_congr (tie : Config.TieBreak) (hpq : t.pq = s.pq) (hdraws : t.draws = s.draws)
    (hat : ∀ i ∈ s.pq, t.nodeAt i = s.nodeAt i) : (extractMin tie t).1 = (extractMin tie s).1 := by
  have hcand : candidates t = candidates s := by
    simp only [candidates, hpq, leastWeight_congr hat]
    exact List.filter_congr fun i hi => by rw [hat i hi]
  simp only [extractMin, hdraws, hcand]

/-- Both blocks merge the same two nodes. -/
theorem twin_merge (tie : Config.TieBreak) (h : Twin d s) (hf : Forest s) (hlen : 2 ≤ s.pq.length) :
    ∃ d', merge tie (d.put s) = d'.put (merge tie s) ∧ Twin d' (merge tie s) := by
  have hlr := lightest_extracted tie hf.sorted hlen
  have hat : ∀ i ∈ s.pq, (d.put s).nodeAt i = s.nodeAt i := fun i hi => h.nodes i (hf.below i hi)
  have hl : (extractMin tie (d.put s)).1 = (extractMin tie s).1 := extractMin_congr tie rfl rfl hat
  have hpq : (extractMin tie (d.put s)).2.pq = (extractMin tie s).2.pq := by
    rw [extractMin_pq, extractMin_pq, hl]
    rfl
  have hr : (extractMin tie (extractMin tie (d.put s)).2).1 = (extractMin tie (extractMin tie s).2).1 :=
    extractMin_congr tie hpq rfl fun i hi => hat i (List.mem_of_mem_erase hi)
  have hparent : parentOf (d.put s) (extractMin tie s).1 (extractMin tie (extractMin tie s).2).1
      = parentOf s (extractMin tie s).1 (extractMin tie (extractMin tie s).2).1 := by
    simp only [parentOf, hat _ hlr.left_mem, hat _ hlr.right_mem]
  rw [merge_eq, merge_eq, hl, hr]
  refine ⟨{ d with node := d.node.write s.nn (parentOf s _ _) }, ?_,
    ⟨fun i hi => nodeAt_setNode_put h _ hi, h.staged, h.result, h.cursor⟩⟩
  simp only [mergedState, hparent]
  rfl

theorem twin_mergeTimes (tie : Config.TieBreak) (n : Nat) (h : Twin d s) (hf : Forest s) (hn : n < s.pq.length) :
    ∃ d', mergeTimes tie n (d.put s) = d'.put (mergeTimes tie n s) ∧ Twin d' (mergeTimes tie n s) := by
  induction n generalizing s d with
  | zero => exact ⟨d, rfl, h⟩
  | succ n ih =>
    obtain ⟨hm, hlen⟩ := forest_merge tie hf (by omega)
    obtain ⟨d', heq, ht⟩ := twin_merge tie h hf (by omega)
    simp only [mergeTimes, heq]
    exact ih ht hm (by omega)

/-- A visit looks only at the nodes below the one it starts from. -/
theorem visit_put (h : Twin d s) (htree : TreeOk s) (depth : Nat) {i : Nat} (hi : i < s.nn) (a : List Bool)
    (table : Memory CodeEntry) : visit (d.put s) depth i a table = visit s depth i a table := by
  induction depth generalizing i a table with
  | zero => rfl
  | succ depth ih =>
    have hat := h.nodes i hi
    cases hk : (s.nodeAt i).kind with
    | leaf => rw [visit_leaf hk, visit_leaf (by rw [hat, hk]), hat]
    | internal =>
      have hint := (internalOk_of_kind htree hi hk).2
      have hchild : ∀ b, (s.nodeAt i).child b < s.nn := fun b => Nat.lt_trans (child_lt hint b) hi
      rw [visit_internal hk, visit_internal (by rw [hat, hk]), hat, ih (hchild false), ih (hchild true)]

theorem walk_code_put (h : Twin d s) (htree : TreeOk s) : (walk (d.put s)).code = (walk s).code := by
  have hroot := root_lt_nn htree
  have hat : (d.put s).nodeAt (d.put s).root = s.nodeAt s.root := h.nodes s.root hroot
  cases hk : (s.nodeAt s.root).kind with
  | leaf =>
    rw [walk_code_of_leaf hk, walk_code_of_leaf (by rw [hat, hk]), hat]
    rfl
  | internal =>
    rw [walk_code_of_internal hk, walk_code_of_internal (by rw [hat, hk])]
    exact visit_put h htree _ hroot _ _

theorem twin_walk (h : Twin d s) (htree : TreeOk s) : ∃ d', walk (d.put s) = d'.put (walk s) ∧ Twin d' (walk s) := by
  refine ⟨{ d with acc := Config.walkAcc s.draws, accLen := Config.walkAccLen s.draws }, ?_,
    ⟨h.nodes, h.staged, h.result, h.cursor⟩⟩
  have hwalk : walk (d.put s) = { walk (d.put s) with code := (walk (d.put s)).code } := rfl
  rw [hwalk, walk_code_put h htree]
  rfl

theorem follows_buildCodec (tie : Config.TieBreak) (h : Twin d s) (hc : Counting s) (hpq : s.pq = [])
    (hk : s.keys ≠ []) : Follows (.next (buildCodec tie s)) (.next (buildCodec tie (d.put s))) := by
  have hlen : 0 < (seed s).pq.length := by
    rw [seed_pq hc.fresh hpq, List.length_range]
    exact List.length_pos_iff.2 hk
  obtain ⟨d₁, hseed, h₁⟩ := twin_seed h hc.map
  obtain ⟨d₂, hloop, h₂⟩ := twin_mergeTimes tie ((seed s).pq.length - 1) h₁ (forest_seed hc.fresh hpq) (by omega)
  have hfinish : Twin d₂ (construction tie s) := ⟨h₂.nodes, h₂.staged, h₂.result, h₂.cursor⟩
  have hput : construction tie (d.put s) = d₂.put (construction tie s) := by
    have hsame : (d₁.put (seed s)).pq = (seed s).pq := rfl
    rw [construction, hseed, hsame, hloop]
    rfl
  obtain ⟨d₃, hwalk, h₃⟩ := twin_walk hfinish (treeOk_construction tie hc.fresh hpq hk)
  rw [buildCodec_eq, buildCodec_eq, hput, hwalk]
  exact follows_next (d := d₃) ⟨h₃.nodes, h₃.staged, h₃.result, nofun⟩ rfl

theorem follows_cendWith (tie : Config.TieBreak) (h : Twin d s) (hc : Counting s) (hpq : s.pq = []) :
    Follows (cendWith tie s) (cendWith tie (d.put s)) := by
  have hterr : (d.put s).terr = s.terr := rfl
  have htotal : (d.put s).ntotal = s.ntotal := rfl
  have hfresh : ¬ (s.nn ≠ 0 ∨ s.pq ≠ []) := by
    rintro (hn | hq)
    · exact hn hc.fresh
    · exact hq hpq
  have hfresh' : ¬ ((d.put s).nn ≠ 0 ∨ (d.put s).pq ≠ []) := hfresh
  simp only [cendWith, hterr, htotal, keys_put d hc.map, if_neg hfresh, if_neg hfresh']
  split
  · exact follows_next ⟨h.nodes, h.staged, h.result, nofun⟩ rfl
  · split_ifs with hzero hnone
    · exact follows_next ⟨h.nodes, h.staged, h.result, nofun⟩ rfl
    · exact absurd hnone (keys_ne_nil hc.map hzero)
    · exact follows_buildCodec tie h hc hpq hnone

end Build

/-! ## Every command -/

/-- From twins that meet the invariants every command completes, in twins. -/
theorem exec_follows {d : Hidden} (i : Instr) (h : Twin d s) (hseq : Sequencing s) (hcon : Contents s) :
    Follows (exec i s) (exec i (d.put s)) := by
  cases i with
  | clr =>
    exact follows_whenLegal h fun _ => follows_next (d := { d with cur := 0, acc := 0, accLen := 0 })
      ⟨nofun, nofun, nofun, nofun⟩ rfl
  | cbegin => exact follows_whenLegal h fun _ => follows_next (d := d) ⟨nofun, nofun, nofun, nofun⟩ rfl
  | csym data =>
    exact follows_whenLegal h fun hp => follows_csymEffect h data (hcon.counting (List.mem_singleton.1 hp)).map
  | cend =>
    exact follows_whenLegal (i := .cend) h fun hp =>
      follows_cendWith Config.tieDraw h (hcon.counting (List.mem_singleton.1 hp)) hseq.pqEmpty
  | ebegin => exact follows_whenLegal h fun _ => follows_next (d := d) ⟨h.nodes, nofun, nofun, nofun⟩ rfl
  | esym data =>
    exact follows_whenLegal h fun hp => follows_esymEffect h data (hcon.codec (.inr (.inl (List.mem_singleton.1 hp))))
  | eend => exact follows_whenLegal h fun _ => follows_closeResult h .bits
  | dbegin =>
    exact follows_whenLegal h fun _ => follows_next (d := { d with cur := s.root })
      ⟨h.nodes, nofun, nofun, fun _ => rfl⟩ rfl
  | dbit data =>
    refine follows_whenLegal (i := .dbit data) h fun hp => ?_
    have hdec := List.mem_singleton.1 hp
    exact follows_dbitEffect h data hseq (hcon.codec (.inr (.inr hdec))) (hcon.cursor hdec) hdec
  | dend => exact follows_whenLegal h fun hp => follows_dend h (List.mem_singleton.1 hp)

/-! ## EMPTY before the first CLR or CBEGIN -/

/-- What two blocks in EMPTY may differ in. -/
structure Stale where
  freq : Memory Nat
  node : Memory NodeEntry
  code : Memory CodeEntry
  rbuf : List Host.Cell
  resets : Nat
  ntotal : Nat
  ksyms : Nat
  nn : Nat
  root : Nat
  cur : Nat
  wlen : Nat
  acc : BitVec 255
  accLen : BitVec 8

/-- The second block, from the first. -/
def Stale.put (u : Stale) (s : State) : State :=
  { s with
    freq := u.freq, node := u.node, code := u.code, rbuf := u.rbuf, resets := u.resets, ntotal := u.ntotal
    ksyms := u.ksyms, nn := u.nn, root := u.root, cur := u.cur, wlen := u.wlen, acc := u.acc, accLen := u.accLen }

/-- In EMPTY, with no result, nothing latched and `pq` empty. -/
structure Vacant (s : State) : Prop where
  phase : s.phase = .empty
  rlen : s.rlen = 0
  pq : s.pq = []
  terr : s.terr = none

/-- Two blocks that no host can tell apart: vacant ones, or twins that meet the invariants. -/
def Alike (s t : State) : Prop :=
  (Vacant s ∧ ∃ u : Stale, t = u.put s) ∨ (Sequencing s ∧ Contents s ∧ ∃ d : Hidden, Twin d s ∧ t = d.put s)

/-- In EMPTY a command is CLR, which leaves the block vacant, CBEGIN, after which the blocks are twins, or refused. -/
theorem exec_alike_of_vacant (i : Instr) (u : Stale) (h : Vacant s) :
    ∃ s' t', exec i s = .next s' ∧ exec i (u.put s) = .next t' ∧ Alike s' t' := by
  have hresp : ∀ r, Alike (s.raise r) ((u.put s).raise r) := fun r => .inl ⟨⟨h.phase, h.rlen, h.pq, h.terr⟩, u, rfl⟩
  have refused : ∀ {j : Instr} {o o' : Outcome}, s.phase ∉ legalPhases j →
      ∃ s' t', whenLegal j s o = .next s' ∧ whenLegal j (u.put s) o' = .next t' ∧ Alike s' t' := fun {j o o'} hp =>
    ⟨_, _, whenLegal_of_not_mem o hp, whenLegal_of_not_mem (s := u.put s) o' hp, hresp _⟩
  have hempty : ∀ {p : Phase}, p ≠ .empty → s.phase ∉ [p] := fun hp hmem =>
    hp ((List.mem_singleton.1 hmem).symm.trans h.phase)
  cases i with
  | clr =>
    have hp : s.phase ∈ legalPhases .clr := by rw [h.phase]; decide
    refine ⟨_, _, whenLegal_of_mem _ hp, whenLegal_of_mem (s := u.put s) _ hp, .inl ⟨⟨rfl, rfl, rfl, rfl⟩, ?_⟩⟩
    exact ⟨{ u with ntotal := 0, ksyms := 0, nn := 0, root := 0, cur := 0, wlen := 0, acc := 0, accLen := 0 }, rfl⟩
  | cbegin =>
    have hp : s.phase ∈ legalPhases .cbegin := by rw [h.phase]; decide
    refine ⟨_, _, whenLegal_of_mem _ hp, whenLegal_of_mem (s := u.put s) _ hp, .inr ⟨?_, ?_, ?_⟩⟩
    · exact sequencing_of_no_result h.pq rfl rfl rfl (within_zero _)
    · exact contents_of_count rfl rfl (counting_cbeginEffect s)
    · exact ⟨{ node := u.node, rbuf := u.rbuf, resets := u.resets, cur := u.cur, acc := u.acc, accLen := u.accLen },
        ⟨nofun, nofun, nofun, nofun⟩, rfl⟩
  | csym data => exact refused (hempty nofun)
  | cend => exact refused (hempty nofun)
  | ebegin => exact refused (hempty nofun)
  | esym data => exact refused (hempty nofun)
  | eend => exact refused (hempty nofun)
  | dbegin => exact refused (hempty nofun)
  | dbit data => exact refused (hempty nofun)
  | dend => exact refused (hempty nofun)

theorem exec_alike (i : Instr) (h : Alike s t) :
    ∃ s' t', exec i s = .next s' ∧ exec i t = .next t' ∧ Alike s' t' := by
  rcases h with ⟨hv, u, rfl⟩ | ⟨hseq, hcon, d, ht, rfl⟩
  · exact exec_alike_of_vacant i u hv
  · obtain ⟨s', d', hs, ht', h'⟩ := exec_follows i ht hseq hcon
    exact ⟨s', _, hs, ht', .inr ⟨exec_keeps_sequencing i hseq hs, exec_keeps_contents i hseq hcon hs, d', h', rfl⟩⟩

theorem runCommands_alike (commands : List Instr) (h : Alike s t) :
    ∃ u v, runCommands commands s = .next u ∧ runCommands commands t = .next v ∧ Alike u v := by
  induction commands generalizing s t with
  | nil => exact ⟨s, t, rfl, rfl, h⟩
  | cons i commands ih =>
    obtain ⟨s', t', hs, ht, h'⟩ := exec_alike i h
    simp only [runCommands, hs, ht]
    exact ih h'

/-- The host sees the same on both ports. -/
theorem alike_visible (h : Alike s t) : t.status = s.status ∧ t.result = s.result := by
  rcases h with ⟨hv, u, rfl⟩ | ⟨_, _, d, ht, rfl⟩
  · have hlen : (u.put s).rlen = 0 := hv.rlen
    exact ⟨rfl, by simp only [State.result, hv.rlen, hlen, List.range_zero, List.map_nil]⟩
  · exact ⟨rfl, List.map_congr_left fun a ha => ht.result a (List.mem_range.1 ha)⟩

/-- Settles O60: the two blocks start vacant, every command keeps them alike, and alike blocks show the same. -/
theorem contentsInEmptyAreUnobservable : Obligations.ContentsInEmptyAreUnobservable := by
  intro s t commands hphase hrlen hpq hterr ht
  have hstart : Alike s t := .inl ⟨⟨hphase, hrlen, hpq, hterr⟩,
    ⟨t.freq, t.node, t.code, t.rbuf, t.resets, t.ntotal, t.ksyms, t.nn, t.root, t.cur, t.wlen, t.acc, t.accLen⟩, ht⟩
  obtain ⟨u, v, hu, hv, halike⟩ := runCommands_alike commands hstart
  exact ⟨u, v, hu, hv, alike_visible halike⟩

end Sys2Proof.Invariants
end

section
/-! PROOFS for 20_memory.md: the command port feeds the commands in order and influences none of them (R75), the result
port shows only the result (R70), and the model's stops at indices no space has (R65). -/

namespace Sys2Proof.HostPorts

open Sys2Proof Sys2Proof.Machine Sys2Proof.Safety Sys2Proof.Laws Sys2Proof.Scope Sys2Proof.Invariants

/-! ## A command's word decodes to the command (30_encoding.md R91, R93) -/

theorem ofWord_toWord (c : Command) : Command.ofWord c.toWord = c := by
  obtain ⟨op, rsv, data⟩ := c
  have hop : (op ++ rsv ++ data).extractLsb' 12 4 = op := by
    rw [BitVec.extractLsb'_append_eq_of_le (by decide), BitVec.extractLsb'_append_eq_left]
  have hrsv : (op ++ rsv ++ data).extractLsb' 8 4 = rsv := by
    rw [BitVec.extractLsb'_append_eq_of_le (by decide), BitVec.extractLsb'_append_eq_right]
  have hdata : (op ++ rsv ++ data).extractLsb' 0 8 = data := BitVec.extractLsb'_append_eq_right
  simp only [Command.ofWord, Command.toWord, hop, hrsv, hdata]

theorem fieldsWellFormed : ∀ i : Instr, FieldsWellFormed.Statement i
  | .clr => FieldsWellFormed.clr
  | .cbegin => FieldsWellFormed.cbegin
  | .csym data => FieldsWellFormed.csym data
  | .cend => FieldsWellFormed.cend
  | .ebegin => FieldsWellFormed.ebegin
  | .esym data => FieldsWellFormed.esym data
  | .eend => FieldsWellFormed.eend
  | .dbegin => FieldsWellFormed.dbegin
  | .dbit data => FieldsWellFormed.dbit data
  | .dend => FieldsWellFormed.dend

theorem decode_encode (i : Instr) : decode (encode i) = .ok i := by
  obtain ⟨hwf, hcommand⟩ := fieldsWellFormed i
  simp only [Command.wellFormed, Bool.and_eq_true] at hwf
  obtain ⟨⟨_, hreserved⟩, hdata⟩ := hwf
  simp [decode, encode, ofWord_toWord, decodeCommand, hcommand, hreserved, hdata]

/-! ## The command port influences no command (R75)

Each command commutes with overwriting the command port: it neither reads the port nor writes it. -/

/-- The state with its command port overwritten. -/
def withPort (q : List PortEvent) (s : State) : State := { s with port := q }

section Commutes

variable (q : List PortEvent) (s : State)

@[simp] theorem withPort_ntotal : (withPort q s).ntotal = s.ntotal := rfl
@[simp] theorem withPort_nn : (withPort q s).nn = s.nn := rfl
@[simp] theorem withPort_root : (withPort q s).root = s.root := rfl
@[simp] theorem withPort_cur : (withPort q s).cur = s.cur := rfl
@[simp] theorem withPort_wlen : (withPort q s).wlen = s.wlen := rfl
@[simp] theorem withPort_terr : (withPort q s).terr = s.terr := rfl
@[simp] theorem withPort_pq : (withPort q s).pq = s.pq := rfl
@[simp] theorem withPort_cfg : (withPort q s).cfg = s.cfg := rfl
@[simp] theorem withPort_keys : (withPort q s).keys = s.keys := rfl
@[simp] theorem withPort_nodeAt (i : Nat) : (withPort q s).nodeAt i = s.nodeAt i := rfl
@[simp] theorem withPort_codeAt (x : Nat) : (withPort q s).codeAt x = s.codeAt x := rfl

theorem latch_withPort (k : Latched) : (withPort q s).latch k = withPort q (s.latch k) := latch_comm rfl rfl

theorem closeResult_withPort (kind : RKind) : (withPort q s).closeResult kind = withPort q (s.closeResult kind) :=
  closeResult_comm rfl rfl fun _ => rfl

theorem csymEffect_withPort (data : Byte) : csymEffect data (withPort q s) = withPort q (csymEffect data s) := by
  simp only [csymEffect, withPort_terr, withPort_cfg, withPort_ntotal, latch_withPort]
  split
  · rfl
  · split_ifs <;> rfl

theorem esymEffect_withPort (data : Byte) : esymEffect data (withPort q s) = withPort q (esymEffect data s) := by
  simp only [esymEffect, withPort_terr, withPort_codeAt, withPort_cfg, withPort_wlen, latch_withPort]
  split
  · rfl
  · split_ifs <;> rfl

/-! The decode commands -/

theorem withNode_withPort (i : Nat) {k k' : NodeEntry → Outcome} (hk : ∀ n, k' n = mapNext (withPort q) (k n)) :
    withNode (withPort q s) i k' = mapNext (withPort q) (withNode s i k) := by
  unfold withNode
  split
  · exact hk _
  · rfl

theorem emit_withPort (x : Byte) {k : State → Outcome} (hk : ∀ u, k (withPort q u) = mapNext (withPort q) (k u)) :
    emit x (withPort q s) k = mapNext (withPort q) (emit x s k) := by
  have hstage : (withPort q s).stage [x] = withPort q (s.stage [x]) := rfl
  simp only [emit, withPort_cfg, withPort_wlen, hstage, latch_withPort, hk]
  split_ifs <;> rfl

/-- One branch for each path of R161: a sole leaf, a leaf reached, an inner node passed. -/
theorem descend_withPort (b : Bool) : descend b (withPort q s) = mapNext (withPort q) (descend b s) := by
  refine withNode_withPort q s s.root fun r => ?_
  cases r.kind with
  | leaf =>
    cases b with
    | true => exact congrArg (fun u => Host.Outcome.next (State.respondOk u)) (latch_withPort q s .invalidBit)
    | false => exact emit_withPort q s r.sym (k := fun u => .next u.respondOk) fun _ => rfl
  | internal =>
    refine withNode_withPort q s s.cur fun n => withNode_withPort q s (n.child b) fun m => ?_
    cases m.kind with
    | leaf =>
      exact emit_withPort q { s with cur := n.child b } m.sym
        (k := fun u => .next (State.respondOk { u with cur := u.root })) fun _ => rfl
    | internal => rfl

theorem dbitEffect_withPort (data : Byte) :
    dbitEffect data (withPort q s) = mapNext (withPort q) (dbitEffect data s) := by
  simp only [dbitEffect, withPort_terr, latch_withPort, descend_withPort]
  split
  · rfl
  · split <;> rfl

theorem latchTruncated_withPort : (withPort q s).latchTruncated = withPort q s.latchTruncated := by
  simp only [State.latchTruncated, withPort_cur, withPort_root, latch_withPort]
  split <;> rfl

/-! The steps of CEND -/

theorem seed_withPort : seed (withPort q s) = withPort q (seed s) := by
  have hfold : s.keys.foldl seedLeaf (withPort q s) = withPort q (s.keys.foldl seedLeaf s) :=
    (List.foldl_hom (withPort q) (g₁ := seedLeaf) (g₂ := seedLeaf) fun _ _ => rfl)
  simp only [seed, withPort_keys, hfold]
  rfl

/-- An extraction takes the same node and changes only `pq` and the count of draws. -/
theorem extractMin_withPort (tie : Config.TieBreak) :
    extractMin tie (withPort q s) = ((extractMin tie s).1, withPort q (extractMin tie s).2) := by
  have hmin : (extractMin tie (withPort q s)).1 = (extractMin tie s).1 := extractMin_congr tie rfl rfl fun _ _ => rfl
  have hrest : (extractMin tie (withPort q s)).2
      = { withPort q s with pq := s.pq.erase (extractMin tie (withPort q s)).1, draws := s.draws + 1 } := rfl
  exact Prod.ext hmin (by rw [hrest, hmin]; rfl)

theorem merge_withPort (tie : Config.TieBreak) : merge tie (withPort q s) = withPort q (merge tie s) := by
  rw [merge_eq, merge_eq]
  simp only [extractMin_withPort]
  rfl

theorem mergeTimes_withPort (tie : Config.TieBreak) (n : Nat) :
    mergeTimes tie n (withPort q s) = withPort q (mergeTimes tie n s) := by
  induction n generalizing s with
  | zero => rfl
  | succ n ih => simp only [mergeTimes, merge_withPort, ih]

theorem visit_withPort (depth i : Nat) (a : List Bool) (table : Memory CodeEntry) :
    visit (withPort q s) depth i a table = visit s depth i a table := by
  induction depth generalizing i a table with
  | zero => rfl
  | succ depth ih => simp only [visit, withPort_nodeAt, ih]

theorem walk_withPort : walk (withPort q s) = withPort q (walk s) := by
  simp only [walk, withPort_root, withPort_nodeAt, visit_withPort]
  rfl

theorem finish_withPort : finish (withPort q s) = withPort q (finish s) := rfl

theorem buildCodec_withPort (tie : Config.TieBreak) :
    buildCodec tie (withPort q s) = withPort q (buildCodec tie s) := by
  simp only [buildCodec, seed_withPort, withPort_pq, mergeTimes_withPort, finish_withPort, walk_withPort]
  rfl

theorem cendWith_withPort (tie : Config.TieBreak) :
    cendWith tie (withPort q s) = mapNext (withPort q) (cendWith tie s) := by
  simp only [cendWith, withPort_terr, withPort_ntotal, withPort_nn, withPort_pq, withPort_keys, buildCodec_withPort]
  split
  · rfl
  · split_ifs <;> rfl

theorem exec_withPort (i : Instr) : exec i (withPort q s) = mapNext (withPort q) (exec i s) := by
  cases i with
  | clr => exact whenLegal_comm rfl rfl rfl
  | cbegin => exact whenLegal_comm rfl rfl rfl
  | csym data => exact whenLegal_comm rfl rfl (congrArg _ (csymEffect_withPort q s data))
  | cend => exact whenLegal_comm rfl rfl (cendWith_withPort q s Config.tieDraw)
  | ebegin => exact whenLegal_comm rfl rfl rfl
  | esym data => exact whenLegal_comm rfl rfl (congrArg _ (esymEffect_withPort q s data))
  | eend => exact whenLegal_comm rfl rfl (congrArg _ (closeResult_withPort q s .bits))
  | dbegin => exact whenLegal_comm rfl rfl rfl
  | dbit data => exact whenLegal_comm rfl rfl (dbitEffect_withPort q s data)
  | dend =>
    refine whenLegal_comm rfl rfl (congrArg Host.Outcome.next ?_)
    rw [latchTruncated_withPort, closeResult_withPort]

end Commutes

/-! ## Stepping through presented words (R75; 30_encoding.md R90) -/

/-- A step that accepts a command's word executes the command, with the rest of the port left to come. -/
theorem step_of_command (i : Instr) (q : List PortEvent) (s : State) :
    step (withPort (.word (encode i) :: q) s) = exec i (withPort q s) := by
  have htake : (withPort (.word (encode i) :: q) s).takeInput = .accepted (encode i) (withPort q s) := rfl
  simp only [step, htake, decode_encode]

/-- The port on which the words of a command sequence stand before other events. -/
def presented (commands : List Instr) (rest : List PortEvent) : List PortEvent :=
  commands.map (fun i => .word (encode i)) ++ rest

/-- Settles O10, by induction on the commands: the first step executes the first command, whose answer does not depend
on the words still to come. -/
theorem stepsRunTheCommandsInOrder : Obligations.StepsRunTheCommandsInOrder := by
  intro commands s rest
  change Host.Core.run core commands.length (withPort (presented commands rest) s)
    = runCommands commands (withPort rest s)
  induction commands generalizing s with
  | nil => rfl
  | cons i commands ih =>
    have hstep : core.step (withPort (presented (i :: commands) rest) s)
        = mapNext (withPort (presented commands rest)) (exec i (withPort rest s)) :=
      (step_of_command i _ s).trans (exec_withPort _ (withPort rest s) i)
    simp only [List.length_cons, Host.Core.run, runCommands, hstep]
    cases h : exec i (withPort rest s) with
    | next t =>
      obtain ⟨_, hkept, _⟩ := exec_keeps_model h
      have hport : withPort rest t = t := congrArg (withPort · t) hkept.symm
      exact (ih t).trans (congrArg (runCommands commands) hport)
    | fault r => rfl
    | refused r => rfl

/-! ## The result port (R70) -/

theorem rdata_of_lt {s : State} {raddr : BitVec 32} (h : raddr.toNat < s.rlen) : s.rdata raddr = s.rbufAt raddr.toNat :=
  if_pos h

theorem rdata_of_ge {s : State} {raddr : BitVec 32} (h : s.rlen ≤ raddr.toNat) : s.rdata raddr = 0x00#8 :=
  if_neg (Nat.not_lt.2 h)

/-- Settles O37: the port by its range test; with no result `rlen` is 0 and no address is below it (R27). -/
theorem resultPortShowsOnlyTheResult : Obligations.ResultPortShowsOnlyTheResult := by
  refine fun s raddr => ⟨rdata_of_lt, rdata_of_ge, fun h hnone => rdata_of_ge ?_⟩
  have hkind : s.rkind = .none := hnone.elim h.sequencing.resultOnlyReady id
  rw [h.sequencing.noneEmpty hkind]
  exact Nat.zero_le _

/-! ## The model's stops (R65; 41_tree_builder.md R121, R126) -/

theorem withNode_of_ge {s : State} {i : Nat} (k : NodeEntry → Outcome) (h : Config.nodeMax ≤ i) :
    withNode s i k = .fault (.noSuchNode i) :=
  if_neg (Nat.not_lt.2 h)

/-- Beyond a full buffer there is no byte to write. -/
theorem emit_of_beyond {x : Byte} {s : State} {c : Nat} (k : State → Outcome) (hc : s.cfg.rbufCap = some c)
    (h : c < s.wlen) : emit x s k = .fault (.noSuchByte s.wlen) := by
  have hfull : s.cfg.rbufCap ≠ some s.wlen := by simp [hc, Nat.ne_of_lt h]
  have hroom : ¬ Config.within s.cfg.rbufCap (s.wlen + 1) := fun hw => by
    have := hw c hc
    omega
  rw [emit, if_neg hfull, if_neg hroom]

/-- On a root that is a Leaf the bit 0 emits its symbol. -/
theorem descend_of_sole_leaf {s : State} (hroot : s.root < Config.nodeMax) (hk : (s.nodeAt s.root).kind = .leaf) :
    descend false s = emit (s.nodeAt s.root).sym s fun u => .next u.respondOk := by
  rw [descend, withNode_of_lt _ hroot]
  simp only [hk, Bool.false_eq_true, if_false]

/-- The rest of DBIT on a root that is an Internal node: follow the edge from the cursor (44_decode.md R161). -/
def followEdge (b : Bool) (s : State) (n : NodeEntry) : Outcome :=
  withNode s (n.child b) fun m =>
    match m.kind with
    | .leaf => emit m.sym { s with cur := n.child b } fun t => .next (State.respondOk { t with cur := t.root })
    | .internal => .next (State.respondOk { s with cur := n.child b })

theorem descend_of_internal {s : State} {b : Bool} (hroot : s.root < Config.nodeMax)
    (hk : (s.nodeAt s.root).kind = .internal) : descend b s = withNode s s.cur (followEdge b s) := by
  rw [descend, withNode_of_lt _ hroot]
  simp only [hk]
  rfl

theorem followEdge_of_leaf {s : State} {b : Bool} {n : NodeEntry} (hchild : n.child b < Config.nodeMax)
    (hk : (s.nodeAt (n.child b)).kind = .leaf) :
    followEdge b s n = emit (s.nodeAt (n.child b)).sym { s with cur := n.child b }
      fun t => .next (State.respondOk { t with cur := t.root }) := by
  rw [followEdge, withNode_of_lt _ hchild]
  simp only [hk]

theorem exec_dbit_of_character {s : State} (b : Bool) (hp : s.phase = .dec) (he : s.terr = none) :
    exec (.dbit (chr b)) s = descend b s := by
  have hlegal : s.phase ∈ legalPhases (.dbit (chr b)) := List.mem_singleton.2 hp
  refine (whenLegal_of_mem _ hlegal).trans ?_
  simp only [dbitEffect, he, bitOfChar_chr]

theorem exec_cend_of_counted {s : State} (hp : s.phase = .count) (he : s.terr = none) (hn : s.ntotal ≠ 0) :
    exec .cend s = if s.nn ≠ 0 ∨ s.pq ≠ [] then .fault .seedNotFresh
      else if s.keys = [] then .fault .noRoot else .next (buildCodec Config.tieDraw s) := by
  have hlegal : s.phase ∈ legalPhases .cend := List.mem_singleton.2 hp
  refine (whenLegal_of_mem _ hlegal).trans ?_
  simp only [cendWith, he, if_neg hn]

/-- Settles O35: each index of DBIT in the order it is used, then the entry conditions of CEND. -/
theorem stopsStandForMissingEntries : Obligations.StopsStandForMissingEntries := by
  refine ⟨fun s b hp he => ?_, fun s hp he hn => ?_⟩
  · rw [exec_dbit_of_character b hp he]
    refine ⟨fun hroot => withNode_of_ge _ hroot, fun hroot hk hcur => ?_, fun hroot hk hcur hchild => ?_,
      fun c hroot hk hb hc hfull => ?_, fun c hroot hk hcur hchild hleaf hc hfull => ?_⟩
    · rw [descend_of_internal hroot hk, withNode_of_ge _ hcur]
    · rw [descend_of_internal hroot hk, withNode_of_lt _ hcur]
      exact withNode_of_ge _ hchild
    · rw [hb, descend_of_sole_leaf hroot hk, emit_of_beyond _ hc hfull]
    · rw [descend_of_internal hroot hk, withNode_of_lt _ hcur, followEdge_of_leaf hchild hleaf]
      exact emit_of_beyond (s := { s with cur := _ }) _ hc hfull
  · rw [exec_cend_of_counted hp he hn]
    refine ⟨fun h => if_pos h, fun hnn hpq hkeys => ?_⟩
    have hfresh : ¬ (s.nn ≠ 0 ∨ s.pq ≠ []) := not_or.2 ⟨not_not.2 hnn, not_not.2 hpq⟩
    rw [if_neg hfresh, if_pos hkeys]

end Sys2Proof.HostPorts
end

section
/-! PROOFS for 30_encoding.md: the fields and patterns of a command word (R91, R93), the four checks (R94), the count of
defined words (R95), the text form (R97) and the words of the expansions (R98). -/

namespace Sys2Proof.Encoding

open Sys2Proof Sys2Proof.Machine Sys2Proof.Laws Sys2Proof.HostPorts

/-! ## The fields of a word and the three checks on them (R91, R94) -/

theorem toWord_ofWord (w : Word) : (Command.ofWord w).toWord = w := by
  have hhigh : w.extractLsb' 12 4 ++ w.extractLsb' 8 4 = w.extractLsb' 8 8 :=
    BitVec.extractLsb'_append_extractLsb'_eq_extractLsb' rfl
  have hall : w.extractLsb' 8 8 ++ w.extractLsb' 0 8 = w.extractLsb' 0 16 :=
    BitVec.extractLsb'_append_extractLsb'_eq_extractLsb' rfl
  rw [Command.ofWord, Command.toWord, hhigh, hall, BitVec.extractLsb'_eq_self]

theorem decode_toWord (c : Command) : decode c.toWord = decodeCommand c := by
  rw [decode, ofWord_toWord]

theorem commandOf_eq_none_iff {op : BitVec 4} {data : Byte} :
    commandOf op data = none ↔ op = 0 ∨ 0xB ≤ op.toNat := by
  have hzero : op = 0 ↔ op.toNat = 0 := BitVec.toNat_inj.symm
  rw [hzero]
  unfold commandOf
  split
  case h_11 => simp only [imp_false, true_iff] at *; omega
  all_goals simp only [reduceCtorEq, false_iff]; omega

theorem op_eq_opcode {op : BitVec 4} {data : Byte} {i : Instr} (h : commandOf op data = some i) : op = i.opcode := by
  unfold commandOf at h
  split at h <;> cases h <;> exact BitVec.eq_of_toNat_eq ‹_›

/-- A command's operand is the data byte where it takes one. -/
theorem operand_of_commandOf {op rsv : BitVec 4} {data : Byte} {i : Instr} (h : commandOf op data = some i) :
    i.operand = if Command.takesData ⟨op, rsv, data⟩ then data else 0 := by
  obtain rfl := op_eq_opcode h
  cases i <;> cases h <;> rfl

theorem decodeCommand_of_undefined {c : Command} (h : commandOf c.op c.data = none) :
    decodeCommand c = .error .undefinedOp := by
  simp only [decodeCommand, h]

theorem decodeCommand_of_reserved {c : Command} {i : Instr} (h : commandOf c.op c.data = some i)
    (hr : c.reservedZero = false) : decodeCommand c = .error .reservedNotZero := by
  simp only [decodeCommand, h, hr, if_true]

theorem decodeCommand_of_data {c : Command} {i : Instr} (h : commandOf c.op c.data = some i)
    (hr : c.reservedZero = true) (hd : c.dataAllowed = false) : decodeCommand c = .error .dataNotZero := by
  simp [decodeCommand, h, hr, hd]

theorem decodeCommand_eq_ok {c : Command} {i : Instr} :
    decodeCommand c = .ok i ↔ commandOf c.op c.data = some i ∧ c.reservedZero = true ∧ c.dataAllowed = true := by
  cases h : commandOf c.op c.data with
  | none => simp [decodeCommand, h]
  | some j => cases hr : c.reservedZero <;> cases hd : c.dataAllowed <;> simp [decodeCommand, h, hr, hd]

theorem reservedZero_iff {op rsv : BitVec 4} {data : Byte} :
    Command.reservedZero ⟨op, rsv, data⟩ = true ↔ rsv = 0 := by
  simp [Command.reservedZero]

theorem dataAllowed_iff {op rsv : BitVec 4} {data : Byte} :
    Command.dataAllowed ⟨op, rsv, data⟩ = true ↔ op = 0x3 ∨ op = 0x6 ∨ op = 0x9 ∨ data = 0 := by
  simp [Command.dataAllowed, Command.takesData, or_assoc]

/-! ## Decoding and encoding are inverse (R91, R93) -/

/-- The fields that pass the checks are those of the command they name. -/
theorem eq_toCommand_of_decodeCommand {c : Command} {i : Instr} (h : decodeCommand c = .ok i) : c = i.toCommand := by
  obtain ⟨hcommand, hreserved, hdata⟩ := decodeCommand_eq_ok.1 h
  obtain ⟨op, rsv, data⟩ := c
  have hop : op = i.opcode := op_eq_opcode hcommand
  have hrsv : rsv = 0 := reservedZero_iff.1 hreserved
  have hoperand : data = i.operand := by
    rw [operand_of_commandOf (rsv := rsv) hcommand]
    split
    · rfl
    · rename_i htakes
      simpa [Command.dataAllowed, htakes] using hdata
  rw [Instr.toCommand, ← hop, ← hrsv, ← hoperand]

theorem decode_eq_ok_iff {w : Word} {i : Instr} : decode w = .ok i ↔ w = encode i := by
  constructor
  · intro h
    calc w = (Command.ofWord w).toWord := (toWord_ofWord w).symm
      _ = encode i := congrArg Command.toWord (eq_toCommand_of_decodeCommand h)
  · rintro rfl
    exact decode_encode i

theorem encode_injective : Function.Injective encode := fun i j h => by
  have hdecode : Except.ok (ε := DecodeError) i = .ok j := by rw [← decode_encode i, ← decode_encode j, h]
  exact Except.ok.inj hdecode

/-! ## Match and mask (R93) -/

/-- The pattern of a command without an operand masks no bit off. -/
theorem decode_iff_of_full_mask (w : Word) {i : Instr} {pattern : Word} (hpattern : encode i = pattern) :
    decode w = .ok i ↔ w &&& 0xFFFF#16 = pattern := by
  have hmask : w &&& 0xFFFF#16 = w := BitVec.and_allOnes
  rw [hmask, decode_eq_ok_iff, hpattern]

/-- A word has the high byte `high` and the low byte `low` iff its high byte matches under the mask and `low` is bits
7:0. -/
theorem eq_append_iff (w : Word) (high low : Byte) :
    w = high ++ low ↔ w &&& 0xFF00#16 = high ++ 0#8 ∧ low = w.setWidth 8 := by
  have hmask : ∀ h l : Byte, (h ++ l) &&& 0xFF00#16 = h ++ 0#8 := fun h l => by
    rw [show 0xFF00#16 = BitVec.allOnes 8 ++ 0#8 from rfl, BitVec.and_append, BitVec.and_allOnes, BitVec.and_zero]
  have hlow : ∀ h l : Byte, (h ++ l).setWidth 8 = l := fun _ _ => BitVec.setWidth_append_eq_right
  constructor
  · rintro rfl
    exact ⟨hmask high low, (hlow high low).symm⟩
  · obtain ⟨h, l, rfl⟩ : ∃ h l : Byte, w = h ++ l :=
      ⟨_, _, (BitVec.extractLsb'_append_extractLsb' (w := 8) (len := 8) (x := w)).symm⟩
    rw [hmask, hlow, BitVec.append_left_inj]
    rintro ⟨rfl, rfl⟩
    rfl

/-- The pattern of a command with an operand masks off bits 7:0, which are the operand. -/
theorem decode_iff_of_operand_mask (w : Word) (i : Instr) (op : BitVec 4) {pattern : Word} (hop : i.opcode = op)
    (hpattern : op ++ 0#4 ++ 0#8 = pattern) :
    decode w = .ok i ↔ w &&& 0xFF00#16 = pattern ∧ i.operand = w.setWidth 8 := by
  subst hop hpattern
  exact decode_eq_ok_iff.trans (eq_append_iff w (i.opcode ++ 0#4) i.operand)

/-- Settles O1: a word decodes to a command iff it is the command's word, which its pattern says. -/
theorem tenPatternsDecodeToTheirCommands : Obligations.TenPatternsDecodeToTheirCommands := by
  unfold Obligations.TenPatternsDecodeToTheirCommands
  intro w
  exact ⟨decode_iff_of_full_mask w (by decide), decode_iff_of_full_mask w (by decide),
    fun d => decode_iff_of_operand_mask w (.csym d) 0x3 rfl (by decide), decode_iff_of_full_mask w (by decide),
    decode_iff_of_full_mask w (by decide), fun d => decode_iff_of_operand_mask w (.esym d) 0x6 rfl (by decide),
    decode_iff_of_full_mask w (by decide), decode_iff_of_full_mask w (by decide),
    fun d => decode_iff_of_operand_mask w (.dbit d) 0x9 rfl (by decide), decode_iff_of_full_mask w (by decide)⟩

/-! ## What a step does with an accepted word (R90, R94) -/

theorem step_of_ok {s : State} {w : Word} {rest : List PortEvent} {i : Instr} (hp : s.port = .word w :: rest)
    (hd : decode w = .ok i) : step s = exec i { s with port := rest } := by
  simp only [step, State.takeInput, hp, hd]

theorem step_of_error {s : State} {w : Word} {rest : List PortEvent} {e : DecodeError}
    (hp : s.port = .word w :: rest) (hd : decode w = .error e) :
    step s = .next { s with port := rest, resp := .badCommand } := by
  simp only [step, State.takeInput, hp, hd]
  rfl

theorem exec_of_not_legal {i : Instr} {s : State} (h : s.phase ∉ legalPhases i) :
    exec i s = .next (s.raise .badSequence) := by
  cases i <;> exact whenLegal_of_not_mem _ h

/-- Settles O4: each failing check refuses the word, and a word that passes the first three is executed, which the
fourth check guards. -/
theorem wordsAreCheckedInOrder : Obligations.WordsAreCheckedInOrder := by
  intro s op rsv data rest hp
  have hdecode : decode (op ++ rsv ++ data) = decodeCommand ⟨op, rsv, data⟩ := decode_toWord ⟨op, rsv, data⟩
  have refused : ∀ {e}, decodeCommand ⟨op, rsv, data⟩ = .error e →
      decode (op ++ rsv ++ data) = .error e ∧ step s = .next { s with port := rest, resp := .badCommand } :=
    fun he => ⟨hdecode.trans he, step_of_error hp (hdecode.trans he)⟩
  have defined : op ≠ 0 → op.toNat ≤ 0xA → ∃ i, commandOf op data = some i := fun hzero hle =>
    Option.ne_none_iff_exists'.1 fun hnone => (commandOf_eq_none_iff.1 hnone).elim hzero (by omega)
  refine ⟨fun hundefined => refused (decodeCommand_of_undefined (commandOf_eq_none_iff.2 hundefined)),
    fun hzero hle hrsv => ?_, fun hzero hle hrsv h3 h6 h9 hdata => ?_, fun hzero hle hrsv hdata => ?_⟩
  all_goals obtain ⟨i, hi⟩ := defined hzero hle
  · exact refused (decodeCommand_of_reserved hi (Bool.eq_false_iff.2 (mt reservedZero_iff.1 hrsv)))
  · have hnot : ¬ (op = 0x3 ∨ op = 0x6 ∨ op = 0x9 ∨ data = 0) := by
      simp only [not_or]
      exact ⟨h3, h6, h9, hdata⟩
    exact refused (decodeCommand_of_data hi (reservedZero_iff.2 hrsv) (Bool.eq_false_iff.2 (mt dataAllowed_iff.1 hnot)))
  · have hok := hdecode.trans (decodeCommand_eq_ok.2 ⟨hi, reservedZero_iff.2 hrsv, dataAllowed_iff.2 hdata⟩)
    exact ⟨i, hok, fun hphase => (step_of_ok hp hok).trans (exec_of_not_legal hphase), fun _ => step_of_ok hp hok⟩

/-- Settles O6: the step of an accepted word, of a command's own word at the front of the port, and the idle step. -/
theorem stepRunsTheAcceptedCommand : Obligations.StepRunsTheAcceptedCommand := by
  refine ⟨fun s w rest i hp hd => ⟨decide_eq_true i.operand.isLt, step_of_ok hp hd⟩, fun s i => ?_, fun s hp => ?_⟩
  · have hword : BitVec.ofNat 16 ((encode i).toNat % 2 ^ 16) = encode i := by
      rw [Nat.mod_eq_of_lt (encode i).isLt, BitVec.ofNat_toNat, BitVec.setWidth_eq]
    rw [State.withFetchWord, hword]
    exact step_of_command i s.port s
  · simp only [step, State.takeInput, hp]

/-! ## The count of defined words (R95) -/

/-- Every byte, once. -/
def allBytes : List Byte := (List.finRange 256).map BitVec.ofFin

/-- The seven commands without an operand. -/
def bareCommands : List Instr := [.clr, .cbegin, .cend, .ebegin, .eend, .dbegin, .dend]

/-- Every command, once: the bare ones and three with each byte. -/
def allCommands : List Instr :=
  bareCommands ++ (allBytes.map .csym ++ (allBytes.map .esym ++ allBytes.map .dbit))

theorem mem_allBytes (b : Byte) : b ∈ allBytes :=
  List.mem_map.2 ⟨b.toFin, List.mem_finRange _, rfl⟩

theorem nodup_allBytes : allBytes.Nodup :=
  (List.nodup_finRange 256).map fun _ _ h => congrArg BitVec.toFin h

theorem mem_allCommands (i : Instr) : i ∈ allCommands := by
  cases i <;> simp [allCommands, bareCommands, mem_allBytes]

theorem nodup_allCommands : allCommands.Nodup := by
  have hbare : bareCommands.Nodup := by decide
  have hcsym := nodup_allBytes.map (f := Instr.csym) fun _ _ => Instr.csym.inj
  have hesym := nodup_allBytes.map (f := Instr.esym) fun _ _ => Instr.esym.inj
  have hdbit := nodup_allBytes.map (f := Instr.dbit) fun _ _ => Instr.dbit.inj
  refine hbare.append (hcsym.append (hesym.append hdbit ?_) ?_) ?_ <;> simp [List.Disjoint, bareCommands]

theorem length_allCommands : allCommands.length = 775 := by
  simp [allCommands, bareCommands, allBytes]

theorem decodeTableWord_eq_some_iff {n : Nat} {i : Instr} (hn : n < 65536) :
    decodeTableWord 16 n = some i ↔ (encode i).toNat = n := by
  have hword : decodeTableWord 16 n = some i ↔ decode (BitVec.ofNat 16 (n % 2 ^ 16)) = .ok i := by
    unfold decodeTableWord
    cases decode (BitVec.ofNat 16 (n % 2 ^ 16)) <;> simp
  rw [hword, decode_eq_ok_iff, ← BitVec.toNat_inj, BitVec.toNat_ofNat]
  omega

theorem decodeTableWord_isSome_iff {n : Nat} (hn : n < 65536) :
    (decodeTableWord 16 n).isSome ↔ ∃ i, (encode i).toNat = n := by
  simp only [Option.isSome_iff_exists, decodeTableWord_eq_some_iff hn]

/-- Settles O5: the defined words are the words of the 775 commands. -/
theorem definedWordsNumber775 : Obligations.DefinedWordsNumber775 := by
  have hperm : ((List.range 65536).filter fun n => (decodeTableWord 16 n).isSome).Perm
      (allCommands.map fun i => (encode i).toNat) := by
    refine (List.perm_ext_iff_of_nodup (List.nodup_range.filter _)
      (nodup_allCommands.map fun _ _ h => encode_injective (BitVec.eq_of_toNat_eq h))).2 fun n => ?_
    rw [List.mem_filter, List.mem_range, List.mem_map]
    constructor
    · rintro ⟨hn, hdefined⟩
      obtain ⟨i, hi⟩ := (decodeTableWord_isSome_iff hn).1 hdefined
      exact ⟨i, mem_allCommands i, hi⟩
    · rintro ⟨i, -, rfl⟩
      have hn := (encode i).isLt
      exact ⟨hn, (decodeTableWord_isSome_iff hn).2 ⟨i, rfl⟩⟩
  rw [Obligations.DefinedWordsNumber775, hperm.length_eq, List.length_map, length_allCommands]

/-! ## The text form and the expansions (R97, R98) -/

/-- A command word is `(op << 12) | data`. -/
theorem encode_eq_or (i : Instr) : encode i = (i.opcode.setWidth 16 <<< 12) ||| i.operand.setWidth 16 := by
  have hfields : (encode i).setWidth 16
      = (i.opcode.setWidth 16 <<< 12) ||| ((0#4).setWidth 16 <<< 8) ||| i.operand.setWidth 16 :=
    BitVec.setWidth_append_append_eq_shiftLeft_setWidth_or
  simpa using hfields

theorem encode_eq_or_of_opcode {i : Instr} {op : BitVec 4} {high : Word} (hop : i.opcode = op)
    (hhigh : op.setWidth 16 <<< 12 = high) : encode i = high ||| i.operand.setWidth 16 := by
  rw [encode_eq_or, hop, hhigh]

/-- A well-formed line with the operation code and the operand of a command assembles to its word. -/
theorem assemble_eq_encode {l : AsmLine} {i : Instr} (hwf : l.wellFormed = true)
    (hop : mnemonicOpcode l.mnemonic = i.opcode.toNat)
    (hoperand : (l.operand.map AsmOperand.value).getD 0 = i.operand.toNat) : assemble l = some (encode i) := by
  rw [assemble, if_pos hwf, hop, hoperand, encode_eq_or, BitVec.ofNat_toNat, BitVec.ofNat_toNat]

/-- Settles O8: each line is well formed and has its command's operation code and operand. -/
theorem assembledLineIsTheEncodedCommand : Obligations.AssembledLineIsTheEncodedCommand := by
  have hbyte : ∀ d : Byte, decide (d.toNat < 256) = true := fun d => decide_eq_true d.isLt
  exact ⟨assemble_eq_encode rfl rfl rfl, assemble_eq_encode rfl rfl rfl,
    fun d => assemble_eq_encode (hbyte d) rfl rfl, assemble_eq_encode rfl rfl rfl, assemble_eq_encode rfl rfl rfl,
    fun d => assemble_eq_encode (hbyte d) rfl rfl, assemble_eq_encode rfl rfl rfl, assemble_eq_encode rfl rfl rfl,
    fun d => assemble_eq_encode (hbyte d) rfl rfl, assemble_eq_encode rfl rfl rfl⟩

/-- The words of a BEGIN, one data command a byte and an END, when every data word is `high | byte`. -/
theorem map_encode_stream {begin last : Instr} {data : Byte → Instr} {first final high : Word} (operand : List Byte)
    (hbegin : encode begin = first) (hdata : ∀ x, encode (data x) = high ||| x.setWidth 16)
    (hlast : encode last = final) : (begin :: (operand.map data ++ [last])).map encode
      = first :: ((operand.map fun x => high ||| x.setWidth 16) ++ [final]) := by
  simp only [List.map_cons, List.map_append, List.map_map, List.map_nil, Function.comp_def, hbegin, hdata, hlast]

/-- Settles O9: the three expansions have one shape, and a data word is its operation code over its operand. -/
theorem macroWordsFollowTheirExpansion : Obligations.MacroWordsFollowTheirExpansion := by
  unfold Obligations.MacroWordsFollowTheirExpansion
  intro operand
  have hcsym : ∀ x, encode (.csym x) = 0x3000#16 ||| x.setWidth 16 := fun _ =>
    encode_eq_or_of_opcode (op := 0x3) rfl (by decide)
  have hesym : ∀ x, encode (.esym x) = 0x6000#16 ||| x.setWidth 16 := fun _ =>
    encode_eq_or_of_opcode (op := 0x6) rfl (by decide)
  have hdbit : ∀ x, encode (.dbit x) = 0x9000#16 ||| x.setWidth 16 := fun _ =>
    encode_eq_or_of_opcode (op := 0x9) rfl (by decide)
  exact ⟨map_encode_stream operand (by decide) hcsym (by decide),
    map_encode_stream operand (by decide) hesym (by decide), map_encode_stream operand (by decide) hdbit (by decide)⟩

end Sys2Proof.Encoding
end

section
/-! PROOFS for 40_freq_analyzer.md: what CBEGIN opens (R110), what one CSYM counts (R111) and what a whole pass of CSYMs
counts (R112). -/

namespace Sys2Proof.FreqAnalyzer

open Sys2Proof Sys2Proof.Machine Sys2Proof.Safety Sys2Proof.Laws Sys2Proof.Invariants Sys2Proof.Encoding

variable {s : State}

/-! ## CBEGIN (R110) -/

theorem exec_cbegin_of_idle (hp : s.phase = .empty ∨ s.phase = .ready) :
    exec .cbegin s = .next (cbeginEffect s) :=
  whenLegal_of_mem _ (by simpa [legalPhases] using hp)

theorem cbeginEffect_freqAt (s : State) {i : Nat} (hi : i < 256) : (cbeginEffect s).freqAt i = 0 :=
  freqAt_of_read (read_fill 0 hi)

theorem cbeginEffect_codeAt (s : State) {i : Nat} (hi : i < 256) : (cbeginEffect s).codeAt i = CodeEntry.absent :=
  codeAt_of_read (read_fill _ hi)

/-- Settles O13: in its two phases CBEGIN has its effect, in the other three the phase check refuses it. -/
theorem cbeginOpensAConstruction : Obligations.CbeginOpensAConstruction := by
  refine ⟨by decide, fun s => ⟨fun hp => ?_, fun hp => exec_of_not_legal ?_⟩⟩
  · exact ⟨cbeginEffect s, exec_cbegin_of_idle hp, fun _ => cbeginEffect_freqAt s, fun _ => cbeginEffect_codeAt s, rfl⟩
  · rcases hp with hp | hp | hp <;> rw [hp] <;> decide

/-! ## CSYM (R111) -/

theorem exec_csym_of_count (x : Byte) (hp : s.phase = .count) : exec (.csym x) s = .next (csymEffect x s) :=
  whenLegal_of_mem _ (List.mem_singleton.2 hp)

theorem csymEffect_of_latched (x : Byte) (he : s.terr ≠ none) : csymEffect x s = { s with resp := .ok } := by
  rcases csymEffect_cases x s with ⟨_, heq⟩ | ⟨hnone, _⟩ | ⟨hnone, _⟩
  · exact heq
  · exact absurd hnone he
  · exact absurd hnone he

theorem csymEffect_of_full (x : Byte) (he : s.terr = none) (hmax : s.cfg.nMax = some s.ntotal) :
    csymEffect x s = { s with terr := some .capacity, resp := .ok } := by
  rcases csymEffect_cases x s with ⟨hsome, _⟩ | ⟨_, _, heq⟩ | ⟨_, hroom, _⟩
  · exact absurd he hsome
  · exact heq
  · exact absurd hmax hroom

theorem csymEffect_of_room (x : Byte) (he : s.terr = none) (hmax : s.cfg.nMax ≠ some s.ntotal) :
    csymEffect x s
      = { s.setFreq x.toNat (s.freqAt x.toNat + 1) with ntotal := s.ntotal + 1, resp := .ok } := by
  rcases csymEffect_cases x s with ⟨hsome, _⟩ | ⟨_, hfull, _⟩ | ⟨_, _, heq⟩
  · exact absurd he hsome
  · exact absurd hfull hmax
  · exact heq

/-- A counted symbol's own entry is one more, every other entry as before. -/
theorem csymEffect_freqAt_of_room (x : Byte) (he : s.terr = none) (hmax : s.cfg.nMax ≠ some s.ntotal) (y : Nat) :
    (csymEffect x s).freqAt y = if y = x.toNat then s.freqAt x.toNat + 1 else s.freqAt y := by
  rw [csymEffect_of_room x he hmax]
  exact freqAt_setFreq s x.toNat (s.freqAt x.toNat + 1) y

/-- Settles O14: the phase check refuses CSYM outside COUNT; in COUNT its effect is one of three. -/
theorem csymCountsOneSymbol : Obligations.CsymCountsOneSymbol := by
  intro s x
  refine ⟨encode_eq_or_of_opcode (op := 0x3) rfl (by decide),
    fun hp => exec_of_not_legal (mt List.mem_singleton.1 hp), fun hp he => ?latched, fun hp he hmax => ?full,
    fun hp he hmax => ⟨csymEffect x s, exec_csym_of_count x hp, ?_, fun y hy => ?_, ?_⟩⟩
  case latched => rw [exec_csym_of_count x hp, csymEffect_of_latched x he]
  case full => rw [exec_csym_of_count x hp, csymEffect_of_full x he hmax]
  · rw [csymEffect_freqAt_of_room x he hmax, if_pos rfl]
  · rw [csymEffect_freqAt_of_room x he hmax, if_neg hy]
  · rw [csymEffect_of_room x he hmax]
    rfl

/-! ## A whole pass (R112) -/

/-- The state of an open construction with parameters `cfg` that has counted the symbols `seen` and latched no error. -/
structure Tallied (cfg : Config.Params) (seen : List Byte) (s : State) : Prop where
  phase : s.phase = .count
  resp : s.resp = .ok
  terr : s.terr = none
  cfg : s.cfg = cfg
  ntotal : s.ntotal = seen.length
  counts : ∀ x : Byte, s.freqAt x.toNat = seen.count x
  counting : Counting s

theorem tallied_cbeginEffect (s : State) : Tallied s.cfg [] (cbeginEffect s) :=
  ⟨rfl, rfl, rfl, rfl, rfl, fun x => cbeginEffect_freqAt s x.isLt, counting_cbeginEffect s⟩

/-- One CSYM below the limit adds its symbol to those counted. -/
theorem tallied_csymEffect {cfg : Config.Params} {seen : List Byte} (x : Byte) (h : Tallied cfg seen s)
    (hroom : Config.within cfg.nMax (seen.length + 1)) : Tallied cfg (seen ++ [x]) (csymEffect x s) := by
  have hmax : s.cfg.nMax ≠ some s.ntotal := by
    rw [h.cfg, h.ntotal]
    exact fun hfull => Nat.not_succ_le_self _ (hroom _ hfull)
  have heq := csymEffect_of_room x h.terr hmax
  refine ⟨heq ▸ h.phase, heq ▸ rfl, heq ▸ h.terr, heq ▸ h.cfg, ?_, fun y => ?_, counting_csymEffect x h.counting⟩
  · rw [heq, List.length_append, ← h.ntotal]
    rfl
  · rw [csymEffect_freqAt_of_room x h.terr hmax, List.count_append, List.count_singleton, h.counts, h.counts]
    simp only [BitVec.toNat_inj, beq_iff_eq, eq_comm (a := y)]
    split_ifs with hy
    · rw [hy]
    · rfl

/-- CBEGIN and one CSYM an element, by induction on the sequence from its end. -/
theorem runCommands_tallied (hp : s.phase = .empty ∨ s.phase = .ready) (operand : List Byte)
    (hmax : Config.within s.cfg.nMax operand.length) :
    ∃ t, runCommands (.cbegin :: operand.map .csym) s = .next t ∧ Tallied s.cfg operand t := by
  induction operand using List.reverseRecOn with
  | nil => exact ⟨cbeginEffect s, by rw [runCommands, exec_cbegin_of_idle hp]; rfl, tallied_cbeginEffect s⟩
  | append_singleton seen x ih =>
    rw [List.length_append] at hmax
    obtain ⟨t, hrun, htally⟩ := ih fun c hc => Nat.le_of_succ_le (hmax c hc)
    refine ⟨csymEffect x t, ?_, tallied_csymEffect x htally hmax⟩
    rw [List.map_append, ← List.cons_append, runCommands_append hrun]
    simp only [List.map_cons, List.map_nil, runCommands, exec_csym_of_count x htally.phase]

/-- Settles O15: the pass leaves its operand tallied, and the first element of a sequence that is not empty occurs. -/
theorem countsOfASymbolSequence : Obligations.CountsOfASymbolSequence := by
  intro s operand hp hmax
  obtain ⟨t, hrun, h⟩ := runCommands_tallied hp operand hmax
  refine ⟨t, hrun, h.phase, h.resp, h.terr, h.ntotal, h.counts, h.counting.map.total.trans h.ntotal, fun hne => ?_⟩
  obtain ⟨x, hx⟩ := List.exists_mem_of_ne_nil operand hne
  exact ⟨x.toNat, x.isLt, by rw [h.counts]; exact List.count_pos_iff.2 hx⟩

end Sys2Proof.FreqAnalyzer
end

section
/-! PROOFS for 41_tree_builder.md: the steps SEED (R121), EXTRACT_MIN with its tie-breaks (R123, R125), MERGE and its
loop (R122, R124, R127), and the successful CEND that runs them (R120, R129). -/

namespace Sys2Proof.TreeBuilder

open Sys2Proof Sys2Proof.Machine Sys2Proof.Safety Sys2Proof.Laws Sys2Proof.Invariants

variable {s : State}

/-! ## CEND with its entry conditions met (R120, R129) -/

theorem cendWith_of_fresh (tie : Config.TieBreak) (he : s.terr = none) (hn : s.ntotal ≠ 0) (hnn : s.nn = 0)
    (hpq : s.pq = []) (hk : s.keys ≠ []) : cendWith tie s = .next (buildCodec tie s) := by
  have hfresh : ¬ (s.nn ≠ 0 ∨ s.pq ≠ []) := not_or.2 ⟨not_not.2 hnn, not_not.2 hpq⟩
  simp only [cendWith, he, if_neg hn, if_neg hfresh, if_neg hk]

/-- While symbols are counted, one symbol is enough for CEND's entry conditions (10_state.md R41). -/
theorem cendWith_of_counting (tie : Config.TieBreak) (he : s.terr = none) (hpq : s.pq = []) (hc : Counting s)
    (hpos : 1 ≤ s.ntotal) : cendWith tie s = .next (buildCodec tie s) :=
  have hn : s.ntotal ≠ 0 := Nat.one_le_iff_ne_zero.1 hpos
  cendWith_of_fresh tie he hn hc.fresh hpq (keys_ne_nil hc.map hn)

theorem exec_cend_of_count (hp : s.phase = .count) : exec .cend s = cendWith Config.tieDraw s :=
  whenLegal_of_mem _ (List.mem_singleton.2 hp)

/-- CEND keeps the invariants under every tie-break. -/
theorem inv_cendWith {t : State} {tie : Config.TieBreak} (h : Inv s) (hp : s.phase = .count)
    (ht : cendWith tie s = .next t) : Inv t := by
  obtain ⟨hcfg, hrams, hseq, hcon⟩ := inv_iff.1 h
  have hsame : t.cfg = s.cfg := by
    rcases cendWith_next ht with ⟨_, _, rfl⟩ | ⟨_, _, rfl⟩ | ⟨_, _, _, _, _, rfl⟩
    · rfl
    · rfl
    · exact buildCodec_cfg tie s
  exact inv_iff.2 ⟨by rw [hsame]; exact hcfg, rams_cendWith hrams ht, sequencing_cendWith hseq hp ht,
    contents_cendWith hseq hcon hp ht⟩

/-- Settles O26: CEND completes, and under every tie-break its answer meets the invariants. -/
theorem everyTieBreakBuildsAValidCodec : Obligations.EveryTieBreakBuildsAValidCodec := by
  intro tie s h hp he hpos
  have hcend := cendWith_of_counting tie he h.sequencing.pqEmpty (h.counting hp) hpos
  exact ⟨buildCodec tie s, hcend, rfl, rfl, buildCodec_freq tie s, buildCodec_ntotal tie s, inv_cendWith h hp hcend⟩

/-- Settles O17: the entry conditions hold, and the answer is the composition of the steps. -/
theorem cendRunsItsStepsInOrder : Obligations.CendRunsItsStepsInOrder := by
  intro s hp he hn hnn hpq hk
  exact (exec_cend_of_count hp).trans (cendWith_of_fresh Config.tieDraw he hn hnn hpq hk)

/-! ## SEED (R121) -/

theorem seedLeaf_nodeAt (s : State) (x i : Nat) :
    (seedLeaf s x).nodeAt i = if i = s.nn then leafOf s x else s.nodeAt i :=
  nodeAt_setNode s s.nn _ i

/-- SEED's allocations end where the keys end. -/
theorem foldl_seedLeaf_nodeAt_beyond (l : List Nat) {i : Nat} (hi : s.nn + l.length ≤ i) :
    (l.foldl seedLeaf s).nodeAt i = s.nodeAt i := by
  induction l generalizing s with
  | nil => rfl
  | cons x l ih =>
    rw [List.length_cons] at hi
    rw [List.foldl_cons, ih (by rw [seedLeaf_nn]; omega), seedLeaf_nodeAt, if_neg (by omega)]

theorem seed_nodeAt_beyond (h : s.nn = 0) {i : Nat} (hi : s.keys.length ≤ i) : (seed s).nodeAt i = s.nodeAt i :=
  foldl_seedLeaf_nodeAt_beyond s.keys (by rwa [h, Nat.zero_add])

/-- SEED's pushes change NODE, `pq` and `nn` only. -/
theorem foldl_seedLeaf_frame (l : List Nat) (s : State) :
    l.foldl seedLeaf s
      = { s with node := (l.foldl seedLeaf s).node, pq := (l.foldl seedLeaf s).pq, nn := (l.foldl seedLeaf s).nn } := by
  induction l generalizing s with
  | nil => rfl
  | cons x l ih => exact ih (seedLeaf s x)

theorem seed_frame (s : State) :
    seed s = { s with node := (seed s).node, pq := (seed s).pq, nn := (seed s).nn, ksyms := (seed s).ksyms } :=
  congrArg (fun t : State => { t with ksyms := (seed s).nn }) (foldl_seedLeaf_frame s.keys s)

/-- Settles O18, by induction on the keys: the i-th is allocated at index i, and nothing else is touched. -/
theorem seedAllocatesTheLeaves : Obligations.SeedAllocatesTheLeaves := by
  intro s hnn hpq
  exact ⟨seed_ksyms hnn, seed_nn hnn, seed_pq hnn hpq, keys_sorted s, fun _ => mem_keys, fun _ => seed_nodeAt hnn,
    fun _ => seed_nodeAt_beyond hnn, seed_frame s⟩

/-! ## EXTRACT_MIN (R123) and its reference tie-break (R125) -/

/-- The candidates are the members of least weight. -/
theorem mem_candidates_iff {x : Nat} :
    x ∈ candidates s ↔ x ∈ s.pq ∧ ∀ i ∈ s.pq, (s.nodeAt x).weight ≤ (s.nodeAt i).weight := by
  rw [mem_candidates]
  refine and_congr_right fun hx => ⟨fun hw i hi => hw ▸ leastWeight_le s hi, fun hle => ?_⟩
  obtain ⟨i, hi, hw⟩ := leastWeight_attained s (List.ne_nil_of_mem hx)
  exact Nat.le_antisymm (hw ▸ hle i hi) (leastWeight_le s hx)

/-- A draw below the number of candidates takes the candidate of that number. -/
theorem chooseBy_of_lt {l : List Nat} {n : Nat} (h : n < l.length) : chooseBy n l = l[n] := by
  match l with
  | [x] =>
    obtain rfl : n = 0 := Nat.lt_one_iff.1 h
    rfl
  | x :: y :: rest => rw [chooseBy, Nat.mod_eq_of_lt h, List.getD_eq_getElem _ _ h]

/-- In an ascending list the draw 0 takes the least element. -/
theorem chooseBy_zero_le {l : List Nat} (hs : l.Pairwise (· < ·)) {i : Nat} (hi : i ∈ l) : chooseBy 0 l ≤ i := by
  rw [chooseBy_of_lt (List.length_pos_of_mem hi)]
  cases l with
  | nil => cases hi
  | cons x rest =>
    rcases List.mem_cons.1 hi with rfl | hi
    · exact Nat.le_refl _
    · exact Nat.le_of_lt ((List.pairwise_cons.1 hs).1 i hi)

/-- Every candidate is extracted under some tie-break: the one that draws its place among the candidates. -/
theorem exists_tie_extracting {x : Nat} (hx : x ∈ candidates s) :
    ∃ tie : Config.TieBreak, (extractMin tie s).1 = x := by
  obtain ⟨n, hn, hget⟩ := List.getElem_of_mem hx
  exact ⟨fun _ => n, (chooseBy_of_lt hn).trans hget⟩

/-- Settles O19: the choice is a candidate, and the candidates are the members of least weight. -/
theorem extractMinRemovesAnyMinimum : Obligations.ExtractMinRemovesAnyMinimum := by
  intro s hne hs
  have hnodup : s.pq.Nodup := hs.imp Nat.ne_of_lt
  refine ⟨fun tie => ⟨extractMin_mem tie hne, fun _ => extractMin_le tie, fun i => ?_, rfl⟩,
    fun x hx hle => exists_tie_extracting (mem_candidates_iff.2 ⟨hx, hle⟩)⟩
  rw [extractMin_pq, hnodup.mem_erase_iff, and_comm]

/-- Settles O20: the candidates ascend with `pq`, and TIE_REF takes the first. -/
theorem tieRefTakesTheLowestIndex : Obligations.TieRefTakesTheLowestIndex := by
  intro s _ hs
  exact ⟨fun _ => extractMin_le Config.tieRef,
    fun i hi hle => chooseBy_zero_le (hs.filter _) (mem_candidates_iff.2 ⟨hi, hle⟩)⟩

/-! ## MERGE (R124) and its loop (R122, R127) -/

/-- Settles O21: the two nodes extracted are lightest, and MERGE is the merge of these two. -/
theorem mergeBuildsTheParent : Obligations.MergeBuildsTheParent := by
  intro tie s hs hlen _
  have h := lightest_extracted tie hs hlen
  rw [merge_eq]
  exact ⟨_, h.left_mem, _, h.right_mem, h.ne, h.left_le, h.right_le, mergedState_nodeAt_new s _ _,
    fun i hi => (mergedState_nodeAt s _ _ i).trans (if_neg hi), fun _ => mem_mergedState_pq hs,
    mergedState_pq_sorted hs, rfl⟩

/-- `pq` is a set of allocated nodes, in its canonical form (10_state.md R33). -/
structure QueueOk (s : State) : Prop where
  sorted : s.pq.Pairwise (· < ·)
  below : ∀ i ∈ s.pq, i < s.nn

/-- A MERGE keeps `pq` a set of allocated nodes, one smaller. -/
theorem queueOk_merge (tie : Config.TieBreak) (h : QueueOk s) (hlen : 2 ≤ s.pq.length) :
    QueueOk (merge tie s) ∧ (merge tie s).pq.length + 1 = s.pq.length := by
  have hlr := lightest_extracted tie h.sorted hlen
  rw [merge_eq]
  refine ⟨⟨mergedState_pq_sorted h.sorted, fun i hi => ?_⟩, mergedState_pq_length h.sorted h.below hlr⟩
  rcases (mem_mergedState_pq h.sorted).1 hi with rfl | ⟨hi, -, -⟩
  · exact Nat.lt_succ_self _
  · exact Nat.lt_succ_of_lt (h.below i hi)

/-- The last of `n + 1` passes comes after `n` passes. -/
theorem mergeTimes_succ (tie : Config.TieBreak) (n : Nat) (s : State) :
    mergeTimes tie (n + 1) s = merge tie (mergeTimes tie n s) := by
  induction n generalizing s with
  | zero => rfl
  | succ n ih => exact ih (merge tie s)

theorem queueOk_mergeTimes (tie : Config.TieBreak) (h : QueueOk s) {n : Nat} (hn : n < s.pq.length) :
    QueueOk (mergeTimes tie n s) ∧ (mergeTimes tie n s).pq.length = s.pq.length - n := by
  induction n with
  | zero => exact ⟨h, rfl⟩
  | succ n ih =>
    obtain ⟨hq, hlen⟩ := ih (by omega)
    obtain ⟨hq', hlen'⟩ := queueOk_merge tie hq (by omega)
    rw [mergeTimes_succ]
    exact ⟨hq', by omega⟩

/-- After one pass or more the node allocated last is in `pq`. -/
theorem last_mem_pq_mergeTimes (tie : Config.TieBreak) {n : Nat} (hn : 0 < n) (s : State) :
    (mergeTimes tie n s).nn - 1 ∈ (mergeTimes tie n s).pq := by
  obtain ⟨m, rfl⟩ := Nat.exists_eq_add_one_of_ne_zero hn.ne'
  rw [mergeTimes_succ]
  exact mem_pqInsert.2 (.inl rfl)

/-- Settles O22, by induction on the passes; the last one leaves a set of one node, which is the one it allocated. -/
theorem mergeLoopLeavesTheRoot : Obligations.MergeLoopLeavesTheRoot := by
  intro tie s hne hs hb last
  have hpos := List.length_pos_iff.2 hne
  have hlen : ∀ n < s.pq.length, (mergeTimes tie n s).pq.length = s.pq.length - n := fun n hn =>
    (queueOk_mergeTimes tie ⟨hs, hb⟩ hn).2
  have hone : last.pq.length = 1 := (hlen (s.pq.length - 1) (by omega)).trans (by omega)
  obtain ⟨r, hr⟩ := List.length_eq_one_iff.1 hone
  refine ⟨hlen, mergeTimes_nn tie _ s, ⟨r, hr, root_finish_of_pq hr, fun htwo => ?_⟩, rfl⟩
  have hlast : last.nn - 1 ∈ last.pq := last_mem_pq_mergeTimes tie (by omega) s
  rw [hr] at hlast
  exact (List.mem_singleton.1 hlast).symm

/-! ## What CEND builds and what it leaves (R120, R127) -/

theorem mergeTimes_nodeAt_beyond (tie : Config.TieBreak) (n : Nat) {i : Nat} (hi : s.nn + n ≤ i) :
    (mergeTimes tie n s).nodeAt i = s.nodeAt i := by
  induction n generalizing s with
  | zero => rfl
  | succ n ih =>
    rw [mergeTimes, ih (by rw [merge_nn]; omega), merge_eq, mergedState_nodeAt, if_neg (by omega)]

/-- CEND allocates below `nn` only. -/
theorem buildCodec_nodeAt_beyond (tie : Config.TieBreak) (h : s.nn = 0) {i : Nat} (hi : (buildCodec tie s).nn ≤ i) :
    (buildCodec tie s).nodeAt i = s.nodeAt i := by
  have hnn : (buildCodec tie s).nn = (seed s).nn + ((seed s).pq.length - 1) := mergeTimes_nn tie _ (seed s)
  rw [hnn] at hi
  have hkeys : s.keys.length ≤ i := seed_nn h ▸ Nat.le_of_add_right_le hi
  exact (mergeTimes_nodeAt_beyond tie _ hi).trans (seed_nodeAt_beyond h hkeys)

theorem buildCodec_keys (tie : Config.TieBreak) (s : State) : (buildCodec tie s).keys = s.keys :=
  keys_congr (buildCodec_freq tie s) (buildCodec_cfg tie s) (buildCodec_resets tie s)

theorem buildCodec_freqAt (tie : Config.TieBreak) (s : State) (x : Nat) : (buildCodec tie s).freqAt x = s.freqAt x :=
  freqAt_congr (buildCodec_freq tie s) (buildCodec_cfg tie s) (buildCodec_resets tie s) x

/-- From an empty `pq` CEND changes nothing but the sequencing, the tree, the code table, the walker's registers and the
count of draws. -/
theorem buildCodec_frame (tie : Config.TieBreak) (hpq : s.pq = []) :
    buildCodec tie s = { s with
      phase := .ready, resp := .ok, ksyms := (buildCodec tie s).ksyms, nn := (buildCodec tie s).nn
      root := (buildCodec tie s).root, node := (buildCodec tie s).node, code := (buildCodec tie s).code
      acc := (buildCodec tie s).acc, accLen := (buildCodec tie s).accLen, draws := (buildCodec tie s).draws } := by
  rw [hpq, ← buildCodec_rkind tie s, ← buildCodec_rlen tie s, ← buildCodec_ntotal tie s, ← buildCodec_cur tie s,
    ← buildCodec_wlen tie s, ← buildCodec_terr tie s, ← buildCodec_freq tie s, ← buildCodec_rbuf tie s,
    ← buildCodec_cfg tie s, ← buildCodec_port tie s, ← buildCodec_resets tie s]
  rfl

/-- Settles O25: the tree's counts and the code table are those of the codec CEND builds; the rest is as before. -/
theorem cendBuildsACodec : Obligations.CendBuildsACodec := by
  intro s hp he hpq hc hpos
  have hcend := cendWith_of_counting Config.tieDraw he hpq hc hpos
  have hkeys := keys_ne_nil hc.map (Nat.one_le_iff_ne_zero.1 hpos)
  have hcodec := codecOk_buildCodec Config.tieDraw hc hpq hpos hkeys
  have htree := hcodec.tree
  have hks := htree.ksymsKeys.trans (congrArg List.length (buildCodec_keys Config.tieDraw s))
  refine ⟨buildCodec Config.tieDraw s, (exec_cend_of_count hp).trans hcend, rfl, rfl, hks, hks ▸ htree.nodeCount,
    htree.rootLast, rfl, fun x hx => ?_, fun _ => buildCodec_nodeAt_beyond Config.tieDraw hc.fresh,
    buildCodec_frame Config.tieDraw hpq⟩
  have hkey := isKey_iff hcodec (BitVec.ofNatLT x hx)
  rw [buildCodec_freqAt, ← Nat.pos_iff_ne_zero] at hkey
  exact hkey

end Sys2Proof.TreeBuilder
end

section
/-! PROOFS for 42_code_table.md: the code of a root that is a Leaf (R142), what WALK records on the tree (R140, R143), and
the code table as a function of the abstract tree (R144). -/

namespace Sys2Proof.CodeTable

open Sys2Proof Sys2Proof.Machine Sys2Proof.Safety Sys2Proof.Laws Sys2Proof.Invariants

variable {s t : State}

/-! ## What WALK records (R140, R142, R143) -/

/-- Settles O23: WALK writes one entry, that of the root's symbol. -/
theorem soleSymbolGetsCodeZero : Obligations.SoleSymbolGetsCodeZero := by
  intro s hroot
  have hcode := walk_code_of_leaf hroot
  constructor
  · have hread : (walk s).code.read (s.nodeAt s.root).sym.toNat = some (CodeEntry.ofPath [false]) := by
      rw [hcode]
      exact read_write_same _ _ _
    rw [codeAt_of_read hread]
    decide
  · intro x hx
    have hread : (walk s).code.read x = s.code.read x := by
      rw [hcode]
      exact read_write_other _ _ hx
    simp only [State.codeAt, State.codePowerOn, hread, walk_resets]

/-- Settles O24: a visit from the root meets each key's Leaf, and no Leaf of another symbol. -/
theorem walkRecordsEveryPath : Obligations.WalkRecordsEveryPath := by
  intro s h hk hblank x hx
  exact codeOk_walk_many h hblank (by omega) hx

/-! ## One path to each node (10_state.md R42) -/

theorem descendPath_concat {i k : Nat} {p : List Bool} {b : Bool} (h : descendPath s i (p ++ [b]) = some k) :
    ∃ j, descendPath s i p = some j ∧ (s.nodeAt j).kind = .internal ∧ (s.nodeAt j).child b = k := by
  rw [descendPath_append] at h
  obtain ⟨j, hp, hb⟩ := Option.bind_eq_some_iff.1 h
  obtain ⟨hk, hchild⟩ := descendPath_cons hb
  exact ⟨j, hp, hk, Option.some.inj hchild⟩

theorem child_inj {i : Nat} (h : InternalOk s i) {b c : Bool} (heq : (s.nodeAt i).child b = (s.nodeAt i).child c) :
    b = c := by
  cases b <;> cases c
  · rfl
  · exact absurd heq h.distinct
  · exact absurd heq.symm h.distinct
  · rfl

theorem mem_parents_child {j : Nat} (hj : j < s.nn) (hk : (s.nodeAt j).kind = .internal) (b : Bool) :
    j ∈ parents s ((s.nodeAt j).child b) := by
  cases b with
  | false => exact mem_parents.2 ⟨hj, hk, .inl rfl⟩
  | true => exact mem_parents.2 ⟨hj, hk, .inr rfl⟩

theorem parent_unique (h : TreeOk s) {i j k : Nat} (hi : i < s.nn) (hj : j ∈ parents s i) (hk : k ∈ parents s i) :
    j = k := by
  have hlen := h.singleParent i hi
  split at hlen
  · rw [List.length_eq_zero_iff.1 hlen] at hj
    cases hj
  · obtain ⟨q, hq⟩ := List.length_eq_one_iff.1 hlen
    rw [hq, List.mem_singleton] at hj hk
    exact hj.trans hk.symm

/-- A path of one edge or more ends below the root. -/
theorem concat_ne_root (h : TreeOk s) {p : List Bool} {b : Bool} : descendPath s s.root (p ++ [b]) ≠ some s.root := by
  intro hp
  obtain ⟨j, hj, hk, hchild⟩ := descendPath_concat hp
  have hle := (descendPath_bounds h (root_lt_nn h) hj).1
  have hlt := child_lt (internalOk_of_kind h (path_length_le h hj).1 hk).2 b
  omega

/-- Two paths from the root to one node are the same path: they agree on the last edge, since the node has one parent and
the parent two different children, and so on up. -/
theorem path_unique (h : TreeOk s) {i : Nat} {p q : List Bool} (hp : descendPath s s.root p = some i)
    (hq : descendPath s s.root q = some i) : p = q := by
  induction p using List.reverseRecOn generalizing i q with
  | nil =>
    obtain rfl : s.root = i := Option.some.inj hp
    rcases List.eq_nil_or_concat' q with rfl | ⟨q, c, rfl⟩
    · rfl
    · exact absurd hq (concat_ne_root h)
  | append_singleton p b ih =>
    rcases List.eq_nil_or_concat' q with rfl | ⟨q, c, rfl⟩
    · obtain rfl : s.root = i := Option.some.inj hq
      exact absurd hp (concat_ne_root h)
    · have hi := (path_length_le h hp).1
      obtain ⟨j, hj, hjk, rfl⟩ := descendPath_concat hp
      obtain ⟨k, hk, hkk, heq⟩ := descendPath_concat hq
      have hjn := (path_length_le h hj).1
      obtain rfl : k = j :=
        parent_unique h hi (heq ▸ mem_parents_child (path_length_le h hk).1 hkk c) (mem_parents_child hjn hjk b)
      rw [ih hj hk, child_inj (internalOk_of_kind h hjn hjk).2 heq]

/-! ## The Leaf at the end of a path, in NODE and in the abstract tree (10_state.md R36) -/

/-- The path `p` leads from the node `i` to a Leaf that holds `x`. -/
def LeadsTo (s : State) (i : Nat) (p : List Bool) (x : Byte) : Prop :=
  ∃ j, descendPath s i p = some j ∧ (s.nodeAt j).kind = .leaf ∧ (s.nodeAt j).sym = x

theorem leadsTo_nil {i : Nat} {x : Byte} : LeadsTo s i [] x ↔ (s.nodeAt i).kind = .leaf ∧ (s.nodeAt i).sym = x := by
  simp [LeadsTo, descendPath]

theorem leadsTo_cons {i : Nat} {b : Bool} {p : List Bool} {x : Byte} :
    LeadsTo s i (b :: p) x ↔ (s.nodeAt i).kind = .internal ∧ LeadsTo s ((s.nodeAt i).child b) p x := by
  constructor
  · rintro ⟨j, hp, hleaf⟩
    obtain ⟨hk, hp⟩ := descendPath_cons hp
    exact ⟨hk, j, hp, hleaf⟩
  · rintro ⟨hk, j, hp, hleaf⟩
    exact ⟨j, by rw [descendPath, hk]; exact hp, hleaf⟩

/-- The symbol of the Leaf at the end of a path in an abstract tree; none where the path ends elsewhere. -/
def symAt : Tree → List Bool → Option Byte
  | .leaf sym _, [] => some sym
  | .leaf _ _, _ :: _ => none
  | .internal _ _ _, [] => none
  | .internal _ left _, false :: p => symAt left p
  | .internal _ _ right, true :: p => symAt right p

theorem treeTo_leaf {depth i : Nat} (hk : (s.nodeAt i).kind = .leaf) :
    treeTo s (depth + 1) i = .leaf (s.nodeAt i).sym (s.nodeAt i).weight := by
  rw [treeTo, hk]

theorem treeTo_internal {depth i : Nat} (hk : (s.nodeAt i).kind = .internal) :
    treeTo s (depth + 1) i = .internal (s.nodeAt i).weight (treeTo s depth ((s.nodeAt i).child false))
      (treeTo s depth ((s.nodeAt i).child true)) := by
  rw [treeTo, hk]
  rfl

theorem symAt_treeTo_child {depth i : Nat} (hk : (s.nodeAt i).kind = .internal) (b : Bool) (p : List Bool) :
    symAt (treeTo s (depth + 1) i) (b :: p) = symAt (treeTo s depth ((s.nodeAt i).child b)) p := by
  rw [treeTo_internal hk]
  cases b <;> rfl

/-- The abstract tree has the Leaves of NODE at the ends of the same paths. -/
theorem symAt_treeTo (h : TreeOk s) {depth i : Nat} {p : List Bool} {x : Byte} (hi : i < s.nn) (hdepth : i < depth) :
    symAt (treeTo s depth i) p = some x ↔ LeadsTo s i p x := by
  induction depth generalizing i p with
  | zero => cases hdepth
  | succ depth ih =>
    cases hk : (s.nodeAt i).kind with
    | leaf =>
      rw [treeTo_leaf hk]
      cases p with
      | nil => simp [symAt, leadsTo_nil, hk]
      | cons b p => simp [symAt, leadsTo_cons, hk]
    | internal =>
      cases p with
      | nil => simp [treeTo_internal hk, symAt, leadsTo_nil, hk]
      | cons b p =>
        have hlt := child_lt (internalOk_of_kind h hi hk).2 b
        rw [symAt_treeTo_child hk, leadsTo_cons, ih (by omega) (by omega)]
        exact (and_iff_right hk).symm

theorem symAt_treeOf_root (h : TreeOk s) {p : List Bool} {x : Byte} :
    symAt (treeOf s s.root) p = some x ↔ LeadsTo s s.root p x :=
  symAt_treeTo h (root_lt_nn h) (Nat.lt_of_lt_of_le (root_lt_nn h) (nn_le_nodeMax h))

/-! ## The code table as a function of the tree (R144) -/

/-- The code WALK gives the Leaf at the end of a path from the root: the path, or "0" for the root itself (R142). -/
def codeOfPath : List Bool → List Bool
  | [] => [false]
  | b :: p => b :: p

theorem symbolIndex_leaf (h : TreeOk s) {i : Nat} (hi : i < s.ksyms) :
    symbolIndex (s.nodeAt i).sym = s.keys[i]'(h.ksymsKeys ▸ hi) := by
  have hlen : i < s.keys.length := h.ksymsKeys ▸ hi
  have hx : s.keys[i] < 256 := (mem_keys.1 (List.getElem_mem hlen)).1
  rw [h.leaves i hi, leafOf, symbolIndex, List.getD_eq_getElem _ _ hlen, BitVec.toNat_ofNat, Nat.mod_eq_of_lt hx]

/-- Different Leaves hold different symbols, because the keys ascend (10_state.md R43). -/
theorem leaf_unique (h : TreeOk s) {i j : Nat} (hi : i < s.ksyms) (hj : j < s.ksyms)
    (hsym : (s.nodeAt i).sym = (s.nodeAt j).sym) : i = j := by
  have hnodup : s.keys.Nodup := (keys_sorted s).imp Nat.ne_of_lt
  have hkey : s.keys[i]'(h.ksymsKeys ▸ hi) = s.keys[j]'(h.ksymsKeys ▸ hj) := by
    rw [← symbolIndex_leaf h hi, ← symbolIndex_leaf h hj, hsym]
  exact (hnodup.getElem_inj_iff).1 hkey

/-- The keys are the symbols at the Leaves. -/
theorem isKey_iff_leadsTo (h : CodecOk s) {x : Byte} : IsKey s x ↔ ∃ p, LeadsTo s s.root p x := by
  constructor
  · intro hx
    have hmem : x.toNat ∈ s.keys := mem_keys.2 ⟨x.isLt, Nat.pos_of_ne_zero ((isKey_iff h x).1 hx)⟩
    obtain ⟨i, hi, hsym⟩ := leaf_of_key h.tree hmem
    obtain ⟨p, hp⟩ := reached_from_root h.tree (Nat.lt_of_lt_of_le hi (ksyms_le_nn h.tree))
    exact ⟨p, i, hp, kind_of_lt_ksyms h.tree hi, BitVec.eq_of_toNat_eq hsym⟩
  · rintro ⟨p, j, hp, hk, rfl⟩
    exact isKey_of_leaf h (path_length_le h.tree hp).1 hk

theorem codeOf_of_leadsTo (h : CodecOk s) {p : List Bool} {x : Byte} (hp : LeadsTo s s.root p x) :
    codeOf s x = codeOfPath p := by
  have hx : IsKey s x := (isKey_iff_leadsTo h).2 ⟨p, hp⟩
  cases p with
  | nil => exact key_code_sole h hx ((root_leaf_iff h.tree).1 (leadsTo_nil.1 hp).1)
  | cons b p =>
    have hmany : s.ksyms ≠ 1 := fun hone =>
      nomatch ((root_leaf_iff h.tree).2 hone).symm.trans (leadsTo_cons.1 hp).1
    obtain ⟨i, hi, hcode, hsym⟩ := key_code_path h hx hmany
    obtain ⟨j, hj, hleaf, hjsym⟩ := hp
    have hjk := lt_ksyms_of_leaf h.tree (path_length_le h.tree hj).1 hleaf
    obtain rfl : i = j := leaf_unique h.tree hi hjk (hsym.trans hjsym.symm)
    exact path_unique h.tree hcode hj

/-- The entry of a symbol in the tree is given by the path to its Leaf. -/
theorem codeAt_of_leadsTo (h : CodecOk s) {p : List Bool} {x : Byte} (hp : LeadsTo s s.root p x) :
    s.codeAt x.toNat = CodeEntry.ofPath (codeOfPath p) := by
  have hx : IsKey s x := (isKey_iff_leadsTo h).2 ⟨p, hp⟩
  rw [← codeOf_of_leadsTo h hp]
  exact (h.code x.toNat x.isLt).entry ((isKey_iff h x).1 hx)

/-- A symbol that is not in the tree has no code. -/
theorem codeAt_of_not_leadsTo (h : CodecOk s) {x : Byte} (hx : ¬ ∃ p, LeadsTo s s.root p x) :
    s.codeAt x.toNat = CodeEntry.absent := by
  rw [← isKey_iff_leadsTo h, isKey_iff h, not_not] at hx
  exact (h.code x.toNat x.isLt).absent hx

/-- Settles O58: both tables hold for a symbol what the path to its Leaf in the common tree gives, and the absent entry
where the tree has no such Leaf. -/
theorem codeTableIsAFunctionOfTheTree : Obligations.CodeTableIsAFunctionOfTheTree := by
  intro s t hs ht htree n hn
  obtain ⟨x, rfl⟩ : ∃ x : Byte, x.toNat = n := ⟨BitVec.ofNatLT n hn, rfl⟩
  have hsame : ∀ p, LeadsTo s s.root p x ↔ LeadsTo t t.root p x := fun p => by
    rw [← symAt_treeOf_root hs.tree, htree, symAt_treeOf_root ht.tree]
  by_cases hx : ∃ p, LeadsTo s s.root p x
  · obtain ⟨p, hp⟩ := hx
    rw [codeAt_of_leadsTo hs hp, codeAt_of_leadsTo ht ((hsame p).1 hp)]
  · have hx' : ¬ ∃ p, LeadsTo t t.root p x := mt (Exists.imp fun p => (hsame p).2) hx
    rw [codeAt_of_not_leadsTo hs hx, codeAt_of_not_leadsTo ht hx']

end Sys2Proof.CodeTable
end

section
/-! PROOFS for 43_encode.md: what EBEGIN opens (R150), what one ESYM stages or latches (R151), what EEND commits or
reports (R152), and the outcome of a whole encode (R153). -/

namespace Sys2Proof.Encoder

open Sys2Proof Sys2Proof.Machine Sys2Proof.Safety Sys2Proof.Laws Sys2Proof.Invariants Sys2Proof.Encoding

variable {s t : State}

/-! ## EBEGIN (R150) -/

theorem exec_ebegin_of_ready (hp : s.phase = .ready) :
    exec .ebegin s = .next { s.openResult with phase := .enc, resp := .ok } :=
  whenLegal_of_mem _ (List.mem_singleton.2 hp)

/-- Settles O27: in READY EBEGIN has its effect, elsewhere the phase check refuses it. -/
theorem ebeginOpensAnEncode : Obligations.EbeginOpensAnEncode :=
  ⟨by decide, fun _ => ⟨exec_ebegin_of_ready, fun hp => exec_of_not_legal (mt List.mem_singleton.1 hp)⟩⟩

/-! ## ESYM (R151) -/

theorem exec_esym_of_enc (x : Byte) (hp : s.phase = .enc) : exec (.esym x) s = .next (esymEffect x s) :=
  whenLegal_of_mem _ (List.mem_singleton.2 hp)

theorem esymEffect_of_latched (x : Byte) (he : s.terr ≠ none) : esymEffect x s = { s with resp := .ok } := by
  rcases esymEffect_cases x s with ⟨_, heq⟩ | ⟨hnone, _⟩ | ⟨hnone, _⟩ | ⟨hnone, _⟩
  · exact heq
  all_goals exact absurd hnone he

theorem esymEffect_of_unknown {x : Byte} (he : s.terr = none) (hx : ¬ IsKey s x) :
    esymEffect x s = { s with terr := some .unknownSymbol, resp := .ok } := by
  rcases esymEffect_cases x s with ⟨hsome, _⟩ | ⟨_, _, heq⟩ | ⟨_, hkey, _⟩ | ⟨_, hkey, _⟩
  · exact absurd he hsome
  · exact heq
  all_goals exact absurd hkey hx

theorem esymEffect_of_overflow {x : Byte} (he : s.terr = none) (hx : IsKey s x)
    (hover : ¬ Config.within s.cfg.rbufCap (s.wlen + (s.codeAt x.toNat).len)) :
    esymEffect x s = { s with terr := some .capacity, resp := .ok } := by
  rcases esymEffect_cases x s with ⟨hsome, _⟩ | ⟨_, hinvalid, _⟩ | ⟨_, _, hroom, _⟩ | ⟨_, _, _, heq⟩
  · exact absurd he hsome
  · exact absurd (hx.symm.trans hinvalid) nofun
  · exact absurd hroom hover
  · exact heq

theorem esymEffect_of_room {x : Byte} (he : s.terr = none) (hx : IsKey s x)
    (hroom : Config.within s.cfg.rbufCap (s.wlen + (s.codeAt x.toNat).len)) :
    esymEffect x s = { s.stage ((codeOf s x).map chr) with resp := .ok } := by
  rcases esymEffect_cases x s with ⟨hsome, _⟩ | ⟨_, hinvalid, _⟩ | ⟨_, _, _, heq⟩ | ⟨_, _, hover, _⟩
  · exact absurd he hsome
  · exact absurd (hx.symm.trans hinvalid) nofun
  · exact heq
  · exact absurd hroom hover

theorem length_codeOf (s : State) (x : Byte) : (codeOf s x).length = (s.codeAt x.toNat).len := path_length _

/-- Settles O28: the phase check refuses ESYM outside ENC; in ENC its effect is one of four, and the bytes it stages are
the code's characters. -/
theorem esymAppendsOneCode : Obligations.EsymAppendsOneCode := by
  intro s x
  have hlen : ((codeOf s x).map chr).length = (s.codeAt x.toNat).len := by rw [List.length_map, length_codeOf]
  refine ⟨encode_eq_or_of_opcode (op := 0x6) rfl (by decide),
    fun hp => exec_of_not_legal (mt List.mem_singleton.1 hp), fun hp he => ?latched, fun hp he hx => ?unknown,
    fun c hp he hx hc hlt => ?overflow, fun hp he hx hroom => ⟨_, exec_esym_of_enc x hp, ?_⟩⟩
  case latched => rw [exec_esym_of_enc x hp, esymEffect_of_latched x he]
  case unknown => rw [exec_esym_of_enc x hp, esymEffect_of_unknown he (Bool.eq_false_iff.1 hx)]
  case overflow =>
    rw [exec_esym_of_enc x hp, esymEffect_of_overflow he hx fun hroom => Nat.not_le.2 hlt (hroom c hc)]
  rw [esymEffect_of_room he hx hroom]
  refine ⟨fun j hj => ?bytes, fun a ha => ?frame, ?registers⟩
  case bytes =>
    calc (s.stage ((codeOf s x).map chr)).rbufAt (s.wlen + j)
        = ((codeOf s x).map chr)[j] := rbufAt_stage_inside s (hlen ▸ hj)
      _ = chr ((s.codeAt x.toNat).bits.getLsbD j) := by simp [codeOf, CodeEntry.path]
  case frame => exact rbufAt_stage_outside s (hlen ▸ ha)
  case registers => rw [← hlen]; rfl

/-! ## EEND (R152) -/

theorem exec_eend_of_enc (hp : s.phase = .enc) : exec .eend s = .next (s.closeResult .bits) :=
  whenLegal_of_mem _ (List.mem_singleton.2 hp)

theorem exec_eend_of_latched {e : Latched} (hp : s.phase = .enc) (he : s.terr = some e) :
    exec .eend s = .next { s with terr := none, rkind := .none, rlen := 0, phase := .ready, resp := e.resp } := by
  rw [exec_eend_of_enc hp, closeResult_of_some .bits he]

theorem exec_eend_of_clear (hp : s.phase = .enc) (he : s.terr = none) :
    exec .eend s = .next { s with rkind := .bits, rlen := s.wlen, phase := .ready, resp := .ok } := by
  rw [exec_eend_of_enc hp, closeResult_of_none .bits he]

/-- Settles O29: the phase check refuses EEND outside ENC; in ENC it closes the result by the latch. -/
theorem eendCommitsOrReports : Obligations.EendCommitsOrReports :=
  ⟨by decide, fun _ => ⟨fun hp => exec_of_not_legal (mt List.mem_singleton.1 hp), exec_eend_of_clear,
    fun _ => exec_eend_of_latched⟩⟩

/-! ## A whole encode (R153) -/

/-- The bytes the open operation has staged. -/
def stagedBytes (s : State) : List Byte := (List.range s.wlen).map s.rbufAt

/-- Staging appends to the bytes staged before. -/
theorem stagedBytes_stage (s : State) (bs : List Byte) : stagedBytes (s.stage bs) = stagedBytes s ++ bs := by
  rw [stagedBytes, stage_wlen, List.range_add, List.map_append, List.map_map]
  congr 1
  · exact List.map_congr_left fun a ha => rbufAt_stage_outside s (.inl (List.mem_range.1 ha))
  · refine List.ext_getElem (by simp) fun j _ hj => ?_
    rw [List.getElem_map, List.getElem_range]
    exact rbufAt_stage_inside s hj

/-- The state of an open encode, begun with the codec of `s`, that has staged the codes of the symbols `seen` and
latched no error. -/
structure Encoded (s : State) (seen : List Byte) (t : State) : Prop where
  phase : t.phase = .enc
  terr : t.terr = none
  cfg : t.cfg = s.cfg
  codec : SameCodec s t
  codeAt : ∀ i, t.codeAt i = s.codeAt i
  wlen : t.wlen = (encodeBits s seen).length
  bytes : stagedBytes t = (encodeBits s seen).map chr

theorem Encoded.isKey {seen : List Byte} (h : Encoded s seen t) (x : Byte) : IsKey t x ↔ IsKey s x := by
  rw [IsKey, IsKey, h.codeAt]

theorem encodeBits_concat (s : State) (seen : List Byte) (x : Byte) :
    encodeBits s (seen ++ [x]) = encodeBits s seen ++ codeOf s x := by
  simp [encodeBits]

theorem Encoded.wlen_add_code {seen : List Byte} (h : Encoded s seen t) (x : Byte) :
    t.wlen + (t.codeAt x.toNat).len = (encodeBits s (seen ++ [x])).length := by
  rw [encodeBits_concat, List.length_append, length_codeOf, h.wlen, h.codeAt]

theorem encoded_ebegin (s : State) : Encoded s [] { s.openResult with phase := .enc, resp := .ok } :=
  ⟨rfl, rfl, rfl, sameCodec_refl s, fun _ => rfl, rfl, rfl⟩

/-- One ESYM of a key whose code fits adds that code to those staged. -/
theorem encoded_esymEffect {seen : List Byte} {x : Byte} (h : Encoded s seen t) (hx : IsKey s x)
    (hroom : Config.within s.cfg.rbufCap (encodeBits s (seen ++ [x])).length) :
    Encoded s (seen ++ [x]) (esymEffect x t) := by
  have hcode : codeOf t x = codeOf s x := congrArg CodeEntry.path (h.codeAt x.toNat)
  rw [esymEffect_of_room h.terr ((h.isKey x).2 hx) (by rwa [h.wlen_add_code, h.cfg]), hcode]
  refine ⟨h.phase, h.terr, h.cfg, h.codec, h.codeAt, ?_, ?_⟩
  · rw [encodeBits_concat, List.length_append, ← h.wlen, ← List.length_map chr]
    rfl
  · rw [encodeBits_concat, List.map_append, ← h.bytes]
    exact stagedBytes_stage t _

/-- EBEGIN and one ESYM an element, by induction on the sequence from its end. -/
theorem runCommands_encoded (hp : s.phase = .ready) (seen : List Byte) (hkeys : ∀ x ∈ seen, IsKey s x)
    (hroom : Config.within s.cfg.rbufCap (encodeBits s seen).length) :
    ∃ t, runCommands (.ebegin :: seen.map .esym) s = .next t ∧ Encoded s seen t := by
  induction seen using List.reverseRecOn with
  | nil => exact ⟨_, by rw [runCommands, exec_ebegin_of_ready hp]; rfl, encoded_ebegin s⟩
  | append_singleton seen x ih =>
    have hle : (encodeBits s seen).length ≤ (encodeBits s (seen ++ [x])).length := by
      rw [encodeBits_concat, List.length_append]
      exact Nat.le_add_right _ _
    obtain ⟨t, hrun, h⟩ := ih (fun y hy => hkeys y (List.mem_append_left _ hy)) fun c hc => hle.trans (hroom c hc)
    refine ⟨esymEffect x t, ?_, encoded_esymEffect h (hkeys x (by simp)) hroom⟩
    rw [List.map_append, ← List.cons_append, runCommands_append hrun]
    simp only [List.map_cons, List.map_nil, runCommands, exec_esym_of_enc x h.phase]

/-- A latched error outlasts the further ESYMs, and EEND reports it (R211). -/
theorem runCommands_esyms_of_latched {e : Latched} (beats : List Byte) (hp : s.phase = .enc) (he : s.terr = some e) :
    runCommands (beats.map .esym ++ [.eend]) s
      = .next { s with terr := none, rkind := .none, rlen := 0, phase := .ready, resp := e.resp } := by
  induction beats generalizing s with
  | nil => simp only [List.map_nil, List.nil_append, runCommands, exec_eend_of_latched hp he]
  | cons x beats ih =>
    have hne : s.terr ≠ none := he ▸ nofun
    simp only [List.map_cons, List.cons_append, runCommands, exec_esym_of_enc x hp, esymEffect_of_latched x hne]
    exact ih hp he

theorem runMacro_encode_append {seen : List Byte} (rest : List Byte)
    (hrun : runCommands (.ebegin :: seen.map .esym) s = .next t) :
    runMacro (.encode (seen ++ rest)) s = runCommands (rest.map .esym ++ [.eend]) t := by
  rw [runMacro, expand, List.map_append, List.append_assoc, ← List.cons_append, runCommands_append hrun]

/-- Where the encode of the elements before `x` succeeds and `x` latches an error, that error is reported. -/
theorem encode_reports {seen : List Byte} {x : Byte} {e : Latched} (rest : List Byte) (hp : s.phase = .ready)
    (hkeys : ∀ y ∈ seen, IsKey s y) (hroom : Config.within s.cfg.rbufCap (encodeBits s seen).length)
    (hlatch : ∀ t, Encoded s seen t → esymEffect x t = { t with terr := some e, resp := .ok }) :
    ∃ t, runMacro (.encode (seen ++ x :: rest)) s = .next t ∧ t.phase = .ready ∧ SameCodec s t ∧ NoResult t e.resp := by
  obtain ⟨t, hrun, h⟩ := runCommands_encoded hp seen hkeys hroom
  refine ⟨{ t with terr := none, rkind := .none, rlen := 0, phase := .ready, resp := e.resp }, ?_, rfl, h.codec,
    rfl, rfl, rfl⟩
  rw [runMacro_encode_append _ hrun]
  simp only [List.map_cons, List.cons_append, runCommands, exec_esym_of_enc x h.phase, hlatch t h]
  exact runCommands_esyms_of_latched rest h.phase rfl

/-- Where every element is a key and all codes fit, the result is the codes' characters. -/
theorem encode_commits {operand : List Byte} (hp : s.phase = .ready) (hkeys : ∀ y ∈ operand, IsKey s y)
    (hroom : Config.within s.cfg.rbufCap (encodeBits s operand).length) :
    ∃ t, runMacro (.encode operand) s = .next t ∧ t.phase = .ready ∧ SameCodec s t ∧ t.resp = .ok ∧ t.rkind = .bits
      ∧ t.rlen = (encodeBits s operand).length ∧ t.result = (encodeBits s operand).map chr := by
  obtain ⟨t, hrun, h⟩ := runCommands_encoded hp operand hkeys hroom
  refine ⟨{ t with rkind := .bits, rlen := t.wlen, phase := .ready, resp := .ok }, ?_, rfl, h.codec, rfl, rfl, h.wlen,
    h.bytes⟩
  rw [← operand.append_nil, runMacro_encode_append [] hrun]
  simp only [List.map_nil, List.nil_append, runCommands, exec_eend_of_clear h.phase h.terr]

/-! The indices `u` and `c` of R153 -/

variable {operand : List Byte}

theorem firstUnknown_le (s : State) (operand : List Byte) : firstUnknown s operand ≤ operand.length :=
  List.findIdx_le_length

theorem isKey_of_lt_firstUnknown {i : Nat} (hi : i < operand.length) (h : i < firstUnknown s operand) :
    IsKey s operand[i] := by
  simpa using List.not_of_lt_findIdx h

theorem isKey_of_mem_take {n : Nat} (hn : n ≤ firstUnknown s operand) : ∀ x ∈ operand.take n, IsKey s x := by
  intro x hx
  obtain ⟨i, hi, rfl⟩ := List.mem_take_iff_getElem.1 hx
  exact isKey_of_lt_firstUnknown (by omega) (by omega)

theorem not_isKey_firstUnknown (h : firstUnknown s operand < operand.length) :
    ¬ IsKey s operand[firstUnknown s operand] :=
  Bool.eq_false_iff.1 (Bool.not_eq_eq_eq_not.1 (List.findIdx_getElem (w := h)))

theorem encodedLength_eq (s : State) (operand : List Byte) (c : Nat) :
    encodedLength s operand c = (encodeBits s (operand.take (c + 1))).length := by
  simp [encodedLength, encodeBits, List.length_flatMap, length_codeOf]

/-- Where no element below `n` overflows the buffer, the codes of the first `n` elements fit. -/
theorem within_take {n : Nat} (h : ∀ c < n, Config.within s.cfg.rbufCap (encodedLength s operand c)) :
    Config.within s.cfg.rbufCap (encodeBits s (operand.take n)).length := by
  cases n with
  | zero => exact within_zero _
  | succ c => exact encodedLength_eq s operand c ▸ h c c.lt_succ_self

theorem firstOverflow_eq_none : firstOverflow s operand = none
    ↔ ∀ c < firstUnknown s operand, Config.within s.cfg.rbufCap (encodedLength s operand c) := by
  rw [firstOverflow, List.find?_range_eq_none]
  exact forall₂_congr fun _ _ => by rw [decide_not, Bool.not_not, decide_eq_true_iff]

theorem firstOverflow_eq_some {c : Nat} : firstOverflow s operand = some c
    ↔ ¬ Config.within s.cfg.rbufCap (encodedLength s operand c) ∧ c < firstUnknown s operand
      ∧ ∀ b < c, Config.within s.cfg.rbufCap (encodedLength s operand b) := by
  rw [firstOverflow, List.find?_range_eq_some, decide_eq_true_iff, List.mem_range]
  exact and_congr_right' (and_congr_right' (forall₂_congr fun _ _ => by
    rw [decide_not, Bool.not_not, decide_eq_true_iff]))

/-- Settles O50: the operand up to the least failing index encodes, and the element there latches its error. -/
theorem encodeOutcome : Obligations.EncodeOutcome := by
  intro s operand hp
  cases hover : firstOverflow s operand with
  | some c =>
    obtain ⟨hfull, hc, hbefore⟩ := firstOverflow_eq_some.1 hover
    have hlt : c < operand.length := hc.trans_le (firstUnknown_le s operand)
    have hlatch : ∀ t, Encoded s (operand.take c) t →
        esymEffect operand[c] t = { t with terr := some .capacity, resp := .ok } := fun t h =>
      esymEffect_of_overflow h.terr ((h.isKey _).2 (isKey_of_lt_firstUnknown hlt hc)) (by
        rwa [h.wlen_add_code, h.cfg, List.take_concat_get' _ _ hlt, ← encodedLength_eq])
    obtain ⟨t, hrun, hphase, hcodec, hno⟩ :=
      encode_reports (operand.drop (c + 1)) hp (isKey_of_mem_take hc.le) (within_take hbefore) hlatch
    rw [← List.drop_eq_getElem_cons, List.take_append_drop] at hrun
    exact ⟨t, hrun, hphase, hcodec, fun _ => hno, nofun, nofun⟩
  | none =>
    have hroom := within_take (firstOverflow_eq_none.1 hover)
    rcases (firstUnknown_le s operand).lt_or_eq with hlt | heq
    · obtain ⟨t, hrun, hphase, hcodec, hno⟩ :=
        encode_reports (operand.drop (firstUnknown s operand + 1)) hp (isKey_of_mem_take le_rfl) hroom fun t h =>
          esymEffect_of_unknown h.terr (mt (h.isKey _).1 (not_isKey_firstUnknown hlt))
      rw [← List.drop_eq_getElem_cons, List.take_append_drop] at hrun
      exact ⟨t, hrun, hphase, hcodec, nofun, fun _ _ => hno, fun _ heq => absurd heq hlt.ne⟩
    · have hkeys := isKey_of_mem_take (s := s) (operand := operand) le_rfl
      rw [heq, List.take_length] at hroom hkeys
      obtain ⟨t, hrun, hphase, hcodec, hresult⟩ := encode_commits hp hkeys hroom
      exact ⟨t, hrun, hphase, hcodec, nofun, fun _ hlt => absurd heq hlt.ne, fun _ _ => hresult⟩

end Sys2Proof.Encoder
end

section
/-! PROOFS for 44_decode.md: what DBEGIN opens (R160), what one DBIT does on each path through its rule (R161), what
DEND commits or reports (R162), and the outcome of a whole decode (R163, R164). -/

namespace Sys2Proof.Decoder

open Sys2Proof Sys2Proof.Machine Sys2Proof.Safety Sys2Proof.Laws Sys2Proof.Invariants Sys2Proof.HostPorts
  Sys2Proof.Encoding Sys2Proof.CodeTable Sys2Proof.Encoder

variable {s t : State}

/-! ## DBEGIN (R160) -/

theorem exec_dbegin_of_ready (hp : s.phase = .ready) :
    exec .dbegin s = .next { s.openResult with cur := s.root, phase := .dec, resp := .ok } :=
  whenLegal_of_mem _ (List.mem_singleton.2 hp)

/-- Settles O30: in READY DBEGIN has its effect, elsewhere the phase check refuses it. -/
theorem dbeginOpensADecode : Obligations.DbeginOpensADecode :=
  ⟨by decide, fun _ => ⟨exec_dbegin_of_ready, fun hp => exec_of_not_legal (mt List.mem_singleton.1 hp)⟩⟩

/-! ## DEND (R162) -/

theorem exec_dend_of_dec (hp : s.phase = .dec) : exec .dend s = .next (s.latchTruncated.closeResult .syms) :=
  whenLegal_of_mem _ (List.mem_singleton.2 hp)

/-- A latched error is not replaced by TruncatedCode. -/
theorem latchTruncated_of_latched {e : Latched} (he : s.terr = some e) : s.latchTruncated = s := by
  simp only [State.latchTruncated, State.latch, he, ite_self]

theorem exec_dend_of_latched {e : Latched} (hp : s.phase = .dec) (he : s.terr = some e) :
    exec .dend s = .next { s with terr := none, rkind := .none, rlen := 0, phase := .ready, resp := e.resp } := by
  rw [exec_dend_of_dec hp, latchTruncated_of_latched he, closeResult_of_some .syms he]

theorem exec_dend_at_root (hp : s.phase = .dec) (he : s.terr = none) (hcur : s.cur = s.root) :
    exec .dend s = .next { s with rkind := .syms, rlen := s.wlen, phase := .ready, resp := .ok } := by
  rw [exec_dend_of_dec hp, State.latchTruncated, if_pos hcur, closeResult_of_none .syms he]

theorem exec_dend_off_root (hp : s.phase = .dec) (he : s.terr = none) (hcur : s.cur ≠ s.root) :
    exec .dend s = .next { s with rkind := .none, rlen := 0, phase := .ready, resp := .truncatedCode } := by
  rw [exec_dend_of_dec hp, State.latchTruncated, if_neg hcur, latch_of_none _ he,
    closeResult_of_some (e := .truncatedCode) .syms rfl, ← he]
  rfl

/-- Settles O32: the phase check refuses DEND outside DEC; in DEC it closes the result by the latch, which TruncatedCode
enters first where the latch is free and the cursor off the root. -/
theorem dendCommitsOrReports : Obligations.DendCommitsOrReports :=
  ⟨by decide, fun _ => ⟨fun hp => exec_of_not_legal (mt List.mem_singleton.1 hp), exec_dend_at_root,
    exec_dend_off_root, fun _ => exec_dend_of_latched⟩⟩

/-! ## Emitting a symbol (R161 `emit`) -/

/-- The answer of a DBIT that emits `x` and leaves the cursor at `cursor`. -/
def emitTo (s : State) (x : Byte) (cursor : Nat) : Outcome :=
  emit x s fun t => .next { t with cur := cursor, resp := .ok }

/-- An `emit` with the cursor moved, after which the cursor goes to its place and OK is answered. -/
theorem emit_eq_emitTo (x : Byte) {c cursor : Nat} {k : State → State} (he : s.terr = none)
    (hk : ∀ terr rbuf wlen, k { s with cur := c, terr := terr, rbuf := rbuf, wlen := wlen }
      = { s with cur := cursor, resp := .ok, terr := terr, rbuf := rbuf, wlen := wlen }) :
    emit x { s with cur := c } (fun t => .next (k t)) = emitTo s x cursor := by
  unfold emitTo emit
  refine if_congr Iff.rfl ?full (if_congr Iff.rfl ?room rfl)
  case full =>
    rw [latch_of_none _ he, latch_of_none (s := { s with cur := c }) _ he]
    exact congrArg _ (hk ..)
  case room => exact congrArg _ (hk ..)

theorem emitTo_of_full {x : Byte} {cursor : Nat} (he : s.terr = none) (hfull : s.cfg.rbufCap = some s.wlen) :
    emitTo s x cursor = .next { s with cur := cursor, terr := some .capacity, resp := .ok } := by
  rw [emitTo, emit, if_pos hfull, latch_of_none _ he]

theorem emitTo_of_room {x : Byte} {cursor : Nat} (hfull : s.cfg.rbufCap ≠ some s.wlen)
    (hroom : Config.within s.cfg.rbufCap (s.wlen + 1)) :
    emitTo s x cursor = .next { s.stage [x] with cur := cursor, resp := .ok } := by
  rw [emitTo, emit, if_neg hfull, if_pos hroom]

theorem emitsSymbol_emitTo (x : Byte) (cursor : Nat) (he : s.terr = none) :
    EmitsSymbol s (emitTo s x cursor) x cursor :=
  ⟨emitTo_of_full he, fun hfull hroom => ⟨_, emitTo_of_room hfull hroom, rbufAt_stage_inside s (bs := [x]) Nat.one_pos,
    fun _ ha => rbufAt_stage_outside s (bs := [x]) (Nat.lt_or_gt_of_ne ha), rfl⟩⟩

/-! ## DBIT (R161) -/

theorem exec_dbit_of_dec (d : Byte) (hp : s.phase = .dec) : exec (.dbit d) s = dbitEffect d s :=
  whenLegal_of_mem (i := .dbit d) _ (List.mem_singleton.2 hp)

theorem exec_dbit_of_latched (d : Byte) (hp : s.phase = .dec) (he : s.terr ≠ none) :
    exec (.dbit d) s = .next { s with resp := .ok } := by
  obtain ⟨e, he⟩ := Option.ne_none_iff_exists'.1 he
  have heffect : dbitEffect d s = .next s.respondOk := by simp only [dbitEffect, he]
  exact (exec_dbit_of_dec d hp).trans heffect

theorem exec_dbit_of_no_bit {d : Byte} (hp : s.phase = .dec) (he : s.terr = none) (hd : bitOfChar d = none) :
    exec (.dbit d) s = .next { s with terr := some .invalidBit, resp := .ok } := by
  have heffect : dbitEffect d s = .next (s.latch .invalidBit).respondOk := by simp only [dbitEffect, he, hd]
  rw [exec_dbit_of_dec d hp, heffect, latch_of_none _ he]
  rfl

/-- On a root that is a Leaf the bit 1 is InvalidBit. -/
theorem exec_dbit_one_of_sole_leaf (hp : s.phase = .dec) (he : s.terr = none) (hroot : s.root < 511)
    (hk : (s.nodeAt s.root).kind = .leaf) :
    exec (.dbit (chr true)) s = .next { s with terr := some .invalidBit, resp := .ok } := by
  rw [exec_dbit_of_character true hp he, descend, withNode_of_lt _ hroot, hk, latch_of_none _ he]
  rfl

/-- On a root that is a Leaf the bit 0 emits its symbol. -/
theorem exec_dbit_zero_of_sole_leaf (hp : s.phase = .dec) (he : s.terr = none) (hroot : s.root < 511)
    (hk : (s.nodeAt s.root).kind = .leaf) :
    exec (.dbit (chr false)) s = emitTo s (s.nodeAt s.root).sym s.cur := by
  rw [exec_dbit_of_character false hp he, descend_of_sole_leaf hroot hk]
  exact emit_eq_emitTo _ he fun _ _ _ => rfl

/-- On a root that is an Internal node a bit follows an edge from the cursor. -/
theorem exec_dbit_of_internal {b : Bool} (hp : s.phase = .dec) (he : s.terr = none) (hroot : s.root < 511)
    (hk : (s.nodeAt s.root).kind = .internal) (hcur : s.cur < 511) :
    exec (.dbit (chr b)) s = followEdge b s (s.nodeAt s.cur) := by
  rw [exec_dbit_of_character b hp he, descend_of_internal hroot hk, withNode_of_lt _ hcur]

theorem followEdge_to_internal {b : Bool} {n : NodeEntry} (hchild : n.child b < 511)
    (hk : (s.nodeAt (n.child b)).kind = .internal) :
    followEdge b s n = .next { s with cur := n.child b, resp := .ok } := by
  rw [followEdge, withNode_of_lt _ hchild, hk]
  rfl

theorem followEdge_to_leaf {b : Bool} {n : NodeEntry} (he : s.terr = none) (hchild : n.child b < 511)
    (hk : (s.nodeAt (n.child b)).kind = .leaf) :
    followEdge b s n = emitTo s (s.nodeAt (n.child b)).sym s.root := by
  rw [followEdge_of_leaf hchild hk]
  exact emit_eq_emitTo _ he fun _ _ _ => rfl

/-- Settles O31: the phase check, the latch and the character test come first, then a sole Leaf as root, then the edge
from the cursor. -/
theorem dbitTakesOneStepDownTheTree : Obligations.DbitTakesOneStepDownTheTree := by
  intro s d
  refine ⟨encode_eq_or_of_opcode (op := 0x9) rfl (by decide),
    fun hp => exec_of_not_legal (mt List.mem_singleton.1 hp), exec_dbit_of_latched d,
    fun hp he h0 h1 => exec_dbit_of_no_bit hp he (bitOfChar_eq_none.2 ⟨h0, h1⟩),
    fun hp he hroot hk => ⟨?one, ?zero⟩, fun c hp he hroot hk hcur hd hc => ?edge⟩
  case one =>
    rintro rfl
    exact exec_dbit_one_of_sole_leaf hp he hroot hk
  case zero =>
    rintro rfl
    exact exec_dbit_zero_of_sole_leaf hp he hroot hk ▸ emitsSymbol_emitTo _ _ he
  case edge =>
    obtain ⟨b, rfl, rfl⟩ : ∃ b, d = chr b ∧ c = (s.nodeAt s.cur).child b :=
      hd.elim (fun h => ⟨false, h⟩) fun h => ⟨true, h⟩
    rw [exec_dbit_of_internal hp he hroot hk hcur]
    exact ⟨followEdge_to_internal hc, fun hleaf => followEdge_to_leaf he hc hleaf ▸ emitsSymbol_emitTo _ _ he⟩

/-! ## The codes and the tree (R164) -/

/-- The path `p` from the root ends at an Internal node, where a decode may stand between two bits. -/
def EndsInside (s : State) (p : List Bool) : Prop :=
  ∃ j, descendPath s s.root p = some j ∧ (s.nodeAt j).kind = .internal

theorem endsInside_nil (h : TreeOk s) (hk : s.ksyms ≠ 1) : EndsInside s [] :=
  ⟨s.root, rfl, root_internal h hk⟩

/-- A path that goes on from a node has an Internal node there. -/
theorem endsInside_of_concat {p : List Bool} {b : Bool} {k : Nat} (h : descendPath s s.root (p ++ [b]) = some k) :
    EndsInside s p := by
  obtain ⟨j, hj, hk, -⟩ := descendPath_concat h
  exact ⟨j, hj, hk⟩

/-- A path of one edge or more leaves an Internal root. -/
theorem root_internal_of_path (h : TreeOk s) {p : List Bool} {b : Bool} {k : Nat}
    (hp : descendPath s s.root (p ++ [b]) = some k) : (s.nodeAt s.root).kind = .internal := by
  refine root_internal h fun hone => ?_
  exact List.concat_ne_nil b p (List.concat_eq_append .. ▸ (descendPath_of_leaf ((root_leaf_iff h).2 hone) hp).1)

theorem codeOfPath_of_ne_nil {p : List Bool} (hp : p ≠ []) : codeOfPath p = p := by
  obtain ⟨b, q, rfl⟩ := List.exists_cons_of_ne_nil hp
  rfl

/-- One more edge from inside the tree ends inside again or completes the code of a key. -/
theorem endsInside_step (h : CodecOk s) {p : List Bool} (hp : EndsInside s p) (b : Bool) :
    EndsInside s (p ++ [b]) ∨ ∃ x, IsKey s x ∧ codeOf s x = p ++ [b] := by
  obtain ⟨j, hj, hk⟩ := hp
  have hstep : descendPath s s.root (p ++ [b]) = some ((s.nodeAt j).child b) := by
    simp [descendPath_append, hj, descendPath, hk]
  cases hc : (s.nodeAt ((s.nodeAt j).child b)).kind with
  | internal => exact .inl ⟨_, hstep, hc⟩
  | leaf =>
    have hleads : LeadsTo s s.root (p ++ [b]) _ := ⟨_, hstep, hc, rfl⟩
    refine .inr ⟨_, (isKey_iff_leadsTo h).2 ⟨_, hleads⟩, (codeOf_of_leadsTo h hleads).trans ?_⟩
    exact codeOfPath_of_ne_nil (List.append_ne_nil_of_right_ne_nil p (List.cons_ne_nil b []))

/-- A code ends with the edge to a Leaf; before it come edges inside the tree, or none. -/
theorem codeOf_eq_concat (h : CodecOk s) {x : Byte} (hx : IsKey s x) :
    ∃ p b, codeOf s x = p ++ [b] ∧ (p = [] ∨ EndsInside s p) := by
  by_cases hk : s.ksyms = 1
  · exact ⟨[], false, key_code_sole h hx hk, .inl rfl⟩
  · obtain ⟨i, hi, hpath, -⟩ := key_code_path h hx hk
    rcases List.eq_nil_or_concat' (codeOf s x) with hnil | ⟨p, b, hcode⟩
    · rw [hnil] at hpath
      exact nomatch (Option.some.inj hpath ▸ root_internal h.tree hk).symm.trans (kind_of_lt_ksyms h.tree hi)
    · exact ⟨p, b, hcode, .inr (endsInside_of_concat (hcode ▸ hpath))⟩

/-- Below every node there is a Leaf: to the left, indices fall. -/
theorem exists_leadsTo (h : TreeOk s) {i : Nat} (hi : i < s.nn) : ∃ p x, LeadsTo s i p x := by
  induction i using Nat.strong_induction_on with
  | _ i ih =>
    cases hk : (s.nodeAt i).kind with
    | leaf => exact ⟨[], _, leadsTo_nil.2 ⟨hk, rfl⟩⟩
    | internal =>
      have hlt := child_lt (internalOk_of_kind h hi hk).2 false
      obtain ⟨p, x, hp⟩ := ih _ hlt (hlt.trans hi)
      exact ⟨false :: p, x, leadsTo_cons.2 ⟨hk, hp⟩⟩

/-- A path that ends inside the tree is a proper part of a code. -/
theorem endsInside_proper_prefix (h : CodecOk s) {p : List Bool} (hp : EndsInside s p) :
    ∃ x, IsKey s x ∧ p <+: codeOf s x ∧ p ≠ codeOf s x := by
  obtain ⟨j, hj, hk⟩ := hp
  obtain ⟨q, x, i, hq, hleaf, hsym⟩ := exists_leadsTo h.tree (path_length_le h.tree hj).1
  have hne : q ≠ [] := by
    rintro rfl
    exact nomatch (Option.some.inj hq ▸ hk).symm.trans hleaf
  have hleads : LeadsTo s s.root (p ++ q) x := ⟨i, by rw [descendPath_append, hj]; exact hq, hleaf, hsym⟩
  have hcode : codeOf s x = p ++ q :=
    (codeOf_of_leadsTo h hleads).trans (codeOfPath_of_ne_nil (List.append_ne_nil_of_right_ne_nil p hne))
  refine ⟨x, (isKey_iff_leadsTo h).2 ⟨_, hleads⟩, ?_⟩
  rw [hcode]
  exact ⟨List.prefix_append p q, fun heq => hne (List.self_eq_append_right.1 heq)⟩

/-- The parse of a bit-string (R164): whole codes, then a path that ends inside the tree. -/
theorem exists_parse (h : CodecOk s) (hk : s.ksyms ≠ 1) (bits : List Bool) :
    ∃ symbols tail, bits = encodeBits s symbols ++ tail ∧ (∀ x ∈ symbols, IsKey s x) ∧ EndsInside s tail := by
  induction bits using List.reverseRecOn with
  | nil => exact ⟨[], [], rfl, nofun, endsInside_nil h.tree hk⟩
  | append_singleton bits b ih =>
    obtain ⟨symbols, tail, rfl, hkeys, htail⟩ := ih
    rcases endsInside_step h htail b with hin | ⟨x, hx, hcode⟩
    · exact ⟨symbols, tail ++ [b], List.append_assoc .., hkeys, hin⟩
    · refine ⟨symbols ++ [x], [], ?_, ?_, endsInside_nil h.tree hk⟩
      · rw [encodeBits_concat, hcode, List.append_nil, List.append_assoc]
      · simpa [or_imp, forall_and] using ⟨hkeys, hx⟩

/-! ## A whole decode (R163) -/

/-- The commands that hand the decoder a bit-string. -/
def dbits (bits : List Bool) : List Instr := (bits.map chr).map .dbit

theorem dbits_append (p q : List Bool) : dbits (p ++ q) = dbits p ++ dbits q := by
  rw [dbits, List.map_append, List.map_append]
  rfl

theorem runCommands_singleton (i : Instr) (s : State) : runCommands [i] s = exec i s := by
  simp only [runCommands]
  cases exec i s <;> rfl

theorem runCommands_dbits_concat {p : List Bool} (b : Bool) (h : runCommands (dbits p) s = .next t) :
    runCommands (dbits (p ++ [b])) s = exec (.dbit (chr b)) t := by
  rw [dbits_append, runCommands_append h]
  exact runCommands_singleton _ t

theorem runMacro_decode_append {bits : List Bool} (rest : List Byte)
    (h : runCommands (.dbegin :: dbits bits) s = .next t) :
    runMacro (.decode (bits.map chr ++ rest)) s = runCommands (rest.map .dbit ++ [.dend]) t := by
  rw [runMacro, expand, List.map_append, List.append_assoc, ← List.cons_append]
  exact runCommands_append h

theorem runMacro_decode_eq {bits : List Bool} (h : runCommands (.dbegin :: dbits bits) s = .next t) :
    runMacro (.decode (bits.map chr)) s = exec .dend t := by
  rw [← (bits.map chr).append_nil, runMacro_decode_append [] h]
  exact runCommands_singleton _ t

/-- A latched error outlasts the further DBITs, and DEND reports it (R211). -/
theorem runCommands_dbits_of_latched {e : Latched} (beats : List Byte) (hp : s.phase = .dec) (he : s.terr = some e) :
    runCommands (beats.map .dbit ++ [.dend]) s
      = .next { s with terr := none, rkind := .none, rlen := 0, phase := .ready, resp := e.resp } := by
  induction beats generalizing s with
  | nil => exact (runCommands_singleton _ s).trans (exec_dend_of_latched hp he)
  | cons d beats ih =>
    have hne : s.terr ≠ none := he ▸ nofun
    simp only [List.map_cons, List.cons_append, runCommands, exec_dbit_of_latched d hp hne]
    exact ih hp he

/-- The state of an open decode, begun with the codec of `s`, that has emitted the symbols `seen`, stands at the end of
the path `tail` and has latched no error. -/
structure Decoded (s : State) (seen : List Byte) (tail : List Bool) (t : State) : Prop where
  phase : t.phase = .dec
  terr : t.terr = none
  cfg : t.cfg = s.cfg
  codec : SameCodec s t
  nodeAt : ∀ i, t.nodeAt i = s.nodeAt i
  cursor : descendPath s s.root tail = some t.cur
  bytes : stagedBytes t = seen

theorem Decoded.wlen {seen : List Byte} {tail : List Bool} (h : Decoded s seen tail t) : t.wlen = seen.length := by
  rw [← h.bytes, stagedBytes, List.length_map, List.length_range]

theorem Decoded.root {seen : List Byte} {tail : List Bool} (h : Decoded s seen tail t) : t.root = s.root := by
  obtain ⟨-, -, -, -, -, hroot, -⟩ := h.codec
  exact hroot

theorem decoded_dbegin (s : State) :
    Decoded s [] [] { s.openResult with cur := s.root, phase := .dec, resp := .ok } :=
  ⟨rfl, rfl, rfl, sameCodec_refl s, fun _ => rfl, rfl, rfl⟩

/-- An emission with room adds the symbol to those emitted. -/
theorem decoded_emitTo {seen : List Byte} {tail : List Bool} (h : Decoded s seen tail t) (x : Byte)
    (hroom : Config.within s.cfg.rbufCap (seen.length + 1)) :
    ∃ u, emitTo t x s.root = .next u ∧ Decoded s (seen ++ [x]) [] u := by
  have hroom' : Config.within t.cfg.rbufCap (t.wlen + 1) := by rwa [h.cfg, h.wlen]
  have hfull : t.cfg.rbufCap ≠ some t.wlen := fun heq => Nat.not_succ_le_self _ (hroom' _ heq)
  refine ⟨_, emitTo_of_room hfull hroom', h.phase, h.terr, h.cfg, h.codec, h.nodeAt, rfl, ?_⟩
  rw [← h.bytes]
  exact stagedBytes_stage t [x]

section
variable {seen : List Byte} {tail : List Bool} {b : Bool} (h : Decoded s seen tail t) (hs : CodecOk s)
include h hs

theorem Decoded.root_lt : t.root < 511 :=
  h.root ▸ Nat.lt_of_lt_of_le (root_lt_nn hs.tree) (nn_le_nodeMax hs.tree)

/-- Where the next edge stays in the tree, DBIT follows it. -/
theorem Decoded.exec_dbit_edge {j : Nat} (hpath : descendPath s s.root (tail ++ [b]) = some j) :
    exec (.dbit (chr b)) t = followEdge b t (s.nodeAt t.cur) ∧ (s.nodeAt t.cur).child b = j ∧ j < 511 := by
  have lt_of_path : ∀ {p i}, descendPath s s.root p = some i → i < 511 := fun hp =>
    (path_length_le hs.tree hp).1.trans_le (nn_le_nodeMax hs.tree)
  obtain ⟨i, hi, -, hchild⟩ := descendPath_concat hpath
  obtain rfl : t.cur = i := Option.some.inj (h.cursor.symm.trans hi)
  have hroot : (t.nodeAt t.root).kind = .internal := by
    rw [h.nodeAt, h.root]
    exact root_internal_of_path hs.tree hpath
  rw [← h.nodeAt, exec_dbit_of_internal h.phase h.terr (h.root_lt hs) hroot (lt_of_path h.cursor)]
  exact ⟨rfl, h.nodeAt _ ▸ hchild, lt_of_path hpath⟩

/-- A bit that stays inside the tree moves the cursor. -/
theorem decoded_inside (hin : EndsInside s (tail ++ [b])) :
    ∃ u, exec (.dbit (chr b)) t = .next u ∧ Decoded s seen (tail ++ [b]) u := by
  obtain ⟨j, hj, hk⟩ := hin
  obtain ⟨hexec, rfl, hlt⟩ := h.exec_dbit_edge hs hj
  refine ⟨_, hexec.trans (followEdge_to_internal hlt (by rwa [h.nodeAt])), ?_⟩
  exact ⟨h.phase, h.terr, h.cfg, h.codec, h.nodeAt, hj, h.bytes⟩

/-- The last bit of a code emits its symbol and returns to the root, whether K is 1 or more. -/
theorem Decoded.exec_dbit_last {x : Byte} (hx : IsKey s x) (hcode : codeOf s x = tail ++ [b]) :
    exec (.dbit (chr b)) t = emitTo t x s.root := by
  by_cases hk : s.ksyms = 1
  · obtain ⟨rfl, rfl⟩ : [] = tail ∧ false = b :=
      List.append_singleton_inj.1 ((key_code_sole hs hx hk).symm.trans hcode)
    have hleaf : (s.nodeAt s.root).kind = .leaf := (root_leaf_iff hs.tree).2 hk
    have hsym : (s.nodeAt s.root).sym = x := key_unique hs hk (isKey_of_leaf hs (root_lt_nn hs.tree) hleaf) hx
    have hcur : s.root = t.cur := Option.some.inj h.cursor
    rw [exec_dbit_zero_of_sole_leaf h.phase h.terr (h.root_lt hs) (by rwa [h.nodeAt, h.root]), h.nodeAt, h.root, hsym,
      hcur]
  · obtain ⟨i, hi, hpath, hsym⟩ := key_code_path hs hx hk
    obtain ⟨hexec, rfl, hlt⟩ := h.exec_dbit_edge hs (hcode ▸ hpath)
    have hleaf : (t.nodeAt ((s.nodeAt t.cur).child b)).kind = .leaf := by
      rw [h.nodeAt]
      exact kind_of_lt_ksyms hs.tree hi
    rw [hexec, followEdge_to_leaf h.terr hlt hleaf, h.nodeAt, hsym, h.root]

end

/-- The bits of a path inside the tree move the cursor to its end. -/
theorem runCommands_inside {seen : List Byte} {p : List Bool} (hs : CodecOk s) (h : Decoded s seen [] t)
    (hp : p = [] ∨ EndsInside s p) : ∃ u, runCommands (dbits p) t = .next u ∧ Decoded s seen p u := by
  induction p using List.reverseRecOn with
  | nil => exact ⟨t, rfl, h⟩
  | append_singleton p b ih =>
    have hin := hp.resolve_left (List.append_ne_nil_of_right_ne_nil p (List.cons_ne_nil b []))
    obtain ⟨u, hrun, hu⟩ := ih (.inr (hin.elim fun _ hj => endsInside_of_concat hj.1))
    rw [runCommands_dbits_concat b hrun]
    exact decoded_inside hu hs hin

/-- The bits of a code come to the emission of its symbol. -/
theorem runCommands_code {seen : List Byte} {x : Byte} (hs : CodecOk s) (h : Decoded s seen [] t) (hx : IsKey s x) :
    ∃ p u, Decoded s seen p u ∧ runCommands (dbits (codeOf s x)) t = emitTo u x s.root := by
  obtain ⟨p, b, hcode, hp⟩ := codeOf_eq_concat hs hx
  obtain ⟨u, hrun, hu⟩ := runCommands_inside hs h hp
  exact ⟨p, u, hu, by rw [hcode, runCommands_dbits_concat b hrun, hu.exec_dbit_last hs hx hcode]⟩

/-- DBEGIN and the codes of a sequence of keys that fits the buffer, by induction on the sequence from its end. -/
theorem runCommands_codes (hs : CodecOk s) (hp : s.phase = .ready) (seen : List Byte) (hkeys : ∀ x ∈ seen, IsKey s x)
    (hroom : Config.within s.cfg.rbufCap seen.length) :
    ∃ t, runCommands (.dbegin :: dbits (encodeBits s seen)) s = .next t ∧ Decoded s seen [] t := by
  induction seen using List.reverseRecOn with
  | nil => exact ⟨_, (runCommands_singleton _ s).trans (exec_dbegin_of_ready hp), decoded_dbegin s⟩
  | append_singleton seen x ih =>
    rw [List.length_append, List.length_singleton] at hroom
    obtain ⟨t, hrun, h⟩ := ih (fun y hy => hkeys y (List.mem_append_left _ hy)) fun c hc => Nat.le_of_lt (hroom c hc)
    obtain ⟨p, u, hu, hcode⟩ := runCommands_code hs h (hkeys x (by simp))
    rw [encodeBits_concat, dbits_append, ← List.cons_append, runCommands_append hrun, hcode]
    exact decoded_emitTo hu x hroom

/-- DBEGIN, the codes of a sequence of keys and a further path inside the tree. -/
theorem runCommands_decoded {seen : List Byte} {tail : List Bool} (hs : CodecOk s) (hp : s.phase = .ready)
    (hkeys : ∀ x ∈ seen, IsKey s x) (hroom : Config.within s.cfg.rbufCap seen.length)
    (htail : tail = [] ∨ EndsInside s tail) :
    ∃ t, runCommands (.dbegin :: dbits (encodeBits s seen ++ tail)) s = .next t ∧ Decoded s seen tail t := by
  obtain ⟨t, hrun, h⟩ := runCommands_codes hs hp seen hkeys hroom
  rw [dbits_append, ← List.cons_append, runCommands_append hrun]
  exact runCommands_inside hs h htail

section
variable {seen : List Byte} (hs : CodecOk s) (hp : s.phase = .ready) (hkeys : ∀ x ∈ seen, IsKey s x)
include hs hp hkeys

/-- Codes whose symbols fit the buffer decode to the symbols. -/
theorem decode_commits (hroom : Config.within s.cfg.rbufCap seen.length) :
    ∃ t, runMacro (.decode ((encodeBits s seen).map chr)) s = .next t ∧ t.phase = .ready ∧ SameCodec s t
      ∧ t.resp = .ok ∧ t.rkind = .syms ∧ t.result = seen := by
  obtain ⟨t, hrun, h⟩ := runCommands_codes hs hp seen hkeys hroom
  have hcur : t.cur = t.root := h.root ▸ (Option.some.inj h.cursor).symm
  exact ⟨_, (runMacro_decode_eq hrun).trans (exec_dend_at_root h.phase h.terr hcur), rfl, h.codec, rfl, rfl, h.bytes⟩

/-- Codes followed by a proper part of a code are TruncatedCode: the cursor is off the root. -/
theorem decode_truncates {tail : List Bool} (hroom : Config.within s.cfg.rbufCap seen.length)
    (htail : EndsInside s tail) (hne : tail ≠ []) :
    ∃ t, runMacro (.decode ((encodeBits s seen ++ tail).map chr)) s = .next t ∧ t.phase = .ready
      ∧ NoResult t .truncatedCode := by
  obtain ⟨t, hrun, h⟩ := runCommands_decoded hs hp hkeys hroom (.inr htail)
  have hcur : t.cur ≠ t.root := by
    obtain ⟨p, b, rfl⟩ := (List.eq_nil_or_concat' tail).resolve_left hne
    exact fun heq => concat_ne_root hs.tree (h.cursor.trans (congrArg some (heq.trans h.root)))
  exact ⟨_, (runMacro_decode_eq hrun).trans (exec_dend_off_root h.phase h.terr hcur), rfl, rfl, rfl, rfl⟩

/-- The code of one symbol more than fits the buffer is Capacity, whatever follows it. -/
theorem decode_overflows {x : Byte} (rest : List Byte) (hfull : s.cfg.rbufCap = some seen.length) (hx : IsKey s x) :
    ∃ t, runMacro (.decode ((encodeBits s (seen ++ [x])).map chr ++ rest)) s = .next t ∧ t.phase = .ready
      ∧ SameCodec s t ∧ NoResult t .capacity := by
  have hroom : Config.within s.cfg.rbufCap seen.length := fun c hc => (Option.some.inj (hfull.symm.trans hc)).le
  obtain ⟨t, hrun, h⟩ := runCommands_codes hs hp seen hkeys hroom
  obtain ⟨p, u, hu, hcode⟩ := runCommands_code hs h hx
  rw [emitTo_of_full hu.terr (by rw [hu.cfg, hu.wlen, hfull])] at hcode
  have hbits : runCommands (.dbegin :: dbits (encodeBits s (seen ++ [x]))) s
      = .next { u with cur := s.root, terr := some .capacity, resp := .ok } := by
    rw [encodeBits_concat, dbits_append, ← List.cons_append, runCommands_append hrun, hcode]
  exact ⟨_, (runMacro_decode_append rest hbits).trans (runCommands_dbits_of_latched rest hu.phase rfl), rfl, hu.codec,
    rfl, rfl, rfl⟩

end

/-- Settles O51: the symbols fit the buffer, or the code of the first that does not is reported. -/
theorem concatenatedCodesDecodeToTheirSymbols : Obligations.ConcatenatedCodesDecodeToTheirSymbols := by
  intro s symbols hinv hp hkeys
  have hs := hinv.codec (.inl hp)
  by_cases hroom : Config.within s.cfg.rbufCap symbols.length
  · obtain ⟨t, hrun, hphase, hcodec, hresult⟩ := decode_commits hs hp hkeys hroom
    exact ⟨t, hrun, hphase, hcodec, fun _ => hresult, fun hover => absurd hroom hover⟩
  · obtain ⟨c, hc, hlt⟩ : ∃ c, s.cfg.rbufCap = some c ∧ c < symbols.length := by
      simpa [Config.within] using hroom
    have hfull : s.cfg.rbufCap = some (symbols.take c).length := by rw [List.length_take_of_le hlt.le, hc]
    have hsplit : (encodeBits s symbols).map chr = (encodeBits s (symbols.take c ++ [symbols[c]])).map chr
        ++ (encodeBits s (symbols.drop (c + 1))).map chr := by
      rw [← List.map_append, encodeBits, encodeBits, encodeBits, ← List.flatMap_append, List.append_assoc,
        List.singleton_append, ← List.drop_eq_getElem_cons, List.take_append_drop]
    obtain ⟨t, hrun, hphase, hcodec, hno⟩ := decode_overflows hs hp (fun x hx => hkeys x (List.mem_of_mem_take hx))
      ((encodeBits s (symbols.drop (c + 1))).map chr) hfull (hkeys _ (List.getElem_mem hlt))
    exact ⟨t, hsplit ▸ hrun, hphase, hcodec, fun hroom' => absurd hroom' hroom, fun _ => hno⟩

/-- Settles O52: the parse stops inside the tree, at the root exactly when nothing is left over. -/
theorem everyBitStringDecodesOrIsTruncated : Obligations.EveryBitStringDecodesOrIsTruncated := by
  intro s bits hinv hp hk
  have hs := hinv.codec (.inl hp)
  obtain ⟨symbols, tail, rfl, hkeys, htail⟩ := exists_parse hs (by omega) bits
  refine ⟨symbols, tail, rfl, hkeys, .inr (endsInside_proper_prefix hs htail), fun hroom => ?_⟩
  by_cases hne : tail = []
  · obtain ⟨t, hrun, hphase, -, hresult⟩ := decode_commits hs hp hkeys hroom
    exact ⟨t, by rwa [hne, List.append_nil], hphase, fun _ => hresult, fun hne' => absurd hne hne'⟩
  · obtain ⟨t, hrun, hphase, hno⟩ := decode_truncates hs hp hkeys hroom htail hne
    exact ⟨t, hrun, hphase, fun heq => absurd heq hne, fun _ => hno⟩

end Sys2Proof.Decoder
end

section
/-! PROOFS for 45_lifecycle.md: what CLR releases (R170), and the phase machine (R171) with the responses each command
can give (60_exceptions.md R208). -/

namespace Sys2Proof.Lifecycle

open Sys2Proof Sys2Proof.Machine Sys2Proof.Safety Sys2Proof.Laws Sys2Proof.Invariants Sys2Proof.HostPorts
  Sys2Proof.Encoding Sys2Proof.FreqAnalyzer Sys2Proof.TreeBuilder Sys2Proof.Encoder Sys2Proof.Decoder

variable {s : State} {i : Instr}

/-! ## CLR (R170) -/

theorem clr_legal (s : State) : s.phase ∈ legalPhases .clr := by
  cases s.phase <;> decide

theorem exec_clr (s : State) : exec .clr s = .next (clrEffect s) :=
  whenLegal_of_mem _ (clr_legal s)

/-- Settles O12: no phase refuses CLR, and the registers it writes are those of a reset. -/
theorem clrReleasesTheCodec : Obligations.ClrReleasesTheCodec :=
  ⟨by decide, fun s => ⟨exec_clr s, exec_clr s⟩⟩

/-! ## The phase machine (R171), one command at a time -/

/-- A command answers what its row of R171 says, with a response its row of R208 lists. -/
def FollowsTable (s : State) (i : Instr) : Prop :=
  ∃ t, exec i s = .next t ∧ (t.phase, t.resp) = transition s i ∧ t.resp ∈ responses i

/-- A row of R171 followed: the phase and the response the table has there, the response one of R208's. -/
theorem followsTable_of_row {t : State} (p : Phase) (r : Resp) (hexec : exec i s = .next t)
    (ht : t.phase = p ∧ t.resp = r) (hrow : transition s i = (p, r)) (hr : r ∈ responses i) : FollowsTable s i := by
  obtain ⟨rfl, rfl⟩ := ht
  exact ⟨t, hexec, hrow.symm, hr⟩

theorem ok_mem_responses (i : Instr) : .ok ∈ responses i := by
  cases i <;> exact List.mem_cons_self

/-- A row of R171 that answers OK, which every command can answer. -/
theorem followsTable_of_ok {t : State} (p : Phase) (hexec : exec i s = .next t) (ht : t.phase = p ∧ t.resp = .ok)
    (hrow : transition s i = (p, .ok)) : FollowsTable s i :=
  followsTable_of_row p .ok hexec ht hrow (ok_mem_responses i)

/-- The table's last row but one: a command that is not listed for the phase. -/
theorem transition_of_not_legal (h : s.phase ∉ legalPhases i) : transition s i = (s.phase, .badSequence) := by
  cases i
  case clr => exact absurd (clr_legal s) h
  all_goals
    -- A phase the table lists for the command is legal; in any other the last alternative is taken.
    simp only [transition]
    split
    all_goals simp_all [legalPhases]

theorem badSequence_mem_responses (h : s.phase ∉ legalPhases i) : .badSequence ∈ responses i := by
  cases i
  case clr => exact absurd (clr_legal s) h
  all_goals simp [responses]

theorem followsTable_of_not_legal (h : s.phase ∉ legalPhases i) : FollowsTable s i :=
  followsTable_of_row s.phase .badSequence (exec_of_not_legal h) ⟨rfl, rfl⟩ (transition_of_not_legal h)
    (badSequence_mem_responses h)

theorem followsTable_clr (s : State) : FollowsTable s .clr :=
  followsTable_of_ok .empty (exec_clr s) ⟨rfl, rfl⟩ rfl

theorem followsTable_cbegin (hp : s.phase = .empty ∨ s.phase = .ready) : FollowsTable s .cbegin := by
  refine followsTable_of_ok .count (exec_cbegin_of_idle hp) ⟨rfl, rfl⟩ ?_
  rcases hp with hp | hp <;> simp only [transition, hp]

/-- CSYM stays in its phase and answers OK, whether it counts, latches or is ignored. -/
theorem csymEffect_phase_resp (x : Byte) (s : State) :
    (csymEffect x s).phase = s.phase ∧ (csymEffect x s).resp = .ok := by
  rcases csymEffect_cases x s with ⟨_, heq⟩ | ⟨_, _, heq⟩ | ⟨_, _, heq⟩ <;> rw [heq] <;> exact ⟨rfl, rfl⟩

theorem followsTable_csym (x : Byte) (hp : s.phase = .count) : FollowsTable s (.csym x) :=
  followsTable_of_ok .count (exec_csym_of_count x hp) (hp ▸ csymEffect_phase_resp x s) (by simp only [transition, hp])

theorem exec_cend_of_latched {e : Latched} (hp : s.phase = .count) (he : s.terr = some e) :
    exec .cend s = .next { s with terr := none, phase := .empty, resp := e.resp } := by
  rw [exec_cend_of_count hp, cendWith, he]
  rfl

theorem exec_cend_of_empty_input (hp : s.phase = .count) (he : s.terr = none) (hn : s.ntotal = 0) :
    exec .cend s = .next { s with phase := .empty, resp := .emptyInput } := by
  rw [exec_cend_of_count hp, cendWith, he]
  exact if_pos hn

/-- CEND reports its latch, which can only be Capacity, or the empty input, or builds the codec, whose entry conditions
the invariants give. -/
theorem followsTable_cend (h : Inv s) (hp : s.phase = .count) : FollowsTable s .cend := by
  rcases Option.eq_none_or_eq_some s.terr with he | ⟨e, he⟩
  · by_cases hn : s.ntotal = 0
    · exact followsTable_of_row .empty .emptyInput (exec_cend_of_empty_input hp he hn) ⟨rfl, rfl⟩
        (by simp [transition, hp, he, hn]) (by decide)
    · have hcend := cendWith_of_counting Config.tieDraw he h.sequencing.pqEmpty (h.counting hp)
        (Nat.one_le_iff_ne_zero.2 hn)
      exact followsTable_of_ok .ready ((exec_cend_of_count hp).trans hcend) ⟨rfl, rfl⟩
        (by simp [transition, hp, he, hn])
  · obtain rfl : e = .capacity := by simpa [hp, latchable] using h.sequencing.latchFits e he
    exact followsTable_of_row .empty .capacity (exec_cend_of_latched hp he) ⟨rfl, rfl⟩ (by simp [transition, hp, he])
      (by decide)

theorem followsTable_ebegin (hp : s.phase = .ready) : FollowsTable s .ebegin :=
  followsTable_of_ok .enc (exec_ebegin_of_ready hp) ⟨rfl, rfl⟩ (by simp only [transition, hp])

theorem followsTable_esym (x : Byte) (hp : s.phase = .enc) : FollowsTable s (.esym x) :=
  followsTable_of_ok .enc (exec_esym_of_enc x hp) ⟨(esymEffect_result x s).1.trans hp, rfl⟩
    (by simp only [transition, hp])

/-- What an encode can latch is what EEND can report. -/
theorem followsTable_eend (h : Inv s) (hp : s.phase = .enc) : FollowsTable s .eend := by
  rcases Option.eq_none_or_eq_some s.terr with he | ⟨e, he⟩
  · exact followsTable_of_ok .ready (exec_eend_of_clear hp he) ⟨rfl, rfl⟩ (by simp only [transition, hp, he])
  · have hfits : e = .unknownSymbol ∨ e = .capacity := by simpa [hp, latchable] using h.sequencing.latchFits e he
    exact followsTable_of_row .ready e.resp (exec_eend_of_latched hp he) ⟨rfl, rfl⟩ (by simp only [transition, hp, he])
      (by rcases hfits with rfl | rfl <;> decide)

theorem followsTable_dbegin (hp : s.phase = .ready) : FollowsTable s .dbegin :=
  followsTable_of_ok .dec (exec_dbegin_of_ready hp) ⟨rfl, rfl⟩ (by simp only [transition, hp])

/-- While the staged result is within the buffer, emitting a symbol answers OK, in the same phase. -/
theorem exists_emitTo (x : Byte) (cursor : Nat) (he : s.terr = none) (hw : Config.within s.cfg.rbufCap s.wlen) :
    ∃ t, emitTo s x cursor = .next t ∧ t.phase = s.phase ∧ t.resp = .ok := by
  by_cases hfull : s.cfg.rbufCap = some s.wlen
  · exact ⟨_, emitTo_of_full he hfull, rfl, rfl⟩
  · have hroom : Config.within s.cfg.rbufCap (s.wlen + 1) := fun c hc =>
      Nat.lt_of_le_of_ne (hw c hc) fun heq => hfull (heq ▸ hc)
    exact ⟨_, emitTo_of_room hfull hroom, rfl, rfl⟩

/-- A bit of a decode answers OK in DEC: the root, the cursor and its child are allocated nodes. -/
theorem exists_exec_bit (h : Inv s) (hp : s.phase = .dec) (he : s.terr = none) (b : Bool) :
    ∃ t, exec (.dbit (chr b)) s = .next t ∧ t.phase = s.phase ∧ t.resp = .ok := by
  have htree := (h.codec (.inr (.inr hp))).tree
  have hnode : ∀ {j}, j < s.nn → j < 511 := fun hj => hj.trans_le (nn_le_nodeMax htree)
  have hroot := hnode (root_lt_nn htree)
  have hw := h.sequencing.wlenWithin
  cases hk : (s.nodeAt s.root).kind with
  | leaf =>
    cases b with
    | true => exact ⟨_, exec_dbit_one_of_sole_leaf hp he hroot hk, rfl, rfl⟩
    | false => exact exec_dbit_zero_of_sole_leaf hp he hroot hk ▸ exists_emitTo _ _ he hw
  | internal =>
    have hcur := h.cursor hp
    have hchild := hnode (cursor_child htree hcur hk b).2
    rw [exec_dbit_of_internal hp he hroot hk (hnode hcur.1)]
    cases hc : (s.nodeAt ((s.nodeAt s.cur).child b)).kind with
    | leaf => exact followEdge_to_leaf he hchild hc ▸ exists_emitTo _ _ he hw
    | internal => exact ⟨_, followEdge_to_internal hchild hc, rfl, rfl⟩

theorem exists_exec_dbit (d : Byte) (h : Inv s) (hp : s.phase = .dec) :
    ∃ t, exec (.dbit d) s = .next t ∧ t.phase = s.phase ∧ t.resp = .ok := by
  by_cases he : s.terr = none
  · cases hd : bitOfChar d with
    | none => exact ⟨_, exec_dbit_of_no_bit hp he hd, rfl, rfl⟩
    | some b => exact bitOfChar_eq_some.1 hd ▸ exists_exec_bit h hp he b
  · exact ⟨_, exec_dbit_of_latched d hp he, rfl, rfl⟩

theorem followsTable_dbit (d : Byte) (h : Inv s) (hp : s.phase = .dec) : FollowsTable s (.dbit d) := by
  obtain ⟨t, hexec, ht⟩ := exists_exec_dbit d h hp
  exact followsTable_of_ok .dec hexec (hp ▸ ht) (by simp only [transition, hp])

/-- What a decode can latch, or TruncatedCode, is what DEND can report. -/
theorem followsTable_dend (h : Inv s) (hp : s.phase = .dec) : FollowsTable s .dend := by
  rcases Option.eq_none_or_eq_some s.terr with he | ⟨e, he⟩
  · by_cases hcur : s.cur = s.root
    · exact followsTable_of_ok .ready (exec_dend_at_root hp he hcur) ⟨rfl, rfl⟩
        (by simp only [transition, hp, he, if_pos hcur])
    · exact followsTable_of_row .ready .truncatedCode (exec_dend_off_root hp he hcur) ⟨rfl, rfl⟩
        (by simp only [transition, hp, he, if_neg hcur]) (by decide)
  · have hfits : e = .invalidBit ∨ e = .capacity := by simpa [hp, latchable] using h.sequencing.latchFits e he
    exact followsTable_of_row .ready e.resp (exec_dend_of_latched hp he) ⟨rfl, rfl⟩ (by simp only [transition, hp, he])
      (by rcases hfits with rfl | rfl <;> decide)

/-! ## Every command and every step -/

/-- From the invariants every command answers, as its row says. -/
theorem followsTable_of_inv (i : Instr) (h : Inv s) : FollowsTable s i := by
  by_cases hlegal : s.phase ∈ legalPhases i
  · cases i with
    | clr => exact followsTable_clr s
    | cbegin => exact followsTable_cbegin (List.mem_pair.1 hlegal)
    | csym x => exact followsTable_csym x (List.mem_singleton.1 hlegal)
    | cend => exact followsTable_cend h (List.mem_singleton.1 hlegal)
    | ebegin => exact followsTable_ebegin (List.mem_singleton.1 hlegal)
    | esym x => exact followsTable_esym x (List.mem_singleton.1 hlegal)
    | eend => exact followsTable_eend h (List.mem_singleton.1 hlegal)
    | dbegin => exact followsTable_dbegin (List.mem_singleton.1 hlegal)
    | dbit d => exact followsTable_dbit d h (List.mem_singleton.1 hlegal)
    | dend => exact followsTable_dend h (List.mem_singleton.1 hlegal)
  · exact followsTable_of_not_legal hlegal

/-- The table does not look at the command port. -/
theorem transition_port (s : State) (ps : List PortEvent) (i : Instr) :
    transition { s with port := ps } i = transition s i := by
  cases i <;> rfl

theorem step_of_idle (hport : s.port = []) : step s = .next s := by
  simp only [step, State.takeInput, hport]

theorem step_of_reset {rest : List PortEvent} (hport : s.port = .reset :: rest) :
    step s = .next (resetBlock { s with port := rest }) := by
  simp only [step, State.takeInput, hport]

/-- Settles O34: the step is idle, a reset, a refused word, or a command, which follows its row. -/
theorem phaseMachineFollowsItsTable : Obligations.PhaseMachineFollowsItsTable := by
  intro s h
  rcases hport : s.port with _ | ⟨w | _, rest⟩
  · exact ⟨s, step_of_idle hport, rfl⟩
  · cases hd : decode w with
    | error e => exact ⟨_, step_of_error hport hd, by simp only [hd, and_self]⟩
    | ok i =>
      obtain ⟨t, hexec, hrow, hresp⟩ := followsTable_of_inv i (inv_port_resp h rest s.resp)
      refine ⟨t, (step_of_ok hport hd).trans hexec, ?_⟩
      simp only [hd]
      exact ⟨hrow.trans (transition_port s rest i), hresp⟩
  · exact ⟨_, step_of_reset hport, rfl, rfl⟩

end Sys2Proof.Lifecycle
end

section
/-! PROOFS for 46_macro_ops.md: what a macro-operation issued out of its phase does (R178), the outcomes of CONSTRUCT
(R175), and HUF's properties of the three macro-operations together (R180, R181, R183, R186). -/

namespace Sys2Proof.MacroOps

open Sys2Proof Sys2Proof.Machine Sys2Proof.Safety Sys2Proof.Laws Sys2Proof.Invariants Sys2Proof.Encoding
  Sys2Proof.FreqAnalyzer Sys2Proof.TreeBuilder Sys2Proof.Encoder Sys2Proof.Decoder Sys2Proof.Lifecycle

variable {s t : State}

/-! ## Runs of commands -/

/-- What every command of a run keeps, the run keeps. -/
theorem runCommands_keeps {P : State → Prop} {commands : List Instr}
    (hexec : ∀ i ∈ commands, ∀ u v, P u → exec i u = .next v → P v) (h : P s)
    (ht : runCommands commands s = .next t) : P t := by
  induction commands generalizing s with
  | nil => exact Host.Outcome.next.inj ht ▸ h
  | cons i rest ih =>
    obtain ⟨u, hu, ht⟩ := runCommands_cons_next ht
    exact ih (fun j hj => hexec j (List.mem_cons_of_mem i hj)) (hexec i List.mem_cons_self s u h hu) ht

/-- A run completes where every command completes and keeps what it needs. -/
theorem exists_runCommands {P : State → Prop} {commands : List Instr}
    (hexec : ∀ i ∈ commands, ∀ u, P u → ∃ v, exec i u = .next v ∧ P v) (h : P s) :
    ∃ t, runCommands commands s = .next t ∧ P t := by
  induction commands generalizing s with
  | nil => exact ⟨s, rfl, h⟩
  | cons i rest ih =>
    obtain ⟨u, hu, h'⟩ := hexec i List.mem_cons_self s h
    simp only [runCommands, hu]
    exact ih (fun j hj => hexec j (List.mem_cons_of_mem i hj)) h'

/-- No run changes the parameters or the number of resets. -/
theorem runCommands_keeps_model {commands : List Instr} (ht : runCommands commands s = .next t) :
    t.cfg = s.cfg ∧ t.resets = s.resets := by
  refine runCommands_keeps (P := fun u => u.cfg = s.cfg ∧ u.resets = s.resets) (fun i _ u v hu hv => ?_) ⟨rfl, rfl⟩ ht
  obtain ⟨hcfg, -, hresets⟩ := exec_keeps_model hv
  exact ⟨hcfg.trans hu.1, hresets.trans hu.2⟩

/-! ## Out of phase (R178) -/

theorem issueMacro_out_of_phase {m : Macro} {first : Instr} {rest : List Instr} (hm : expand m = first :: rest)
    (h : s.phase ∉ legalPhases first) : issueMacro m s = .next { s with resp := .badSequence } :=
  issueMacro_of_refused hm (exec_of_not_legal h) rfl

/-- Of a bare stream whose first command is refused the rest runs. -/
theorem runMacro_of_first_refused {m : Macro} {first : Instr} {rest : List Instr} (hm : expand m = first :: rest)
    (h : s.phase ∉ legalPhases first) : runMacro m s = runCommands rest { s with resp := .badSequence } := by
  simp only [runMacro, hm, runCommands, exec_of_not_legal h]
  rfl

/-- Commands that are all refused leave BadSequence and nothing else. -/
theorem runCommands_all_refused {rest : List Instr} (h : ∀ i ∈ rest, s.phase ∉ legalPhases i) :
    runCommands rest { s with resp := .badSequence } = .next { s with resp := .badSequence } := by
  induction rest with
  | nil => rfl
  | cons i rest ih =>
    have hi : exec i { s with resp := .badSequence } = .next { s with resp := .badSequence } :=
      exec_of_not_legal (h i List.mem_cons_self)
    simp only [runCommands, hi]
    exact ih fun j hj => h j (List.mem_cons_of_mem i hj)

/-- A bare stream is refused whole in a phase that permits neither its BEGIN nor its data commands nor its END. -/
theorem runMacro_all_refused {m : Macro} {first last : Instr} {data : Byte → Instr} {operand : List Byte}
    (hm : expand m = first :: (operand.map data ++ [last])) (hfirst : s.phase ∉ legalPhases first)
    (hdata : ∀ x, s.phase ∉ legalPhases (data x)) (hlast : s.phase ∉ legalPhases last) :
    runMacro m s = .next { s with resp := .badSequence } := by
  rw [runMacro_of_first_refused hm hfirst]
  refine runCommands_all_refused fun i hi => ?_
  rcases List.mem_append.1 hi with hi | hi
  · obtain ⟨x, -, rfl⟩ := List.mem_map.1 hi
    exact hdata x
  · exact List.mem_singleton.1 hi ▸ hlast

theorem cbegin_not_legal (h : s.phase = .count ∨ s.phase = .enc ∨ s.phase = .dec) : s.phase ∉ legalPhases .cbegin := by
  rcases h with h | h | h <;> rw [h] <;> decide

/-- Settles O56: the BEGIN decides what an issued macro-operation does; of a bare stream each command is refused by its
own phase check, and only the data commands and the END of the open operation pass it. -/
theorem macroOutOfPhaseIsRefused : Obligations.MacroOutOfPhaseIsRefused := by
  intro s operand
  have not_ready : ∀ {i}, legalPhases i = [.ready] → s.phase ≠ .ready → s.phase ∉ legalPhases i :=
    fun hi hp => hi ▸ mt List.mem_singleton.1 hp
  refine ⟨fun hp => issueMacro_out_of_phase rfl (mt List.mem_pair.1 hp),
    fun hp => issueMacro_out_of_phase rfl (not_ready rfl hp),
    fun hp => issueMacro_out_of_phase rfl (not_ready rfl hp),
    fun hp => issueMacro_of_accepted rfl (exec_cbegin_of_idle hp) nofun,
    fun hp => issueMacro_of_accepted rfl (exec_ebegin_of_ready hp) nofun,
    fun hp => issueMacro_of_accepted rfl (exec_dbegin_of_ready hp) nofun,
    fun hp => ?construct, fun hp => ?encode, fun hp => ?decode,
    fun hp => runMacro_of_first_refused rfl (cbegin_not_legal (.inl hp)),
    fun hp => runMacro_of_first_refused rfl (not_ready rfl (hp ▸ nofun)),
    fun hp => runMacro_of_first_refused rfl (not_ready rfl (hp ▸ nofun))⟩
  case construct =>
    have hcount : s.phase ∉ [.count] := by rcases hp with hp | hp <;> rw [hp] <;> decide
    exact runMacro_all_refused rfl (cbegin_not_legal (.inr hp)) (fun _ => hcount) hcount
  case encode =>
    have hout : s.phase ∉ [.ready] ∧ s.phase ∉ [.enc] := by rcases hp with hp | hp | hp <;> rw [hp] <;> decide
    exact runMacro_all_refused rfl hout.1 (fun _ => hout.2) hout.2
  case decode =>
    have hout : s.phase ∉ [.ready] ∧ s.phase ∉ [.dec] := by rcases hp with hp | hp | hp <;> rw [hp] <;> decide
    exact runMacro_all_refused rfl hout.1 (fun _ => hout.2) hout.2

/-! ## The outcomes of CONSTRUCT (R175) -/

/-- No node is queued and there is no result, as while a construction counts (10_state.md R27, R33). -/
structure Unbuilt (s : State) : Prop where
  pq : s.pq = []
  rkind : s.rkind = .none
  rlen : s.rlen = 0

theorem unbuilt_csymEffect (x : Byte) (h : Unbuilt s) : Unbuilt (csymEffect x s) := by
  rcases csymEffect_cases x s with ⟨_, heq⟩ | ⟨_, _, heq⟩ | ⟨_, _, heq⟩ <;> rw [heq] <;> exact ⟨h.pq, h.rkind, h.rlen⟩

theorem unbuilt_csyms {beats : List Byte} (h : Unbuilt s) (ht : runCommands (beats.map .csym) s = .next t) :
    Unbuilt t := by
  refine runCommands_keeps (fun i hi u v hu hv => ?_) h ht
  obtain ⟨x, -, rfl⟩ := List.mem_map.1 hi
  exact whenLegal_next_keeps ⟨hu.pq, hu.rkind, hu.rlen⟩ hv fun _ => unbuilt_csymEffect x hu

/-- CBEGIN and one CSYM an element, within the limit: all counted, nothing built. -/
theorem exists_tallied_unbuilt (hp : s.phase = .empty ∨ s.phase = .ready) (hpq : s.pq = []) (operand : List Byte)
    (hmax : Config.within s.cfg.nMax operand.length) :
    ∃ t, runCommands (.cbegin :: operand.map .csym) s = .next t ∧ Tallied s.cfg operand t ∧ Unbuilt t := by
  obtain ⟨t, hrun, htally⟩ := runCommands_tallied hp operand hmax
  obtain ⟨u, hu, hcsyms⟩ := runCommands_cons_next hrun
  obtain rfl : cbeginEffect s = u := Host.Outcome.next.inj ((exec_cbegin_of_idle hp).symm.trans hu)
  exact ⟨t, hrun, htally, unbuilt_csyms (s := cbeginEffect s) ⟨hpq, rfl, rfl⟩ hcsyms⟩

theorem runMacro_construct_append {seen : List Byte} (rest : List Byte)
    (hrun : runCommands (.cbegin :: seen.map .csym) s = .next t) :
    runMacro (.construct (seen ++ rest)) s = runCommands (rest.map .csym ++ [.cend]) t := by
  rw [runMacro, expand, List.map_append, List.append_assoc, ← List.cons_append, runCommands_append hrun]

theorem runMacro_construct_eq {operand : List Byte} (hrun : runCommands (.cbegin :: operand.map .csym) s = .next t) :
    runMacro (.construct operand) s = exec .cend t := by
  rw [← operand.append_nil, runMacro_construct_append [] hrun]
  exact runCommands_singleton _ t

/-- A latched error outlasts the further CSYMs, and CEND reports it (R211). -/
theorem runCommands_csyms_of_latched {e : Latched} (beats : List Byte) (hp : s.phase = .count) (he : s.terr = some e) :
    runCommands (beats.map .csym ++ [.cend]) s = .next { s with terr := none, phase := .empty, resp := e.resp } := by
  induction beats generalizing s with
  | nil => exact (runCommands_singleton _ s).trans (exec_cend_of_latched hp he)
  | cons x beats ih =>
    have hne : s.terr ≠ none := he ▸ nofun
    simp only [List.map_cons, List.cons_append, runCommands, exec_csym_of_count x hp, csymEffect_of_latched x hne]
    exact ih hp he

/-- The outcome of a CONSTRUCT that fails. -/
structure Rejected (r : Resp) (t : State) : Prop where
  noResult : NoResult t r
  phase : t.phase = .empty

/-- The outcome of a CONSTRUCT of `input` that succeeds. -/
structure Constructed (input : List Byte) (t : State) : Prop where
  noResult : NoResult t .ok
  phase : t.phase = .ready
  counts : ∀ x : Byte, t.freqAt x.toNat = input.count x
  codec : CodecOk t

section
variable {operand : List Byte} (hp : s.phase = .empty ∨ s.phase = .ready) (hpq : s.pq = [])
include hp hpq

theorem construct_empty_input : ∃ t, runMacro (.construct []) s = .next t ∧ Rejected .emptyInput t := by
  obtain ⟨t, hrun, htally, hun⟩ := exists_tallied_unbuilt hp hpq [] (within_zero _)
  exact ⟨_, (runMacro_construct_eq hrun).trans (exec_cend_of_empty_input htally.phase htally.terr htally.ntotal),
    ⟨rfl, hun.rkind, hun.rlen⟩, rfl⟩

/-- The element past N_MAX latches Capacity, whatever follows it. -/
theorem construct_overflows (hover : ¬ Config.within s.cfg.nMax operand.length) :
    ∃ t, runMacro (.construct operand) s = .next t ∧ Rejected .capacity t := by
  obtain ⟨m, hm, hlt⟩ : ∃ m, s.cfg.nMax = some m ∧ m < operand.length := by
    by_contra hall
    exact hover fun m hm => Nat.not_lt.1 fun hlt => hall ⟨m, hm, hlt⟩
  have hlen : (operand.take m).length = m := List.length_take_of_le hlt.le
  obtain ⟨t, hrun, htally, hun⟩ := exists_tallied_unbuilt hp hpq (operand.take m) fun c hc =>
    (hlen.trans (Option.some.inj (hm.symm.trans hc))).le
  have hfull : t.cfg.nMax = some t.ntotal := by rw [htally.cfg, htally.ntotal, hlen, hm]
  refine ⟨{ t with terr := none, phase := .empty, resp := .capacity }, ?_, ⟨rfl, hun.rkind, hun.rlen⟩, rfl⟩
  rw [← List.take_append_drop m operand, runMacro_construct_append _ hrun, List.drop_eq_getElem_cons hlt]
  simp only [List.map_cons, List.cons_append, runCommands, exec_csym_of_count _ htally.phase,
    csymEffect_of_full _ htally.terr hfull]
  exact runCommands_csyms_of_latched (e := .capacity) _ htally.phase rfl

theorem construct_succeeds (hne : operand ≠ []) (hmax : Config.within s.cfg.nMax operand.length) :
    ∃ t, runMacro (.construct operand) s = .next t ∧ Constructed operand t := by
  obtain ⟨t, hrun, htally, hun⟩ := exists_tallied_unbuilt hp hpq operand hmax
  have hpos : 1 ≤ t.ntotal := htally.ntotal ▸ List.length_pos_iff.2 hne
  have hcend := cendWith_of_counting Config.tieDraw htally.terr hun.pq htally.counting hpos
  refine ⟨buildCodec Config.tieDraw t,
    (runMacro_construct_eq hrun).trans ((exec_cend_of_count htally.phase).trans hcend), ⟨rfl, ?_, ?_⟩, rfl,
    fun x => (buildCodec_freqAt Config.tieDraw t x.toNat).trans (htally.counts x),
    codecOk_buildCodec Config.tieDraw htally.counting hun.pq hpos
      (keys_ne_nil htally.counting.map (Nat.one_le_iff_ne_zero.1 hpos))⟩
  · rw [buildCodec_rkind, hun.rkind]
  · rw [buildCodec_rlen, hun.rlen]

end

/-- Settles O49: the empty input, one element past N_MAX, or a construction within it. -/
theorem constructOutcome : Obligations.ConstructOutcome := by
  intro s operand hp hpq
  by_cases hmax : Config.within s.cfg.nMax operand.length
  · by_cases hne : operand = []
    · obtain ⟨t, hrun, ⟨hresp, hrkind, hrlen⟩, hphase⟩ := construct_empty_input hp hpq
      exact ⟨t, hne ▸ hrun, hrkind, hrlen, fun _ => ⟨hresp, hphase⟩, fun hover => absurd hmax hover,
        fun hne' => absurd hne hne'⟩
    · obtain ⟨t, hrun, ⟨hresp, hrkind, hrlen⟩, hphase, hcounts, hcodec⟩ := construct_succeeds hp hpq hne hmax
      exact ⟨t, hrun, hrkind, hrlen, fun heq => absurd heq hne, fun hover => absurd hmax hover,
        fun _ _ => ⟨hresp, hphase, hcounts, hcodec⟩⟩
  · obtain ⟨t, hrun, ⟨hresp, hrkind, hrlen⟩, hphase⟩ := construct_overflows hp hpq hmax
    have hne : operand ≠ [] := by
      rintro rfl
      exact hmax (within_zero _)
    exact ⟨t, hrun, hrkind, hrlen, fun heq => absurd heq hne, fun _ => ⟨hresp, hphase⟩,
      fun _ hmax' => absurd hmax' hmax⟩

/-! ## Two constructions of one input (R181) -/

/-- FREQ by index (10_state.md R31). -/
theorem Constructed.freqAt_eq {input : List Byte} (h : Constructed input s) {x : Nat} (hx : x < 256) :
    s.freqAt x = input.count (BitVec.ofNatLT x hx) :=
  h.counts (BitVec.ofNatLT x hx)

/-- Settles O59: equal counts give equal keys, and K and the root's weight are functions of the map. -/
theorem constructionsOfOneInputAgree : Obligations.ConstructionsOfOneInputAgree := by
  intro s₁ s₂ input hp₁ hp₂ hpq₁ hpq₂ hne hmax₁ hmax₂
  obtain ⟨c₁, hrun₁, h₁⟩ := construct_succeeds hp₁ hpq₁ hne hmax₁
  obtain ⟨c₂, hrun₂, h₂⟩ := construct_succeeds hp₂ hpq₂ hne hmax₂
  have hfreq : ∀ x < 256, c₁.freqAt x = c₂.freqAt x := fun x hx => (h₁.freqAt_eq hx).trans (h₂.freqAt_eq hx).symm
  have hkeys : c₁.keys = c₂.keys := List.filter_congr fun x hx => by rw [hfreq x (List.mem_range.1 hx)]
  have hk : c₁.ksyms = c₂.ksyms := by rw [h₁.codec.tree.ksymsKeys, h₂.codec.tree.ksymsKeys, hkeys]
  have htotal : freqTotal c₁ = freqTotal c₂ :=
    congrArg List.sum (List.map_congr_left fun x hx => hfreq x (List.mem_range.1 hx))
  refine ⟨c₁, c₂, hrun₁, hrun₂, hfreq, hk, ?_, ?_⟩
  · rw [h₁.codec.tree.nodeCount, h₂.codec.tree.nodeCount, hk]
  · rw [root_weight h₁.codec.tree, root_weight h₂.codec.tree, htotal]

/-! ## ENCODE and DECODE leave the codec alone (R186) -/

/-- The state of an open decode from `s`, whatever its characters. -/
structure Decoding (s t : State) : Prop where
  inv : Inv t
  phase : t.phase = .dec
  codec : SameCodec s t

theorem sameCodec_trans {u : State} (h : SameCodec s t) (h' : SameCodec t u) : SameCodec s u := by
  obtain ⟨hfreq, hntotal, hnode, hnn, hksyms, hroot, hcode⟩ := h
  obtain ⟨hfreq', hntotal', hnode', hnn', hksyms', hroot', hcode'⟩ := h'
  exact ⟨hfreq'.trans hfreq, hntotal'.trans hntotal, hnode'.trans hnode, hnn'.trans hnn, hksyms'.trans hksyms,
    hroot'.trans hroot, hcode'.trans hcode⟩

/-- Each DBIT of an open decode completes and keeps it open. -/
theorem decoding_dbit (d : Byte) (h : Decoding s t) : ∃ u, exec (.dbit d) t = .next u ∧ Decoding s u := by
  obtain ⟨u, hexec, hphase, -⟩ := exists_exec_dbit d h.inv h.phase
  have hcodec := exec_keeps_codec (i := .dbit d) (.inr (.inr h.phase)) nofun (fun _ => nofun) hexec
  exact ⟨u, hexec, exec_keeps_inv _ h.inv hexec, hphase.trans h.phase, sameCodec_trans h.codec hcodec⟩

theorem decode_completes (operand : List Byte) (h : Inv s) (hp : s.phase = .ready) :
    ∃ t, runMacro (.decode operand) s = .next t ∧ t.phase = .ready ∧ SameCodec s t := by
  have hbegin := exec_dbegin_of_ready hp
  obtain ⟨u, hrun, hu⟩ := exists_runCommands (P := Decoding s) (commands := operand.map .dbit) (fun i hi v hv => by
    obtain ⟨d, -, rfl⟩ := List.mem_map.1 hi
    exact decoding_dbit d hv) ⟨exec_keeps_inv _ h hbegin, rfl, sameCodec_refl s⟩
  refine ⟨_, ?_, closeResult_phase _ _, sameCodec_trans hu.codec (sameCodec_dend u)⟩
  simp only [runMacro, expand, runCommands, hbegin]
  rw [runCommands_append hrun, runCommands_singleton, exec_dend_of_dec hu.phase]

/-- Settles O57: the outcome of ENCODE says so, and a DECODE completes command by command. -/
theorem encodeAndDecodeArePure : Obligations.EncodeAndDecodeArePure := by
  intro s operand h hp
  obtain ⟨t, hrun, hphase, hcodec, -⟩ := encodeOutcome s operand hp
  exact ⟨⟨t, hrun, hphase, hcodec⟩, decode_completes operand h hp⟩

/-! ## Encoding symbols of the construction input (R180, R183) -/

/-- The keys of the codec are the symbols of its input. -/
theorem Constructed.isKey_iff_mem {input : List Byte} (h : Constructed input s) (x : Byte) : IsKey s x ↔ x ∈ input := by
  rw [isKey_iff h.codec, h.counts, ← Nat.pos_iff_ne_zero, List.count_pos_iff]

theorem length_encodeBits (s : State) (operand : List Byte) :
    (encodeBits s operand).length = (operand.map fun x => (s.codeAt x.toNat).len).sum := by
  simp [encodeBits, List.length_flatMap, length_codeOf]

/-- No code is empty, so an encoding is at least as long as its operand. -/
theorem length_le_encodeBits (h : CodecOk s) {operand : List Byte} (hkeys : ∀ x ∈ operand, IsKey s x) :
    operand.length ≤ (encodeBits s operand).length := by
  rw [length_encodeBits, ← List.length_map fun x : Byte => (s.codeAt x.toNat).len]
  refine List.length_le_sum_of_one_le _ fun n hn => ?_
  obtain ⟨x, hx, rfl⟩ := List.mem_map.1 hn
  obtain ⟨p, b, hcode, -⟩ := codeOf_eq_concat h (hkeys x hx)
  rw [← length_codeOf, hcode, List.length_append]
  exact Nat.le_add_left _ _

/-- Settles O54: the keys are the input's symbols, ENCODE leaves the codec, and its result is the codes' characters,
which decode to the operand. -/
theorem roundTrip : Obligations.RoundTrip := by
  intro s input operand hinv hp hne hmax hmem
  obtain ⟨c, hrun, hc⟩ := construct_succeeds hp hinv.sequencing.pqEmpty hne hmax
  refine ⟨c, hrun, hc.noResult.1, fun hroom => ?_⟩
  have hkeys : ∀ x ∈ operand, IsKey c x := fun x hx => (hc.isKey_iff_mem x).2 (hmem x hx)
  rw [← (runCommands_keeps_model hrun).1] at hroom
  obtain ⟨e, henc, hready, hsame, hresp, hkind, -, hresult⟩ := encode_commits hc.phase hkeys hroom
  obtain ⟨hcfg, hresets⟩ := runCommands_keeps_model henc
  have hcode : ∀ i, e.codeAt i = c.codeAt i := by
    obtain ⟨-, -, -, -, -, -, hcode⟩ := hsame
    exact codeAt_congr hcode hresets
  have hbits : encodeBits e operand = encodeBits c operand := 
    congrArg operand.flatMap (funext fun x => congrArg CodeEntry.path (hcode x.toNat))
  have hfits : Config.within e.cfg.rbufCap operand.length := fun n hn =>
    (length_le_encodeBits hc.codec hkeys).trans (hroom n (hcfg ▸ hn))
  obtain ⟨t, hdec, -, -, hdone⟩ := decode_commits (codecOk_congr hsame hcfg hresets hc.codec) hready
    (fun x hx => by rw [IsKey, hcode]; exact hkeys x hx) hfits
  refine ⟨e, henc, hresp, hkind, t, ?_, hdone⟩
  rw [hresult, ← hbits, hdec]

/-- A sum over a list of bytes, collected by value. -/
theorem sum_map_eq_sum_count (input : List Byte) (f : Nat → Nat) :
    (input.map fun x => f x.toNat).sum = ∑ n ∈ Finset.range 256, (input.map BitVec.toNat).count n * f n := by
  have hsub : (input.map BitVec.toNat).toFinset ⊆ Finset.range 256 := fun n hn => by
    obtain ⟨x, -, rfl⟩ := List.mem_map.1 (List.mem_toFinset.1 hn)
    exact Finset.mem_range.2 x.isLt
  calc (input.map fun x => f x.toNat).sum
      = ((input.map BitVec.toNat).map f).sum := by rw [List.map_map]; rfl
    _ = ∑ n ∈ (input.map BitVec.toNat).toFinset, (input.map BitVec.toNat).count n * f n :=
        Finset.sum_list_map_count _ f
    _ = ∑ n ∈ Finset.range 256, (input.map BitVec.toNat).count n * f n :=
        Finset.sum_subset hsub fun n _ hn => by
          rw [List.count_eq_zero.2 (mt List.mem_toFinset.2 hn), Nat.zero_mul]

theorem Constructed.length_encodeBits_input {input : List Byte} (h : Constructed input s) :
    (encodeBits s input).length = ((List.range 256).map fun x => s.freqAt x * (s.codeAt x).len).sum := by
  rw [length_encodeBits, sum_map_eq_sum_count input fun n => (s.codeAt n).len]
  have hcount : ∀ n < 256, (input.map BitVec.toNat).count n = s.freqAt n := fun n hn => by
    rw [h.freqAt_eq hn]
    exact List.count_map_of_injective input BitVec.toNat (fun _ _ => BitVec.eq_of_toNat_eq) (BitVec.ofNatLT n hn)
  calc ∑ n ∈ Finset.range 256, (input.map BitVec.toNat).count n * (s.codeAt n).len
      = ∑ n ∈ Finset.range 256, s.freqAt n * (s.codeAt n).len :=
        Finset.sum_congr rfl fun n hn => by rw [hcount n (Finset.mem_range.1 hn)]
    _ = ((List.range 256).map fun n => s.freqAt n * (s.codeAt n).len).sum := rfl

/-- With one symbol every code is "0", one bit. -/
theorem length_encodeBits_sole (h : CodecOk s) (hk : s.ksyms = 1) {operand : List Byte}
    (hkeys : ∀ x ∈ operand, IsKey s x) : (encodeBits s operand).length = operand.length := by
  rw [length_encodeBits, List.sum_eq_card_nsmul _ 1, List.length_map, smul_eq_mul, Nat.mul_one]
  intro n hn
  obtain ⟨x, hx, rfl⟩ := List.mem_map.1 hn
  rw [← length_codeOf, key_code_sole h (hkeys x hx) hk]
  rfl

/-- Settles O55: the encoding's length is a sum over the input, collected by symbol. -/
theorem frequencyFaithfulness : Obligations.FrequencyFaithfulness := by
  intro s input hinv hp hne hmax
  obtain ⟨c, hrun, hc⟩ := construct_succeeds hp hinv.sequencing.pqEmpty hne hmax
  refine ⟨c, hrun, hc.noResult.1, fun hroom => ?_⟩
  have hkeys : ∀ x ∈ input, IsKey c x := fun x hx => (hc.isKey_iff_mem x).2 hx
  rw [← (runCommands_keeps_model hrun).1] at hroom
  obtain ⟨e, henc, -, -, hresp, -, hrlen, -⟩ := encode_commits hc.phase hkeys hroom
  exact ⟨e, henc, hresp, hrlen.trans hc.length_encodeBits_input,
    fun hk => hrlen.trans (length_encodeBits_sole hc.codec hk hkeys)⟩

end Sys2Proof.MacroOps
end

section
/-! PROOFS for 30_encoding.md, sections 3 and 5: decoding and encoding are inverse, and the ten patterns by example. -/

namespace Sys2Proof.Encoding

open Sys2Proof

/-- Settles O2: the three fields make up the word, and fields that pass the checks are those of their command. -/
theorem decodeInvertsEncode : Obligations.DecodeInvertsEncode :=
  fun _ _ => decode_eq_ok_iff

/-- Settles O3: each of the ten words is the encoding of its command. -/
theorem sampleWordsDecode : Obligations.SampleWordsDecode := by
  refine ⟨?_, ?_, ?_, ?_, ?_, ?_, ?_, ?_, ?_, ?_⟩ <;> exact decode_eq_ok_iff.2 (by decide)

end Sys2Proof.Encoding
end

section
/-! PROOFS for 60_exceptions.md: which commands answer BadSequence (R206), what a CEND that fails reports (R201, R207),
and how an error is latched and reported by the END (R203, R210, R211). -/

namespace Sys2Proof.Exceptions

open Sys2Proof Sys2Proof.Machine Sys2Proof.Safety Sys2Proof.Laws Sys2Proof.Invariants Sys2Proof.Encoding
  Sys2Proof.TreeBuilder Sys2Proof.Encoder Sys2Proof.Decoder Sys2Proof.Lifecycle Sys2Proof.MacroOps

variable {s t : State}

/-! ## BadSequence (R206) -/

/-- The table of 10_state.md R24 read by phase: the commands a phase lists. -/
def ListedIn (p : Phase) (i : Instr) : Prop :=
  match p with
  | .empty => i = .clr ∨ i = .cbegin
  | .count => i = .clr ∨ (∃ d, i = .csym d) ∨ i = .cend
  | .ready => i = .clr ∨ i = .cbegin ∨ i = .ebegin ∨ i = .dbegin
  | .enc => i = .clr ∨ (∃ d, i = .esym d) ∨ i = .eend
  | .dec => i = .clr ∨ (∃ d, i = .dbit d) ∨ i = .dend

/-- Read by command, the same table is the phases a command is legal in; the fifty places are compared one by one. -/
theorem listedIn_iff {p : Phase} {i : Instr} : ListedIn p i ↔ p ∈ legalPhases i := by
  cases p <;> cases i <;> simp [ListedIn, legalPhases]

theorem latchedResp_ne_badSequence (e : Latched) : e.resp ≠ .badSequence := by
  cases e <;> decide

theorem closeResult_ne_badSequence (s : State) (kind : RKind) : (s.closeResult kind).resp ≠ .badSequence := by
  rcases Option.eq_none_or_eq_some s.terr with he | ⟨e, he⟩
  · rw [closeResult_of_none kind he]
    nofun
  · rw [closeResult_of_some kind he]
    exact latchedResp_ne_badSequence e

theorem cendWith_ne_badSequence {tie : Config.TieBreak} (h : cendWith tie s = .next t) : t.resp ≠ .badSequence := by
  rcases cendWith_next h with ⟨e, _, rfl⟩ | ⟨_, _, rfl⟩ | ⟨_, _, _, _, _, rfl⟩
  · exact latchedResp_ne_badSequence e
  · nofun
  · nofun

/-- DBIT answers OK on every path through its rule (44_decode.md R161). -/
theorem dbitEffect_resp {d : Byte} (h : dbitEffect d s = .next t) : t.resp = .ok := by
  rcases dbitEffect_cases h with ⟨_, rfl⟩ | ⟨_, rfl⟩
    | ⟨_, _, _, ⟨_, _, ⟨_, rfl⟩ | ⟨_, _, rfl⟩⟩ | ⟨_, _, rfl⟩ | ⟨_, _, ⟨_, rfl⟩ | ⟨_, _, rfl⟩⟩⟩ <;> rfl

/-- In its phases a command answers its effect. -/
theorem effect_of_legal {i : Instr} {o r : Outcome} (hp : s.phase ∈ legalPhases i) (h : whenLegal i s o = r) : o = r :=
  (whenLegal_of_mem o hp).symm.trans h

/-- The same for a command whose effect always answers a next state. -/
theorem ne_badSequence_of_effect {i : Instr} {u : State} (hp : s.phase ∈ legalPhases i)
    (ht : whenLegal i s (.next u) = .next t) (hu : u.resp ≠ .badSequence) : t.resp ≠ .badSequence :=
  Host.Outcome.next.inj (effect_of_legal hp ht) ▸ hu

/-- A command raises BadSequence by its phase check only. -/
theorem exec_ne_badSequence {i : Instr} (hp : s.phase ∈ legalPhases i) (ht : exec i s = .next t) :
    t.resp ≠ .badSequence := by
  cases i with
  | clr => exact ne_badSequence_of_effect hp ht nofun
  | cbegin => exact ne_badSequence_of_effect hp ht nofun
  | csym data => exact ne_badSequence_of_effect hp ht nofun
  | cend => exact cendWith_ne_badSequence (effect_of_legal hp ht)
  | ebegin => exact ne_badSequence_of_effect hp ht nofun
  | esym data => exact ne_badSequence_of_effect hp ht nofun
  | eend => exact ne_badSequence_of_effect hp ht (closeResult_ne_badSequence s .bits)
  | dbegin => exact ne_badSequence_of_effect hp ht nofun
  | dbit data => exact dbitEffect_resp (effect_of_legal (i := .dbit data) hp ht) ▸ nofun
  | dend => exact ne_badSequence_of_effect hp ht (closeResult_ne_badSequence s.latchTruncated .syms)

/-- Settles O7: the phase check refuses a command its phase does not list, and nothing else answers BadSequence. -/
theorem onlyListedCommandsExecuteInAPhase : Obligations.OnlyListedCommandsExecuteInAPhase := by
  intro s i
  change (¬ ListedIn s.phase i → _) ∧ (ListedIn s.phase i → _)
  rw [listedIn_iff]
  exact ⟨exec_of_not_legal, fun hp _ => exec_ne_badSequence hp⟩

/-! ## CEND that fails (R201, R207) -/

/-- Settles O16: CEND reports the empty input or the latched Capacity, and outside COUNT the phase check refuses it. -/
theorem cendRejectsWithoutACodec : Obligations.CendRejectsWithoutACodec :=
  ⟨by decide, fun _ => ⟨exec_cend_of_empty_input, exec_cend_of_latched,
    fun hp => exec_of_not_legal (mt List.mem_singleton.1 hp)⟩⟩

/-! ## A latched error (R211) -/

/-- Settles O33: in each of the three operations, by induction on the further data commands, which are all ignored. -/
theorem latchedErrorIsKeptToTheEnd : Obligations.LatchedErrorIsKeptToTheEnd :=
  fun _ _ beats he => ⟨fun hp => runCommands_csyms_of_latched beats hp he,
    fun hp => runCommands_esyms_of_latched beats hp he, fun hp => runCommands_dbits_of_latched beats hp he⟩

/-! ## A bad character (R203, R210) -/

/-- A character that DBIT latches InvalidBit on, wherever the decode stands. -/
def BadCharacter (s : State) (d : Byte) : Prop := bitOfChar d = none ∨ d = chr true ∧ s.ksyms = 1

theorem exec_dbit_of_badCharacter {seen : List Byte} {tail : List Bool} {d : Byte} (hs : CodecOk s)
    (h : Decoded s seen tail t) (hd : BadCharacter s d) :
    exec (.dbit d) t = .next { t with terr := some .invalidBit, resp := .ok } := by
  rcases hd with hd | ⟨rfl, hk⟩
  · exact exec_dbit_of_no_bit h.phase h.terr hd
  · have hleaf : (t.nodeAt t.root).kind = .leaf := by
      rw [h.nodeAt, h.root]
      exact (root_leaf_iff hs.tree).2 hk
    exact exec_dbit_one_of_sole_leaf h.phase h.terr (h.root_lt hs) hleaf

/-- Bits that the decode parses and then a bad character: DEND reports InvalidBit, whatever stands between. -/
theorem decode_reports_badCharacter {bits tail : List Bool} {seen : List Byte} {d : Byte} (after : List Byte)
    (hs : CodecOk s) (hp : s.phase = .ready) (hroom : Config.within s.cfg.rbufCap bits.length)
    (hbits : bits = encodeBits s seen ++ tail) (hkeys : ∀ x ∈ seen, IsKey s x) (htail : tail = [] ∨ EndsInside s tail)
    (hd : BadCharacter s d) :
    ∃ t, runMacro (.decode (bits.map chr ++ d :: after)) s = .next t ∧ t.phase = .ready ∧ SameCodec s t
      ∧ NoResult t .invalidBit := by
  subst hbits
  have hlen : seen.length ≤ (encodeBits s seen ++ tail).length := by
    rw [List.length_append]
    exact (length_le_encodeBits hs hkeys).trans (Nat.le_add_right _ _)
  obtain ⟨t, hrun, h⟩ := runCommands_decoded hs hp hkeys (fun c hc => hlen.trans (hroom c hc)) htail
  refine ⟨{ t with terr := none, rkind := .none, rlen := 0, phase := .ready, resp := .invalidBit }, ?_, rfl, h.codec,
    rfl, rfl, rfl⟩
  rw [runMacro_decode_append (d :: after) hrun]
  simp only [List.map_cons, List.cons_append, runCommands, exec_dbit_of_badCharacter hs h hd]
  exact runCommands_dbits_of_latched (e := .invalidBit) after h.phase rfl

/-- With one symbol a bit-string is that symbol's codes, up to its end or to its first '1'. -/
theorem exists_parse_sole (h : CodecOk s) (hk : s.ksyms = 1) (bits : List Bool) :
    ∃ seen, (∀ x ∈ seen, IsKey s x)
      ∧ (bits = encodeBits s seen ∨ ∃ rest, bits = encodeBits s seen ++ true :: rest) := by
  have hkey := isKey_of_leaf h (root_lt_nn h.tree) ((root_leaf_iff h.tree).2 hk)
  have hcons : ∀ seen, encodeBits s ((s.nodeAt s.root).sym :: seen) = false :: encodeBits s seen := fun seen => by
    rw [encodeBits, List.flatMap_cons, key_code_sole h hkey hk]
    rfl
  induction bits with
  | nil => exact ⟨[], nofun, .inl rfl⟩
  | cons b bits ih =>
    cases b with
    | true => exact ⟨[], nofun, .inr ⟨bits, rfl⟩⟩
    | false =>
      obtain ⟨seen, hkeys, hsplit⟩ := ih
      refine ⟨(s.nodeAt s.root).sym :: seen, List.forall_mem_cons.2 ⟨hkey, hkeys⟩, ?_⟩
      rw [hcons]
      exact hsplit.imp (congrArg (false :: ·)) fun ⟨rest, hrest⟩ => ⟨rest, congrArg (false :: ·) hrest⟩

/-- Settles O53: the bits before the bad character parse, unless K = 1 and one of them is a '1', which is then the first
bad character. -/
theorem badCharacterIsInvalidBit : Obligations.BadCharacterIsInvalidBit := by
  intro s before d after hinv hp hroom hd
  have hs := hinv.codec (.inl hp)
  have hbad : BadCharacter s d := hd.imp_left bitOfChar_eq_none.2
  by_cases hk : s.ksyms = 1
  · obtain ⟨seen, hkeys, hsplit⟩ := exists_parse_sole hs hk before
    rcases hsplit with hall | ⟨rest, rfl⟩
    · exact decode_reports_badCharacter after hs hp hroom (hall.trans (List.append_nil _).symm) hkeys (.inl rfl) hbad
    · have hzeros : Config.within s.cfg.rbufCap (encodeBits s seen).length := fun c hc =>
        (List.prefix_append _ _).length_le.trans (hroom c hc)
      rw [List.map_append, List.map_cons, List.append_assoc]
      exact decode_reports_badCharacter (rest.map chr ++ d :: after) hs hp hzeros (List.append_nil _).symm hkeys
        (.inl rfl) (.inr ⟨rfl, hk⟩)
  · obtain ⟨seen, tail, hparse, hkeys, htail⟩ := exists_parse hs hk before
    exact decode_reports_badCharacter after hs hp hroom hparse hkeys (.inr htail) hbad

end Sys2Proof.Exceptions
end

section
/-! PROOFS for 70_reset_and_hazards.md and 10_state.md section 5: no step from the invariants stops (R246), every step
keeps the RAMs' canonical form, and the reset state meets the invariants. -/

namespace Sys2Proof.Hazards

open Sys2Proof Sys2Proof.Machine Sys2Proof.Safety Sys2Proof.Laws Sys2Proof.Invariants

variable {s t : State}

/-! ## The invariants at reset, and a step from them -/

/-- Settles O39: after reset no RAM holds a value, no operation is open and there is no result. -/
theorem resetMeetsTheInvariant : Obligations.ResetMeetsTheInvariant :=
  inv_iff.2 ⟨by decide, ⟨listed_nil _, listed_nil _, listed_nil _, listed_nil _⟩,
    sequencing_of_no_result rfl rfl rfl rfl (within_zero _), contents_of_empty rfl rfl⟩

/-- Settles O41: the phase machine has a row for every step. -/
theorem stepFromTheInvariantNeverStops : Obligations.StepFromTheInvariantNeverStops := by
  intro s h
  obtain ⟨t, hstep, -⟩ := Lifecycle.phaseMachineFollowsItsTable s h
  exact ⟨t, hstep⟩

/-! ## The canonical form of the RAMs (10_state.md section 5) -/

/-- The form looks at the RAMs only. -/
theorem canonical_congr (hfreq : t.freq = s.freq) (hnode : t.node = s.node) (hcode : t.code = s.code)
    (hrbuf : t.rbuf = s.rbuf) (h : Canonical s) : Canonical t := by
  rwa [Canonical, hfreq, hnode, hcode, hrbuf]

theorem canonical_stage (bs : List Byte) (h : Canonical s) : Canonical (s.stage bs) := by
  obtain ⟨hfreq, hnode, hcode, hrbuf⟩ := h
  exact ⟨hfreq, hnode, hcode, writeFrom_wf hrbuf s.wlen bs⟩

theorem canonical_csymEffect (data : Byte) (h : Canonical s) : Canonical (csymEffect data s) := by
  rcases csymEffect_cases data s with ⟨_, heq⟩ | ⟨_, _, heq⟩ | ⟨_, _, heq⟩ <;> rw [heq]
  · exact h
  · exact h
  · obtain ⟨hfreq, hnode, hcode, hrbuf⟩ := h
    exact ⟨write_wf hfreq _ _, hnode, hcode, hrbuf⟩

theorem canonical_esymEffect (data : Byte) (h : Canonical s) : Canonical (esymEffect data s) := by
  rcases esymEffect_cases data s with ⟨_, heq⟩ | ⟨_, _, heq⟩ | ⟨_, _, _, heq⟩ | ⟨_, _, _, heq⟩ <;> rw [heq]
  · exact h
  · exact h
  · exact canonical_stage _ h
  · exact h

theorem canonical_emitted {x : Byte} {cursor : Nat} (h : Canonical s) (ht : Emitted s x cursor t) : Canonical t := by
  rcases ht with ⟨_, rfl⟩ | ⟨_, _, rfl⟩
  · exact h
  · exact canonical_stage [x] h

theorem canonical_dbitEffect {data : Byte} (h : Canonical s) (ht : dbitEffect data s = .next t) : Canonical t := by
  rcases dbitEffect_cases ht with ⟨_, rfl⟩ | ⟨_, rfl⟩ | ⟨_, _, _, ⟨_, _, ht⟩ | ⟨_, _, rfl⟩ | ⟨_, _, ht⟩⟩
  · exact h
  · exact h
  · exact canonical_emitted h ht
  · exact h
  · exact canonical_emitted h ht

theorem canonical_closeResult (kind : RKind) (h : Canonical s) : Canonical (s.closeResult kind) :=
  canonical_congr (closeResult_freq s kind) (closeResult_node s kind) (closeResult_code s kind)
    (closeResult_rbuf s kind) h

theorem canonical_latchTruncated (h : Canonical s) : Canonical s.latchTruncated :=
  canonical_congr (latchTruncated_freq s) (latchTruncated_node s) (latchTruncated_code s) (latchTruncated_rbuf s) h

theorem visit_wf (depth i : Nat) (a : List Bool) {table : Memory CodeEntry} (h : table.wf) :
    (visit s depth i a table).wf := by
  induction depth generalizing i a table with
  | zero => exact h
  | succ depth ih =>
    cases hi : (s.nodeAt i).kind with
    | leaf => rw [visit_leaf hi]; exact write_wf h _ _
    | internal => rw [visit_internal hi]; exact ih _ _ (ih _ _ h)

theorem walk_code_wf (h : s.code.wf) : (walk s).code.wf := by
  cases hk : (s.nodeAt s.root).kind with
  | leaf => rw [walk_code_of_leaf hk]; exact write_wf h _ _
  | internal => rw [walk_code_of_internal hk]; exact visit_wf _ _ _ h

/-- SEED and the MERGE loop write NODE, WALK writes CODE, from whatever state. -/
theorem canonical_buildCodec (tie : Config.TieBreak) (h : Canonical s) : Canonical (buildCodec tie s) := by
  obtain ⟨hfreq, hnode, hcode, hrbuf⟩ := h
  have hseed : Listed (fun _ => True) (seed s).node :=
    listed_foldl_seedLeaf s.keys ⟨hnode, fun _ _ => trivial⟩ fun _ _ => trivial
  have hmerged := listed_mergeTimes tie ((seed s).pq.length - 1) hseed fun _ _ => trivial
  exact ⟨by rwa [buildCodec_freq], hmerged.1, walk_code_wf (s := construction tie s) (by rwa [construction_code]),
    by rwa [buildCodec_rbuf]⟩

theorem canonical_cendWith {tie : Config.TieBreak} (h : Canonical s) (ht : cendWith tie s = .next t) : Canonical t := by
  rcases cendWith_next ht with ⟨_, _, rfl⟩ | ⟨_, _, rfl⟩ | ⟨_, _, _, _, _, rfl⟩
  · exact h
  · exact h
  · exact canonical_buildCodec tie h

theorem exec_keeps_canonical (i : Instr) (h : Canonical s) (ht : exec i s = .next t) : Canonical t := by
  have hresp : Canonical (s.raise .badSequence) := h
  cases i with
  | clr => exact whenLegal_next_keeps hresp ht fun _ => h
  | cbegin =>
    obtain ⟨-, hnode, -, hrbuf⟩ := h
    exact whenLegal_next_keeps hresp ht fun _ => ⟨fill_wf _ _, hnode, fill_wf _ _, hrbuf⟩
  | csym data => exact whenLegal_next_keeps hresp ht fun _ => canonical_csymEffect data h
  | cend => exact whenLegal_keeps hresp (fun _ ht => canonical_cendWith h ht) ht
  | ebegin => exact whenLegal_next_keeps hresp ht fun _ => h
  | esym data => exact whenLegal_next_keeps hresp ht fun _ => canonical_esymEffect data h
  | eend => exact whenLegal_next_keeps hresp ht fun _ => canonical_closeResult .bits h
  | dbegin => exact whenLegal_next_keeps hresp ht fun _ => h
  | dbit data => exact whenLegal_keeps hresp (fun _ ht => canonical_dbitEffect h ht) ht
  | dend => exact whenLegal_next_keeps hresp ht fun _ => canonical_closeResult .syms (canonical_latchTruncated h)

/-- Settles O42: each command writes its RAMs by the operations that keep the form, and a reset empties them. -/
theorem stepKeepsMemoriesCanonical : Obligations.StepKeepsMemoriesCanonical := by
  intro s t h hs
  exact step_keeps (P := Canonical) (fun _ _ _ h => h)
    (fun _ _ => ⟨List.Pairwise.nil, List.Pairwise.nil, List.Pairwise.nil, List.Pairwise.nil⟩)
    (fun i _ _ => exec_keeps_canonical i) h hs

end Sys2Proof.Hazards
end
